-- ==== Sys2Proof/Word.lean ====
section
/-!
DEFINITION. The word types of the model: what the spec treats as bits (00_scope.md R5).
Bit 0 is the least significant bit of every value; all values are unsigned unless a rule says otherwise.
-/

namespace Sys2Proof

/-- One byte: the unit of memory (10_state.md R21) and of an encoding (30_encoding.md R50). -/
abbrev Byte := BitVec 8

/-- A half-precision datum, the input element of a lane (40_vcvtph2ps.md R80). -/
abbrev Half := BitVec 16

/-- A single-precision datum, the output element of a lane (40_vcvtph2ps.md R81). -/
abbrev Single := BitVec 32

/-- A 64-bit word: a general register, a linear address, the instruction pointer (10_state.md R16, R17). -/
abbrev Word := BitVec 64

/-- A full vector register at the widest MAX_VL (00_scope.md R4, 10_state.md R10). -/
abbrev VWord := BitVec 512

/-- The packed source operand: the low 16*KL bits, at most 256, zero above (40_vcvtph2ps.md R92). -/
abbrev Packed := BitVec 256

end Sys2Proof
end

