-- ==== Sys2Proof/Machine/Convert.lean ====
section
/-!
DEFINITION. The conversion function of one lane (40_vcvtph2ps.md R80 to R85), and the numeric values
of the two formats that its exactness is stated with.
-/

namespace Sys2Proof.Machine

/-! ### Half precision (R80) -/

def halfSign (h : Half) : BitVec 1 := h.extractLsb' 15 1
def halfExp (h : Half) : BitVec 5 := h.extractLsb' 10 5
def halfFrac (h : Half) : BitVec 10 := h.extractLsb' 0 10

/-- A NaN: e = 31, f not 0. -/
def isNaN16 (h : Half) : Bool := halfExp h == 31 && halfFrac h != 0

/-- A signalling NaN: a NaN with f[9] = 0. -/
def isSNaN16 (h : Half) : Bool := isNaN16 h && !h.getLsbD 9

/-- A denormal: e = 0, f not 0. -/
def isDenormal16 (h : Half) : Bool := halfExp h == 0 && halfFrac h != 0

/-- Zero, denormal or normal: e is not 31. -/
def isFinite16 (h : Half) : Bool := halfExp h != 31

/-! ### Single precision (R81) -/

def singleExp (r : Single) : BitVec 8 := r.extractLsb' 23 8
def singleFrac (r : Single) : BitVec 23 := r.extractLsb' 0 23

/-- The single of a sign, an exponent field and a fraction. -/
def single (s : BitVec 1) (e : BitVec 8) (f : BitVec 23) : Single := s ++ e ++ f

/-- A quiet NaN: E = 255 and F[22] = 1. -/
def isQNaN32 (r : Single) : Bool := singleExp r == 255 && r.getLsbD 22

/-! ### The conversion (R82, R83) -/

/-- The fraction of a half moved to the top of a single's fraction: `f ++ 0^13`. -/
def widenFrac (f : BitVec 10) : BitVec 23 := f ++ (0 : BitVec 13)

/-- The single that a NaN input becomes by R83: the sign is kept, the payload moves to the top of the
fraction, and the quiet bit 22 is set. -/
def quietNaN (h : Half) : Single :=
  single (halfSign h) 255 (widenFrac (halfFrac h) ||| 0x400000)

/-- `nanConv` (R4): a NaN for which the configuration `c` lists a quiet NaN of its sign becomes that
(the properties of D12), any other NaN what R83 says. -/
def nanConv (c : List (Half × Single)) (h : Half) : Single :=
  match c.find? (fun p => p.1 == h && isQNaN32 p.2 && p.2.getLsbD 31 == h.getLsbD 15) with
  | some p => p.2
  | none => quietNaN h

/-- The position of the highest set bit of a fraction that is not 0. -/
def highBit (f : BitVec 10) : Nat := Nat.log2 f.toNat

/-- A denormal input: the leading one, at bit `p`, moves to bit 23 and is dropped (R82). -/
def convertDenormal (s : BitVec 1) (f : BitVec 10) : Single :=
  single s (BitVec.ofNat 8 (103 + highBit f)) (f.setWidth 23 <<< (23 - highBit f))

/-- A normal input: the exponent is re-biased by 112 (R82). -/
def convertNormal (s : BitVec 1) (e : BitVec 5) (f : BitVec 10) : Single :=
  single s (e.setWidth 8 + 112) (widenFrac f)

/-- The result of R82 for a given treatment of NaNs. -/
def convertWith (nan : Half → Single) (h : Half) : Single :=
  if halfExp h = 0 then
    (if halfFrac h = 0 then single (halfSign h) 0 0 else convertDenormal (halfSign h) (halfFrac h))
  else if halfExp h ≠ 31 then convertNormal (halfSign h) (halfExp h) (halfFrac h)
  else if halfFrac h = 0 then single (halfSign h) 255 0
  else nan h

/-- `vCvt_h2s` (R82) with the configured NaNs: the result, and whether Invalid is signalled. -/
def vCvtH2s (c : List (Half × Single)) (h : Half) : Single × Bool :=
  (convertWith (nanConv c) h, isSNaN16 h)

/-! ### Numeric values (R80, R81) -/

/-- The value of a finite half times 2^24, an integer. -/
def halfValue (h : Half) : Int :=
  (if h.getLsbD 15 then -1 else 1) *
    (if halfExp h = 0 then ((halfFrac h).toNat : Int)
     else (1024 + (halfFrac h).toNat : Int) * 2 ^ ((halfExp h).toNat - 1))

/-- The value of a finite single times 2^149, an integer. -/
def singleValue (r : Single) : Int :=
  (if r.getLsbD 31 then -1 else 1) *
    (if singleExp r = 0 then ((singleFrac r).toNat : Int)
     else (2 ^ 23 + (singleFrac r).toNat : Int) * 2 ^ ((singleExp r).toNat - 1))

end Sys2Proof.Machine
end

