-- ==== Sys2Proof/Config.lean ====
section
/-!
DEFINITION. The parameters of 00_scope.md R4 as data, and the values the spec leaves open.
A parameter the spec calls open is a field of plain data that State carries and no step changes, so
that a statement about every state is a statement about every platform. A value the spec leaves to
a draw is an opaque constant: nothing in Lean can evaluate it.
-/

namespace Sys2Proof

/-- `MODE` (R4): 64-bit mode, or 32-bit protected or compatibility mode. Fixed for a run (D3, D15). -/
inductive Mode
  | m64
  | m32
  deriving DecidableEq, Repr

/-- The address size `A` in force (30_encoding.md R63). -/
inductive AddrSize
  | a64
  | a32
  | a16
  deriving DecidableEq, Repr

/-- Where a rule describes what the hardware does and then says that "this spec's model" refuses it
or leaves it out (R38, R62, R63, R66, R116 with D3, D7, D16), the platform says which reading is in
force (assumption log 1). -/
inductive Policy
  /-- The hardware effect that the rules describe is executed. -/
  | effects
  /-- The refusals of D3 are made; fetch faults and debug exceptions are not modelled (D7, D16). -/
  | decisions
  deriving DecidableEq, Repr

/-- The CPUID feature flags of R4 (open, D20). AVX512VL does not imply AVX512F. -/
structure CpuId where
  f16c : Bool
  avx512f : Bool
  avx512vl : Bool
  deriving DecidableEq, Repr

/-- Why a page refuses an access (20_memory.md R37 item 3, 60_exceptions.md R104). -/
inductive PageWhy
  /-- The page is not present: error-code bit P = 0. -/
  | notPresent
  /-- A supervisor page: it refuses an access made at CPL 3 and no other. -/
  | supervisor
  /-- A reserved bit is set in a paging-structure entry. -/
  | reservedBit
  deriving DecidableEq, Repr

/-- An exception that the platform's map itself gives for a read (R36: `fault(vector, code)`). The
memory exceptions of R100 only: `#AC` is never raised (R106). -/
inductive MemException
  | ss
  | gp
  | pf (code : BitVec 32)
  deriving DecidableEq, Repr

/-- An answer of `MemAdmit` for one linear address (20_memory.md R36). -/
inductive Admit
  /-- Ordinary memory. -/
  | ok
  /-- The access raises the given exception. -/
  | fault (x : MemException)
  /-- The page's own state decides (R37 item 3), with the error code of R104. -/
  | page (why : PageWhy)
  /-- A device or anything with read side effects: no meaning (R33, R36). -/
  | refused
  deriving DecidableEq, Repr

/-- One range of the platform's address map: `size` bytes from `base`. -/
structure Region where
  base : Nat
  size : Nat
  what : Admit
  deriving DecidableEq, Repr

/-- The open parameters of R4 that no rule changes. -/
structure Platform where
  /-- Linear addresses have 57 bits instead of 48 (R37 item 1). -/
  la57 : Bool
  /-- `KW` = 64 instead of 16 (R4, D24). -/
  kw64 : Bool
  policy : Policy
  /-- `nanConv` (R4, R83, D12): the NaNs that become another quiet NaN of their sign than R83 says,
  each with its single. Empty for the value R83 gives. -/
  nanConv : List (Half × Single)
  /-- `MemAdmit` (R36): the first region that holds an address answers for it. -/
  addressMap : List Region
  deriving DecidableEq, Repr

/-- The draw of D21 (U15): which of several page-faulting bytes is reported. -/
opaque Config.pageFaultDraw : Nat → Nat

/-- Is a disp8 of an EVEX form scaled by N under a 16-bit address size? R57 states the scaling for
sizes 32 and 64 only, and 93_implementation_defined.md U6 calls it uncertain. -/
opaque Config.disp8Scaled16 : Bool

/-- Is V-prime = 0 ignored in M32 (R66) instead of `#UD` (R65 c)? The two rules disagree. -/
opaque Config.m32IgnoresVPrime : Bool

/-- Is `#GP(0)` (R103) raised for a null or unreadable SS, instead of `#SS(0)` (R37 item 2)? The two
rules disagree; the argument says that the offset is also outside the limit (assumption log 24). -/
opaque Config.ssSelectorIsGp : Bool → Bool

/-- The processor signature that RDX holds after reset (10_state.md R23). PRESUMED: the spec gives
no value; a family 6 signature. -/
def Config.signature : Word := 0x50654

end Sys2Proof
end

