-- ==== Sys2Proof/Syntax.lean ====
section
/-!
DEFINITION. Decoded instructions: one constructor of `Instr` per row of spec/opcode_table.json.
An instruction carries all that its meaning and its length need: the legacy prefixes, the register
numbers assembled from prefix bits and ModRM, and the memory operand in the shape it was encoded.
-/

namespace Sys2Proof

/-- The six segments (10_state.md R20, 30_encoding.md R63). -/
inductive Seg
  | es
  | cs
  | ss
  | ds
  | fs
  | gs
  deriving DecidableEq, Repr

/-- A legacy prefix that may stand before VEX or EVEX (30_encoding.md R50, R63). -/
inductive LegacyPrefix
  | seg (s : Seg)
  /-- 67h, the address-size prefix. -/
  | addrSize
  deriving DecidableEq, Repr

/-- A general register number, 0 to 15 (10_state.md R16). -/
abbrev GReg := BitVec 4

/-- The index of a SIB byte: a register and the exponent of its scale (R56). -/
structure Index where
  reg : GReg
  scale : BitVec 2
  deriving DecidableEq, Repr

/-- The displacement at address size 32 or 64 (R57). -/
inductive Disp
  | none
  | d8 (d : BitVec 8)
  | d32 (d : BitVec 32)
  deriving DecidableEq, Repr

/-- The displacement at address size 16 (R62). -/
inductive Disp16
  | none
  | d8 (d : BitVec 8)
  | d16 (d : BitVec 16)
  deriving DecidableEq, Repr

/-- A memory operand in the shape it is encoded (R60, R62). -/
inductive MemOp
  /-- ModRM alone: a base register and a displacement. -/
  | base (b : GReg) (d : Disp)
  /-- A SIB byte with a base register; no index when SIB.index with X is 4. -/
  | sib (b : GReg) (i : Option Index) (d : Disp)
  /-- A SIB byte without base: mod = 00b, SIB.base = 101b, a disp32. -/
  | index (i : Option Index) (d : BitVec 32)
  /-- mod = 00b, rm = 101b: RIP-relative in M64, absolute in M32. -/
  | disp32 (d : BitVec 32)
  /-- Address size 16: the register combination of `rm` and a displacement. -/
  | a16 (rm : BitVec 3) (d : Disp16)
  /-- Address size 16, mod = 00b, rm = 110b: a disp16 alone. -/
  | abs16 (d : BitVec 16)
  deriving DecidableEq, Repr

/-- Operand 2 (R55, R69): a vector register of a `w`-bit number, or memory. -/
inductive Operand (w : Nat)
  | reg (n : BitVec w)
  | mem (m : MemOp)
  deriving DecidableEq, Repr

/-- EVEX.aaa and EVEX.z (R59): aaa = 000b is no writemask, z = 1 is zeroing-masking. -/
structure Mask where
  aaa : BitVec 3
  z : Bool
  deriving DecidableEq, Repr

/-- No writemask: what the VEX forms have (40_vcvtph2ps.md R87, R88). -/
abbrev Mask.off : Mask := ⟨0, false⟩

/-- The five encoded forms (00_scope.md R1). -/
inductive Form
  | vex128
  | vex256
  | evex128
  | evex256
  | evex512
  deriving DecidableEq, Repr

/-- The instruction set: one mnemonic, the six rows of the opcode table (30_encoding.md R68). -/
inductive Instr
  /-- Row 1: VCVTPH2PS xmm1, xmm2/m64 (R87). -/
  | vcvtph2psVex128 (pfx : List LegacyPrefix) (dst : BitVec 4) (src : Operand 4)
  /-- Row 2: VCVTPH2PS ymm1, xmm2/m128 (R88). -/
  | vcvtph2psVex256 (pfx : List LegacyPrefix) (dst : BitVec 4) (src : Operand 4)
  /-- Row 3: VCVTPH2PS xmm1 (k1)(z), xmm2/m64 (R89). -/
  | vcvtph2psEvex128 (pfx : List LegacyPrefix) (dst : BitVec 5) (src : Operand 5) (mask : Mask)
  /-- Row 4: VCVTPH2PS ymm1 (k1)(z), xmm2/m128 (R90). -/
  | vcvtph2psEvex256 (pfx : List LegacyPrefix) (dst : BitVec 5) (src : Operand 5) (mask : Mask)
  /-- Row 5: VCVTPH2PS zmm1 (k1)(z), ymm2/m256 (R91). -/
  | vcvtph2psEvex512 (pfx : List LegacyPrefix) (dst : BitVec 5) (src : Operand 5) (mask : Mask)
  /-- Row 5s: VCVTPH2PS zmm1 (k1)(z), ymm2, with suppress-all-exceptions (R67, R91). -/
  | vcvtph2psEvex512Sae (pfx : List LegacyPrefix) (dst : BitVec 5) (src : BitVec 5) (mask : Mask)
  deriving DecidableEq, Repr

/-- Why the decoder gives bytes no meaning. -/
inductive DecodeRefusal
  /-- Not VCVTPH2PS (00_scope.md R3, U4): another instruction, or no instruction of this spec. -/
  | otherInstruction
  /-- D3, under `Policy.decisions` only: two segment overrides, or two 67h (R63). -/
  | repeatedPrefix
  /-- D3, under `Policy.decisions` only: 67h in M32 (R62). -/
  | addressSize16
  /-- D3, under `Policy.decisions` only: a register-extension bit is 0 in M32 (R66). -/
  | m32ExtensionBit
  deriving DecidableEq, Repr

/-- What the decoder answers (30_encoding.md R64). -/
inductive Decoded
  | instr (i : Instr)
  /-- An invalid encoding of the pattern: `#UD` (R65). -/
  | invalid
  /-- More than 15 bytes: `#GP(0)` (R50). -/
  | tooLong
  | refused (r : DecodeRefusal)
  /-- The bytes given end before the instruction does. -/
  | short
  deriving DecidableEq, Repr

end Sys2Proof
end

