-- ==== Sys2Proof/Decode.lean ====
section
/-!
DEFINITION. The encodings of 30_encoding.md: the decoder (R64), total on any bytes and rejecting by
name, and after it the encoder. Both are written from the tables of R52 to R63 and R68.
Register-extension bits are stored inverted in the prefixes: a name ending in `bar` is the stored
bit, and the number's bit is its negation.
-/

namespace Sys2Proof

/-- `OPCODE_BYTE` (R4, D1): the source's "1313" is the single byte 13h. -/
def opcodeByte : Byte := 0x13

/-- An instruction longer than this raises `#GP(0)` (R50). -/
def maxLength : Nat := 15

/-- Bit fields -/
def field (v : Byte) (lo w : Nat) : BitVec w := v.extractLsb' lo w

/-! ### Legacy prefixes (R63) -/

def Seg.prefixByte : Seg → Byte
  | .es => 0x26
  | .cs => 0x2E
  | .ss => 0x36
  | .ds => 0x3E
  | .fs => 0x64
  | .gs => 0x65

def LegacyPrefix.byte : LegacyPrefix → Byte
  | .seg s => s.prefixByte
  | .addrSize => 0x67

/-- The legacy prefix a byte is, of those that may stand before VEX or EVEX. -/
def legacyOf (b : Byte) : Option LegacyPrefix :=
  if b = 0x26 then some (.seg .es)
  else if b = 0x2E then some (.seg .cs)
  else if b = 0x36 then some (.seg .ss)
  else if b = 0x3E then some (.seg .ds)
  else if b = 0x64 then some (.seg .fs)
  else if b = 0x65 then some (.seg .gs)
  else if b = 0x67 then some .addrSize
  else none

/-- A byte that makes the encoding invalid when it stands before VEX or EVEX: LOCK, 66h, F2h, F3h,
and in M64 a REX prefix (R63, R65 row h). -/
def isBadPrefix (m : Mode) (b : Byte) : Bool :=
  b == 0xF0 || b == 0x66 || b == 0xF2 || b == 0xF3 || (m == .m64 && field b 4 4 == 4)

def isPrefixByte (m : Mode) (b : Byte) : Bool := (legacyOf b).isSome || isBadPrefix m b

/-- The prefix bytes at the front, and the bytes after them (R64 step 1). -/
def splitPrefixes (m : Mode) : List Byte → List Byte × List Byte
  | [] => ([], [])
  | b :: bs =>
    if isPrefixByte m b then (b :: (splitPrefixes m bs).1, (splitPrefixes m bs).2)
    else ([], b :: bs)

/-- The address size `A`: M64 64, or 32 with 67h; M32 32, or 16 with 67h (R63). -/
def addrSize (m : Mode) (pfx : List LegacyPrefix) : AddrSize :=
  match m, pfx.contains .addrSize with
  | .m64, false => .a64
  | .m64, true => .a32
  | .m32, false => .a32
  | .m32, true => .a16

/-! ### ModRM, SIB and displacement (R55 to R57, R62) -/

/-- The little-endian value of four bytes (R30, R57). -/
def word32 (b0 b1 b2 b3 : Byte) : BitVec 32 := b3 ++ b2 ++ b1 ++ b0

def readD32 : List Byte → Option (BitVec 32)
  | b0 :: b1 :: b2 :: b3 :: _ => some (word32 b0 b1 b2 b3)
  | _ => none

def readD16 : List Byte → Option (BitVec 16)
  | b0 :: b1 :: _ => some (b1 ++ b0)
  | _ => none

/-- The displacement that `mod` names at address size 32 or 64, where no base field overrides it. -/
def readDisp (mod : BitVec 2) (bytes : List Byte) : Option Disp :=
  if mod = 0 then some .none
  else if mod = 1 then bytes.head?.map .d8
  else (readD32 bytes).map .d32

/-- The displacement that `mod` names at address size 16 (R62). -/
def readDisp16 (mod : BitVec 2) (bytes : List Byte) : Option Disp16 :=
  if mod = 0 then some .none
  else if mod = 1 then bytes.head?.map .d8
  else (readD16 bytes).map .d16

/-- A register number with its extension bit as bit 3 (R58, R59). -/
def extend3 (hi : Bool) (low : BitVec 3) : BitVec 4 := BitVec.ofBool hi ++ low

/-- The index of a SIB byte; the number 4 (0100b) is no index (R60). -/
def readIndex (x : Bool) (sib : Byte) : Option Index :=
  if extend3 x (field sib 3 3) = 4 then none
  else some ⟨extend3 x (field sib 3 3), field sib 6 2⟩

/-- The memory operand of a SIB byte (R56, R60). -/
def readSib (x b : Bool) (mod : BitVec 2) (sib : Byte) (bytes : List Byte) : Option MemOp :=
  if mod = 0 ∧ field sib 0 3 = 5 then (readD32 bytes).map (.index (readIndex x sib))
  else (readDisp mod bytes).map (.sib (extend3 b (field sib 0 3)) (readIndex x sib))

/-- The memory operand of a ModRM byte with `mod` other than 11b; `none` when bytes are missing. -/
def readMem (a : AddrSize) (x b : Bool) (mod : BitVec 2) (rm : BitVec 3) (bytes : List Byte) :
    Option MemOp :=
  match a with
  | .a16 =>
    if mod = 0 ∧ rm = 6 then (readD16 bytes).map .abs16
    else (readDisp16 mod bytes).map (.a16 rm)
  | .a32 | .a64 =>
    if rm = 4 then
      match bytes with
      | [] => none
      | sib :: bs => readSib x b mod sib bs
    else if mod = 0 ∧ rm = 5 then (readD32 bytes).map .disp32
    else (readDisp mod bytes).map (.base (extend3 b rm))

/-! ### ModRM and what follows it, written -/

/-- ModRM.mod and ModRM.rm, the extension bits X and B, and the bytes after ModRM. -/
structure Tail where
  mod : BitVec 2
  rm : BitVec 3
  x : Bool
  b : Bool
  rest : List Byte
  deriving DecidableEq, Repr

def bytes32 (d : BitVec 32) : List Byte :=
  [d.extractLsb' 0 8, d.extractLsb' 8 8, d.extractLsb' 16 8, d.extractLsb' 24 8]

def bytes16 (d : BitVec 16) : List Byte := [d.extractLsb' 0 8, d.extractLsb' 8 8]

def Disp.mod : Disp → BitVec 2
  | .none => 0
  | .d8 _ => 1
  | .d32 _ => 2

def Disp.bytes : Disp → List Byte
  | .none => []
  | .d8 d => [d]
  | .d32 d => bytes32 d

def Disp16.mod : Disp16 → BitVec 2
  | .none => 0
  | .d8 _ => 1
  | .d16 _ => 2

def Disp16.bytes : Disp16 → List Byte
  | .none => []
  | .d8 d => [d]
  | .d16 d => bytes16 d

/-- The low three bits of a register number: what ModRM or SIB holds. -/
def low3 {w : Nat} (r : BitVec w) : BitVec 3 := r.extractLsb' 0 3

/-- SIB.index and its extension bit; 100b for no index (R56, R60). -/
def indexBits : Option Index → BitVec 2 × BitVec 3 × Bool
  | none => (0, 4, false)
  | some i => (i.scale, low3 i.reg, i.reg.getLsbD 3)

def sibByte (i : Option Index) (base : BitVec 3) : Byte :=
  (indexBits i).1 ++ (indexBits i).2.1 ++ base

def MemOp.tail : MemOp → Tail
  | .base b d => ⟨d.mod, low3 b, false, b.getLsbD 3, d.bytes⟩
  | .sib b i d => ⟨d.mod, 4, (indexBits i).2.2, b.getLsbD 3, sibByte i (low3 b) :: d.bytes⟩
  | .index i d => ⟨0, 4, (indexBits i).2.2, false, sibByte i 5 :: bytes32 d⟩
  | .disp32 d => ⟨0, 5, false, false, bytes32 d⟩
  | .a16 rm d => ⟨d.mod, rm, false, false, d.bytes⟩
  | .abs16 d => ⟨0, 6, false, false, bytes16 d⟩

/-- A register source has mod = 11b; bit 3 of its number is B and, under EVEX, bit 4 is X (R59). -/
def Operand.tail {w : Nat} : Operand w → Tail
  | .reg n => ⟨3, low3 n, n.getLsbD 4, n.getLsbD 3, []⟩
  | .mem m => m.tail

/-! ### Lengths (R50) -/

/-- Prefixes, the three VEX bytes, opcode, ModRM, and what follows ModRM. -/
def vexLen (pfx : List LegacyPrefix) (src : Operand 4) : Nat := pfx.length + 5 + src.tail.rest.length

/-- Prefixes, the four EVEX bytes, opcode, ModRM, and what follows ModRM. -/
def evexLen (pfx : List LegacyPrefix) (src : Operand 5) : Nat :=
  pfx.length + 6 + src.tail.rest.length

/-- The encoded length in bytes of an instruction. -/
def Instr.len : Instr → Nat
  | .vcvtph2psVex128 pfx _ src => vexLen pfx src
  | .vcvtph2psVex256 pfx _ src => vexLen pfx src
  | .vcvtph2psEvex128 pfx _ src _ => evexLen pfx src
  | .vcvtph2psEvex256 pfx _ src _ => evexLen pfx src
  | .vcvtph2psEvex512 pfx _ src _ => evexLen pfx src
  | .vcvtph2psEvex512Sae pfx _ src _ => evexLen pfx (.reg src)

/-- The legacy prefixes of an instruction. -/
def Instr.pfx : Instr → List LegacyPrefix
  | .vcvtph2psVex128 pfx _ _ => pfx
  | .vcvtph2psVex256 pfx _ _ => pfx
  | .vcvtph2psEvex128 pfx _ _ _ => pfx
  | .vcvtph2psEvex256 pfx _ _ _ => pfx
  | .vcvtph2psEvex512 pfx _ _ _ => pfx
  | .vcvtph2psEvex512Sae pfx _ _ _ => pfx

/-! ### The decoder (R64) -/

/-- Does D3 call the legacy prefixes repeated: two segment overrides, or two 67h (R63)? -/
def repeatedPrefix (pfx : List LegacyPrefix) : Bool :=
  1 < pfx.countP (· != .addrSize) || 1 < pfx.count .addrSize

/-- The last checks on bytes of the VCVTPH2PS pattern, in the order of R107: the refusals of D3
where the platform makes them, the length, then the invalid encodings of R65. `raw` are the prefix
bytes, `len` the bytes of `i` without prefixes; `ext` says that an extension bit is 0 and `bad`
that a row of R65 other than h holds. -/
def checked (po : Policy) (m : Mode) (raw : List Byte) (len : Nat) (ext bad : Bool) (i : Instr) :
    Decoded :=
  if po = .decisions ∧ repeatedPrefix (raw.filterMap legacyOf) then .refused .repeatedPrefix
  else if po = .decisions ∧ addrSize m (raw.filterMap legacyOf) = .a16 then .refused .addressSize16
  else if po = .decisions ∧ m = .m32 ∧ ext then .refused .m32ExtensionBit
  else if maxLength < raw.length + len then .tooLong
  else if bad || raw.any (isBadPrefix m) then .invalid
  else .instr i

/-- In M32 the byte C4h or 62h begins a prefix only when the two top bits of the next byte are 11b;
otherwise it is LES or BOUND (R66). -/
def prefixInMode (m : Mode) (p : Byte) : Bool := m == .m64 || field p 6 2 == 3

/-- An extension bit from its stored, inverted bit; M32 names registers 0 to 7 only (R12, R66). -/
def extBit (m : Mode) (p : Byte) (bit : Nat) : Bool := m == .m64 && !p.getLsbD bit

/-- Operand 2 under VEX: a 4-bit register number (R58; X is ignored), or memory. -/
def readOperandVex (a : AddrSize) (x b : Bool) (modrm : Byte) (rest : List Byte) :
    Option (Operand 4) :=
  if field modrm 6 2 = 3 then some (.reg (extend3 b (field modrm 0 3)))
  else (readMem a x b (field modrm 6 2) (field modrm 0 3) rest).map .mem

/-- Operand 2 under EVEX: a 5-bit register number with X as bit 4 (R59), or memory. -/
def readOperandEvex (a : AddrSize) (x b : Bool) (modrm : Byte) (rest : List Byte) :
    Option (Operand 5) :=
  if field modrm 6 2 = 3 then some (.reg (BitVec.ofBool x ++ extend3 b (field modrm 0 3)))
  else (readMem a x b (field modrm 6 2) (field modrm 0 3) rest).map .mem

/-- A VEX encoding whose map, pp and opcode are those of VCVTPH2PS (R52, R58, R64 step 2). -/
def vexBody (po : Policy) (m : Mode) (raw : List Byte) (p1 p2 modrm : Byte) (rest : List Byte) :
    Decoded :=
  let pfx := raw.filterMap legacyOf
  let dst := extend3 (extBit m p1 7) (field modrm 3 3)
  match readOperandVex (addrSize m pfx) (extBit m p1 6) (extBit m p1 5) modrm rest with
  | none => .short
  | some src =>
    checked po m raw (vexLen [] src) (!p1.getLsbD 5)
      (p2.getLsbD 7 || field p2 3 4 != 0xF)
      (if p2.getLsbD 2 then .vcvtph2psVex256 pfx dst src else .vcvtph2psVex128 pfx dst src)

/-- The bytes after C4h: map 0F38, pp = 01b and opcode 13h, or another instruction (R64 step 2). -/
def decodeVex (po : Policy) (m : Mode) (raw : List Byte) : List Byte → Decoded
  | [] => .short
  | p1 :: t1 =>
    if !prefixInMode m p1 || field p1 0 5 != 2 then .refused .otherInstruction
    else match t1 with
    | [] => .short
    | p2 :: t2 =>
      if field p2 0 2 != 1 then .refused .otherInstruction
      else match t2 with
      | [] => .short
      | op :: t3 =>
        if op != opcodeByte then .refused .otherInstruction
        else match t3 with
        | [] => .short
        | modrm :: rest => vexBody po m raw p1 p2 modrm rest

/-- The instruction of an EVEX encoding: with a register source and b = 1 the suppress-all-exceptions
row whatever L'L is (R67), else the row of L'L; L'L = 11b is invalid and answers any row (R64 step 3). -/
def evexInstr (pfx : List LegacyPrefix) (dst : BitVec 5) (src : Operand 5) (mask : Mask)
    (b : Bool) (ll : BitVec 2) : Instr :=
  match src, b with
  | .reg n, true => .vcvtph2psEvex512Sae pfx dst n mask
  | src, _ =>
    if ll = 0 then .vcvtph2psEvex128 pfx dst src mask
    else if ll = 1 then .vcvtph2psEvex256 pfx dst src mask
    else .vcvtph2psEvex512 pfx dst src mask

/-- The rows a to g of R65 for an EVEX encoding. -/
def evexInvalid (m : Mode) (p0 p1 p2 modrm : Byte) : Bool :=
  p1.getLsbD 7
    || field p1 3 4 != 0xF
    || (!p2.getLsbD 3 && !(m == .m32 && Config.m32IgnoresVPrime))
    || (field p2 5 2 == 3 && !(p2.getLsbD 4 && field modrm 6 2 == 3))
    || (p2.getLsbD 4 && field modrm 6 2 != 3)
    || (p2.getLsbD 7 && field p2 0 3 == 0)
    || field p0 2 2 != 0
    || !p1.getLsbD 2

/-- An EVEX encoding whose map, pp and opcode are those of VCVTPH2PS (R54, R59, R64 step 3). -/
def evexBody (po : Policy) (m : Mode) (raw : List Byte) (p0 p1 p2 modrm : Byte) (rest : List Byte) :
    Decoded :=
  let pfx := raw.filterMap legacyOf
  let dst := BitVec.ofBool (extBit m p0 4) ++ extend3 (extBit m p0 7) (field modrm 3 3)
  match readOperandEvex (addrSize m pfx) (extBit m p0 6) (extBit m p0 5) modrm rest with
  | none => .short
  | some src =>
    checked po m raw (evexLen [] src) (!p0.getLsbD 5 || !p0.getLsbD 4 || !p2.getLsbD 3)
      (evexInvalid m p0 p1 p2 modrm)
      (evexInstr pfx dst src ⟨field p2 0 3, p2.getLsbD 7⟩ (p2.getLsbD 4) (field p2 5 2))

/-- The bytes after 62h: map 0F38, pp = 01b and opcode 13h, or another instruction (R64 step 3). -/
def decodeEvex (po : Policy) (m : Mode) (raw : List Byte) : List Byte → Decoded
  | [] => .short
  | p0 :: t0 =>
    if !prefixInMode m p0 || field p0 0 2 != 2 then .refused .otherInstruction
    else match t0 with
    | [] => .short
    | p1 :: t1 =>
      if field p1 0 2 != 1 then .refused .otherInstruction
      else match t1 with
      | p2 :: op :: t3 =>
        if op != opcodeByte then .refused .otherInstruction
        else match t3 with
        | [] => .short
        | modrm :: rest => evexBody po m raw p0 p1 p2 modrm rest
      | _ => .short

/-- The decoding procedure of R64 on the bytes at `pc`, for the platform's policy and the mode. -/
def decode (po : Policy) (m : Mode) (bytes : List Byte) : Decoded :=
  match (splitPrefixes m bytes).2 with
  | [] => .short
  | b :: t =>
    if b = 0xC4 then decodeVex po m (splitPrefixes m bytes).1 t
    else if b = 0x62 then decodeEvex po m (splitPrefixes m bytes).1 t
    else .refused .otherInstruction

/-! ### The encoder (R50, R52, R54, R68) -/

def modrmByte {w : Nat} (dst : BitVec w) (t : Tail) : Byte := t.mod ++ low3 dst ++ t.rm

/-- C4h, P1 = R X B 00010 with the bits inverted, P2 = 0 1111 L 01, the opcode and ModRM (R52). -/
def encodeVex (l : Bool) (pfx : List LegacyPrefix) (dst : BitVec 4) (t : Tail) : List Byte :=
  pfx.map LegacyPrefix.byte ++
    [0xC4,
     BitVec.ofBool (!dst.getLsbD 3) ++ BitVec.ofBool (!t.x) ++ BitVec.ofBool (!t.b) ++ (2 : BitVec 5),
     (0xF : BitVec 5) ++ BitVec.ofBool l ++ (1 : BitVec 2),
     opcodeByte, modrmByte dst t] ++ t.rest

/-- 62h, P0 = R X B R' 0010 with the bits inverted, P1 = 7Dh, P2 = z L'L b 1 aaa, the opcode and
ModRM (R54). -/
def encodeEvex (ll : BitVec 2) (b : Bool) (pfx : List LegacyPrefix) (dst : BitVec 5) (t : Tail)
    (mask : Mask) : List Byte :=
  pfx.map LegacyPrefix.byte ++
    [0x62,
     BitVec.ofBool (!dst.getLsbD 3) ++ BitVec.ofBool (!t.x) ++ BitVec.ofBool (!t.b)
       ++ BitVec.ofBool (!dst.getLsbD 4) ++ (2 : BitVec 4),
     0x7D,
     BitVec.ofBool mask.z ++ ll ++ BitVec.ofBool b ++ (1 : BitVec 1) ++ mask.aaa,
     opcodeByte, modrmByte dst t] ++ t.rest

/-- The bytes of an instruction. Bits that no rule consults are written 1 where they are stored
inverted, and L'L of the suppress-all-exceptions row is written 10b (R67 admits all four values). -/
def encode : Instr → List Byte
  | .vcvtph2psVex128 pfx dst src => encodeVex false pfx dst src.tail
  | .vcvtph2psVex256 pfx dst src => encodeVex true pfx dst src.tail
  | .vcvtph2psEvex128 pfx dst src mask => encodeEvex 0 false pfx dst src.tail mask
  | .vcvtph2psEvex256 pfx dst src mask => encodeEvex 1 false pfx dst src.tail mask
  | .vcvtph2psEvex512 pfx dst src mask => encodeEvex 2 false pfx dst src.tail mask
  | .vcvtph2psEvex512Sae pfx dst src mask =>
    encodeEvex 2 true pfx dst (Operand.reg src).tail mask

/-! ### Words of the opcode table -/

/-- The bytes of a word, the first in its low bits: byte `i` is bits 8i+7:8i. -/
def lowFirst : Nat → Nat → List Byte
  | 0, _ => []
  | n + 1, w => BitVec.ofNat 8 w :: lowFirst n (w / 256)

/-- The bytes of an instruction of `nbits` table bits: these, then zeros up to the longest length. -/
def padded (bs : List Byte) : List Byte := bs ++ List.replicate (maxLength - bs.length) 0

/-- Bytes in the two numberings of a table word: the first byte in the low bits, and the first byte
in the high bits, as the table's own `match` and `mask` are written. No word is an instruction of
the table in both (assumption log 20). -/
def tableBytes (nbits w : Nat) : List Byte :=
  match decode .effects .m64 (padded (lowFirst (nbits / 8) w)) with
  | .instr _ => padded (lowFirst (nbits / 8) w)
  | _ => padded (lowFirst (nbits / 8) w).reverse

/-- The instruction the decoder reads, in 64-bit mode, from a table word. -/
def decodeTableWord (nbits w : Nat) : Option Instr :=
  match decode .effects .m64 (tableBytes nbits w) with
  | .instr i => some i
  | _ => none

end Sys2Proof
end

