-- ==== Sys2Proof/Machine/State.lean ====
section
/-!
DEFINITION. The machine's state as plain data (10_state.md), the exceptions it can raise
(60_exceptions.md R100), the ways a step can stop, and the state right after reset (R23).
-/

namespace Sys2Proof.Machine

/-- A segment register's cached descriptor, as far as an access consults it (R20, R37). -/
structure SegReg where
  base : Word
  limit : BitVec 32
  readable : Bool
  /-- The register holds a null selector. -/
  null : Bool
  deriving DecidableEq, Repr

/-- The six segment registers (R20). -/
structure SegFile where
  es : SegReg
  cs : SegReg
  ss : SegReg
  ds : SegReg
  fs : SegReg
  gs : SegReg
  deriving DecidableEq, Repr

/-- What a breakpoint of DR0 to DR3 watches for (60_exceptions.md R116). -/
inductive BpKind
  | off
  | exec
  | readWrite
  deriving DecidableEq, Repr

/-- A debug address register and its type (R116): it watches one byte. -/
structure Breakpoint where
  kind : BpKind
  addr : Word
  deriving DecidableEq, Repr

/-- The registers that a launch state may mark *unwritten* (70_reset_and_hazards.md R121). -/
inductive Reg
  /-- A vector register. -/
  | vec (n : BitVec 5)
  /-- An opmask register. -/
  | opmask (n : BitVec 3)
  /-- A general register. -/
  | gpr (n : GReg)
  | mxcsr
  /-- The base of a segment. -/
  | segBase (g : Seg)
  deriving DecidableEq, Repr

/-- Memory by linear address in canonical form: see `Memory.wf`. -/
abbrev Memory := List Host.Cell

/-- The state of one logical processor and its memory (10_state.md). -/
structure State where
  /-- `MODE` (R4). -/
  mode : Mode
  /-- RIP; in M32 EIP, zero-extended (R17). -/
  pc : Word
  /-- General registers (R16). -/
  x : Vector Word 16
  /-- Vector registers at the widest MAX_VL (R10 to R12). -/
  v : Vector VWord 32
  /-- Opmask registers at the widest KW (R13). -/
  k : Vector Word 8
  /-- SIMD control and status (R14). -/
  mxcsr : BitVec 32
  /-- RFLAGS (R18, R19: VM). -/
  rflags : Word
  /-- Segment registers (R20). -/
  segs : SegFile
  /-- CR0 (R19: PE, TS). -/
  cr0 : Word
  /-- CR2: the linear address of a page fault (R37, R100, R104). -/
  cr2 : Word
  /-- CR4 (R19: OSXMMEXCPT, OSXSAVE). -/
  cr4 : Word
  /-- XCR0 (R19). -/
  xcr0 : Word
  /-- The current privilege level (R104, R112). -/
  cpl : BitVec 2
  /-- DR0 to DR3 (R116). -/
  dr : Vector Breakpoint 4
  /-- CPUID feature flags (R4, R19). -/
  cpuid : CpuId
  /-- The open parameters (R4). -/
  plat : Platform
  /-- Memory (R21). -/
  mem : Memory
  /-- The registers marked *unwritten* (R121). A register so marked still holds a value; only a
  launch state given from outside has a mark, no step makes one. -/
  unwritten : List Reg
  /-- The MODEL's own: how many draws of D21 were made. -/
  draws : Nat
  deriving DecidableEq, Repr

/-- The exceptions of R100, with what each records, and `#DB` of R116. -/
inductive Exception
  /-- Debug, vector 1 (R116). -/
  | db
  /-- Invalid opcode, vector 6 (R101). -/
  | ud
  /-- Device not available, vector 7 (R102). -/
  | nm
  /-- Stack-segment fault, vector 12, error code 0 (R103). -/
  | ss
  /-- General protection, vector 13, error code 0 (R103). -/
  | gp
  /-- Page fault, vector 14, with its error code and the linear address for CR2 (R104). -/
  | pf (code : BitVec 32) (addr : Word)
  /-- Alignment check, vector 17: in the table of R100, never raised (R106). -/
  | ac
  /-- SIMD floating-point exception, vector 19 (R105). -/
  | xm
  deriving DecidableEq, Repr

/-- Why a step stops with a fault. -/
inductive Fault
  /-- An architectural exception: raised by every rule of 60_exceptions.md, with the state it leaves
  (R108: the run ends there). Safe: delivery to a handler is outside the spec (R3 d). -/
  | exception (x : Exception) (s : State)
  /-- The model fault of R121 (D14): raised by `requireWritten` for a register that the launch state
  marks unwritten and the instruction reads. Safe: the run is refuted, no value is invented. -/
  | unwritten (r : Reg) (s : State)
  deriving DecidableEq, Repr

/-- Why a step has no meaning. -/
inductive Refusal
  /-- An instruction of the table without a meaning yet: raised by no arm of this model. Safe. -/
  | notModelled (mnemonic : String)
  /-- Bytes the decoder gives no meaning: raised by the step (R3, R62, R63, R66). Safe. -/
  | encoding (r : DecodeRefusal)
  /-- The operand wraps the offset space: raised by the memory read (R35, D26). Safe. -/
  | operandWraps
  /-- A byte of the operand lies where reads have side effects: raised by the memory read (R33, D6). Safe. -/
  | deviceOperand
  /-- An instruction byte lies where reads have side effects: raised by the fetch (R33, R36). Safe. -/
  | deviceFetch
  deriving DecidableEq, Repr

/-- The answer of the checks on one byte (20_memory.md R37). -/
inductive Check
  | ok
  | exc (x : Exception)
  | refuse
  deriving DecidableEq, Repr

/-- What an access is for: operand data or instruction bytes (R38, R104). -/
inductive Access
  | read
  | fetch
  deriving DecidableEq, Repr

/-- A memory operand resolved: its segment, offset and address size (R35, R60). -/
structure MemRef where
  seg : Seg
  ea : Nat
  asz : AddrSize
  deriving DecidableEq, Repr

/-- A segment register after reset (assumption log 10: the family's values). -/
def SegReg.atReset : SegReg := ⟨0, 0xFFFF, true, false⟩

/-- The machine right after reset (10_state.md R23, 70_reset_and_hazards.md R120). The values the
spec does not give are those of the assumption log, entries 8 to 14. -/
def State.reset : State where
  mode := .m32
  pc := 0xFFF0
  x := #v[0, 0, Config.signature, 0, 0, 0, 0, 0, 0, 0, 0, 0, 0, 0, 0, 0]
  v := Vector.replicate 32 (BitVec.zero 512)
  k := Vector.replicate 8 0
  mxcsr := 0x1F80
  rflags := 2
  segs :=
    { es := SegReg.atReset, cs := { SegReg.atReset with base := 0xFFFF0000 }, ss := SegReg.atReset,
      ds := SegReg.atReset, fs := SegReg.atReset, gs := SegReg.atReset }
  cr0 := 0x60000010
  cr2 := 0
  cr4 := 0
  xcr0 := 1
  cpl := 0
  dr := Vector.replicate 4 ⟨.off, 0⟩
  cpuid := ⟨true, true, true⟩
  plat := ⟨false, true, .effects, [], []⟩
  mem := []
  unwritten := []
  draws := 0

end Sys2Proof.Machine
end

