-- ==== Sys2Proof/Machine/Flags.lean ====
section
/-!
DEFINITION. The bits of the control and status registers that a rule reads or writes: MXCSR (R14,
R15), the enabling bits (R19, R101 d to h, R102), and the widths they fix (R4, R12).
-/

namespace Sys2Proof.Machine

/-! ### MXCSR (R14) -/

/-- MXCSR.IE, the sticky invalid-operation flag. -/
def State.ie (s : State) : Bool := s.mxcsr.getLsbD 0

/-- MXCSR.IM, the invalid-operation mask: 1 is masked. -/
def State.im (s : State) : Bool := s.mxcsr.getLsbD 7

/-- `MXCSR.IE <- 1`: the only MXCSR write of the instruction, it never clears a bit (R15). -/
def State.setIE (s : State) : State := { s with mxcsr := s.mxcsr ||| 1 }

/-! ### Enabling bits (R19) -/

/-- CR0.PE, protected mode. -/
def State.pe (s : State) : Bool := s.cr0.getLsbD 0

/-- CR0.TS, task switched. -/
def State.ts (s : State) : Bool := s.cr0.getLsbD 3

/-- CR4.OSXMMEXCPT: `#XM` instead of `#UD` for an unmasked Invalid. -/
def State.osxmmexcpt (s : State) : Bool := s.cr4.getLsbD 10

/-- CR4.OSXSAVE. -/
def State.osxsave (s : State) : Bool := s.cr4.getLsbD 18

/-- RFLAGS.VM, virtual-8086 mode. -/
def State.vm (s : State) : Bool := s.rflags.getLsbD 17

/-- RFLAGS.TF, single-step (R116; bit 8 PRESUMED, assumption log 15). -/
def State.tf (s : State) : Bool := s.rflags.getLsbD 8

/-- XCR0[2:1] = 11b: SSE and AVX state. -/
def State.avxState (s : State) : Bool := s.xcr0.extractLsb' 1 2 == 3

/-- XCR0[7:5] = 111b: opmask, ZMM_Hi256 and Hi16_ZMM state. -/
def State.zmmState (s : State) : Bool := s.xcr0.extractLsb' 5 3 == 7

/-- The EVEX forms need more enabling state than the VEX forms (R19). -/
def isEvex : Form → Bool
  | .vex128 => false
  | .vex256 => false
  | .evex128 => true
  | .evex256 => true
  | .evex512 => true

/-- The CPUID feature flags of a form (R101 h): F16C for the VEX forms, AVX512F for EVEX.512, and
AVX512F with AVX512VL for the narrower EVEX forms. -/
def hasFeature (c : CpuId) : Form → Bool
  | .vex128 => c.f16c
  | .vex256 => c.f16c
  | .evex128 => c.avx512f && c.avx512vl
  | .evex256 => c.avx512f && c.avx512vl
  | .evex512 => c.avx512f

/-- `Enabled(form)` (R4): none of the conditions d to h of R101 holds. -/
def enabled (f : Form) (s : State) : Bool :=
  s.pe && !s.vm && s.osxsave && s.avxState && (!isEvex f || s.zmmState) && hasFeature s.cpuid f

/-- What stops a form before any operand is read: `#UD` when it is not enabled, else `#NM` when
CR0.TS = 1 (R102, R107). -/
def recognised (f : Form) (s : State) : Option Exception :=
  if !enabled f s then some .ud else if s.ts then some .nm else none

/-- What an unmasked Invalid raises: `#XM`, or `#UD` when CR4.OSXMMEXCPT = 0 (R105, R101 i). -/
def invalidException (s : State) : Exception := if s.osxmmexcpt then .xm else .ud

/-! ### Widths -/

/-- `MAX_VL` (R4, D2). -/
def State.maxVL (s : State) : Nat := if s.cpuid.avx512f then 512 else 256

/-- `KW` (R4, D24). -/
def State.kw (s : State) : Nat := if s.plat.kw64 then 64 else 16

/-! ### Exceptions (R100) -/

/-- The vector number. -/
def Exception.vector : Exception → Nat
  | .db => 1
  | .ud => 6
  | .nm => 7
  | .ss => 12
  | .gp => 13
  | .pf _ _ => 14
  | .ac => 17
  | .xm => 19

/-- The error code; `none` where the exception has none. -/
def Exception.errorCode : Exception → Option (BitVec 32)
  | .db => none
  | .ud => none
  | .nm => none
  | .ss => some 0
  | .gp => some 0
  | .pf code _ => some code
  | .ac => some 0
  | .xm => none

/-- The value recorded: the linear address that CR2 receives on `#PF`. -/
def Exception.info : Exception → Option Word
  | .pf _ addr => some addr
  | .db => none
  | .ud => none
  | .nm => none
  | .ss => none
  | .gp => none
  | .ac => none
  | .xm => none

end Sys2Proof.Machine
end

