-- ==== Sys2Proof/Machine/Ops.lean ====
section
/-!
DEFINITION. The named operations over registers and memory, taking an exception, the checks on an
access (20_memory.md R35 to R37) and the read of a memory operand.
-/

namespace Sys2Proof.Machine

/-! ### Outcomes -/

/-- Go on with the value of an outcome, or stop where it stopped. -/
def andThen {α β : Type} (o : Host.Outcome α Fault Refusal) (f : α → Host.Outcome β Fault Refusal) :
    Host.Outcome β Fault Refusal :=
  match o with
  | .next a => f a
  | .fault r => .fault r
  | .refused r => .refused r

/-- What an exception records in a register: CR2 receives a page fault's linear address (R37, R100,
R104); no other exception of R100 records anything that is not already in the state. -/
def State.record (s : State) : Exception → State
  | .pf _ addr => { s with cr2 := addr }
  | .db => s
  | .ud => s
  | .nm => s
  | .ss => s
  | .gp => s
  | .ac => s
  | .xm => s

/-- `raise` (R7): taking an exception. The spec gives no delivery (R108, D10): the run ends with the
exception and the state as it stands, `pc` still at the instruction, CR2 recorded (assumption log 16).
There is no return from an exception in the spec (R109). -/
def raise {α : Type} (x : Exception) (s : State) : Host.Outcome α Fault Refusal :=
  .fault (.exception x (s.record x))

/-! ### Registers -/

/-- `x[i]` in full; an address computation takes its low bits (R16). -/
def State.gpr (s : State) (i : GReg) : Word := s.x[i.toNat]'i.isLt

/-- `v[i]` (R10, R11). -/
def State.vreg (s : State) (i : BitVec 5) : VWord := s.v[i.toNat]'i.isLt

/-- `v[i] <- w`: a write of the whole register, which is unwritten no more (R121). -/
def State.setVreg (s : State) (i : BitVec 5) (w : VWord) : State :=
  { s with
    v := s.v.set i.toNat w i.isLt
    unwritten := s.unwritten.filter (· != .vec i) }

/-- Go on when none of these registers is marked unwritten, else the model fault of R121 for the
first that is. -/
def requireWritten (rs : List Reg) (s : State) : Host.Outcome Unit Fault Refusal :=
  match rs.find? s.unwritten.contains with
  | some r => .fault (.unwritten r s)
  | none => .next ()

/-- `k[i]` (R13). -/
def State.opmask (s : State) (i : BitVec 3) : Word := s.k[i.toNat]'i.isLt

/-- A segment register. -/
def SegFile.get (f : SegFile) : Seg → SegReg
  | .es => f.es
  | .cs => f.cs
  | .ss => f.ss
  | .ds => f.ds
  | .fs => f.fs
  | .gs => f.gs

/-- `pc <- pc + len` modulo 2^64 in M64, modulo 2^32 in M32 (R17, D9). -/
def State.advance (s : State) (len : Nat) : State :=
  { s with pc :=
      match s.mode with
      | .m64 => s.pc + BitVec.ofNat 64 len
      | .m32 => ((s.pc + BitVec.ofNat 64 len).setWidth 32).setWidth 64 }

/-! ### Fields of a wide value -/

/-- Field `j` of width `w`: bits wj+w-1 : wj (R5). -/
def fieldAt (w : Nat) {n : Nat} (v : BitVec n) (j : Nat) : BitVec w := v.extractLsb' (w * j) w

/-- The value whose field `j` is `f j` for `j < count`, with zeros above. -/
def packFields (w : Nat) {n : Nat} : Nat → (Nat → BitVec w) → BitVec n
  | 0, _ => BitVec.zero n
  | c + 1, f => packFields w c f ||| ((f c).setWidth n <<< (w * c))

/-! ### Memory cells (R21, R30) -/

/-- What an address that no entry lists reads as: DESIGN CHOICE, assumption log 7. -/
def Memory.unlisted : Byte := 0

def Memory.read : Memory → Nat → Byte
  | [], _ => Memory.unlisted
  | (a, b) :: rest, i => if i = a then b else Memory.read rest i

/-- Store one byte and keep the canonical form. No instruction of the spec stores (R95). -/
def Memory.write : Memory → Nat → Byte → Memory
  | [], i, c => if c = Memory.unlisted then [] else [(i, c)]
  | (a, b) :: rest, i, c =>
    if i < a then (if c = Memory.unlisted then (a, b) :: rest else (i, c) :: (a, b) :: rest)
    else if i = a then (if c = Memory.unlisted then rest else (i, c) :: rest)
    else (a, b) :: Memory.write rest i c

/-- Canonical from address `lo` on: rising, below 2^64, no entry that an unlisted address equals. -/
def Memory.wfFrom (lo : Nat) : Memory → Bool
  | [] => true
  | (a, b) :: rest =>
    decide (lo ≤ a) && decide (a < 2 ^ 64) && b != Memory.unlisted && Memory.wfFrom (a + 1) rest

/-- The canonical form of memory. -/
def Memory.wf (m : Memory) : Bool := Memory.wfFrom 0 m

/-- Store bytes at rising linear addresses, modulo 2^64. -/
def Memory.writeAll : Memory → Word → List Byte → Memory
  | m, _, [] => m
  | m, a, b :: bs => Memory.writeAll (m.write a.toNat b) (a + 1) bs

/-! ### Addresses -/

/-- The base a segment contributes: in M64 0 but for FS and GS; in M32 32 bits (R20). -/
def segBase (s : State) (seg : Seg) : Word :=
  match s.mode with
  | .m64 => if seg = .fs ∨ seg = .gs then (s.segs.get seg).base else 0
  | .m32 => ((s.segs.get seg).base.setWidth 32).setWidth 64

/-- The linear address of an offset: base plus offset, modulo 2^64 or 2^32 (R35). -/
def linear (s : State) (seg : Seg) (off : Nat) : Word :=
  match s.mode with
  | .m64 => segBase s seg + BitVec.ofNat 64 off
  | .m32 => ((segBase s seg + BitVec.ofNat 64 off).setWidth 32).setWidth 64

/-- Bits 63:47 all equal, or bits 63:56 with 57-bit linear addresses (R37 item 1). -/
def canonical (la57 : Bool) (a : Word) : Bool :=
  if la57 then (a.setWidth 57).signExtend 64 == a else (a.setWidth 48).signExtend 64 == a

/-! ### The checks of one byte (R37) -/

/-- `#SS(0)` when the segment is SS, else `#GP(0)` (R37, R103). -/
def segException (seg : Seg) : Exception := if seg = .ss then .ss else .gp

/-- What a null selector or an unreadable segment raises: `#GP(0)`, and in SS `#SS(0)` by R37 or
`#GP(0)` by R103, which is left open (assumption log 24). -/
def selectorException (seg : Seg) (outside : Bool) : Exception :=
  if seg = .ss ∧ Config.ssSelectorIsGp outside = false then .ss else .gp

/-- Items 1 and 2 of R37: the canonical check in M64; limit, null selector and readability in M32.
Of those, a fetch makes the limit check only (R38). -/
def segmentFault (acc : Access) (s : State) (seg : Seg) (off : Nat) (lin : Word) : Option Exception :=
  match s.mode with
  | .m64 => if canonical s.plat.la57 lin then none else some (segException seg)
  | .m32 =>
    if acc = .read ∧ ((s.segs.get seg).readable = false ∨ (s.segs.get seg).null = true) then
      some (selectorException seg (decide ((s.segs.get seg).limit.toNat < off)))
    else if (s.segs.get seg).limit.toNat < off then some (segException seg)
    else none

/-- The error-code bits that do not depend on the page: W/R = 0, U/S at CPL 3, I/D on a fetch
(R104, R38). -/
def accessCode (acc : Access) (s : State) : BitVec 32 :=
  (if s.cpl = 3 then 4 else 0) ||| (if acc = .fetch then 16 else 0)

/-- `MemAdmit` (R36). -/
def admitAt (rs : List Region) (a : Word) : Admit :=
  match rs.find? (fun r => decide (r.base ≤ a.toNat) && decide (a.toNat < r.base + r.size)) with
  | some r => r.what
  | none => .ok

/-- What an exception that the platform's map gives becomes on an access. On a read it is the one
given (R36). On a fetch the model's choice (assumption log 40): R38 names `#PF`, which gets the I/D
bit, and `#GP(0)`, which any other becomes. -/
def mapException (acc : Access) (lin : Word) : MemException → Exception
  | .ss => if acc = .fetch then .gp else .ss
  | .gp => .gp
  | .pf code => .pf (code ||| if acc = .fetch then 16 else 0) lin

/-- Item 3 of R37 and the platform's map: present pages let the access through. The spec names no
bit that says whether paging is enabled: a region of the map that is a page implies that it is
(the model's choice, assumption log 39). -/
def admitCheck (acc : Access) (s : State) (lin : Word) : Check :=
  match admitAt s.plat.addressMap lin with
  | .ok => .ok
  | .fault x => .exc (mapException acc lin x)
  | .page .notPresent => .exc (.pf (accessCode acc s) lin)
  | .page .supervisor => if s.cpl = 3 then .exc (.pf (accessCode acc s ||| 1) lin) else .ok
  | .page .reservedBit => .exc (.pf (accessCode acc s ||| 9) lin)
  | .refused => .refuse

/-- `check(seg, off, lin, read)` of R37, in its order. -/
def checkByte (acc : Access) (s : State) (seg : Seg) (off : Nat) : Check :=
  match segmentFault acc s seg off (linear s seg off) with
  | some x => .exc x
  | none => admitCheck acc s (linear s seg off)

/-! ### Reporting (R104, R107) -/

/-- The page fault a check gives, if it gives one. -/
def Check.pageFault : Check → Option (BitVec 32 × Word)
  | .exc (.pf code addr) => some (code, addr)
  | _ => none

/-- Two linear addresses in one 4 KiB page (assumption log 5). -/
def samePage (a b : Word) : Bool := a >>> 12 == b >>> 12

/-- `#PF`: the lowest-addressed byte that page-faults, unless bytes of two pages fault: then which
byte is reported is a draw among them (R104, D21). -/
def raisePageFault {α : Type} (code : BitVec 32) (addr : Word) (all : List (BitVec 32 × Word))
    (s : State) : Host.Outcome α Fault Refusal :=
  if all.all (fun p => samePage p.2 addr) then raise (.pf code addr) s
  else
    let p := all.getD (Config.pageFaultDraw s.draws % all.length) (code, addr)
    raise (.pf p.1 p.2) { s with draws := s.draws + 1 }

/-- The answer to the checks of an operand's bytes, in the order of their addresses: the first that
is not `ok` is reported (R107 item 5). -/
def report (cs : List Check) (s : State) : Host.Outcome Unit Fault Refusal :=
  match cs.find? (· != .ok) with
  | none => .next ()
  | some .ok => .next ()
  | some .refuse => .refused .deviceOperand
  | some (.exc (.pf code addr)) => raisePageFault code addr (cs.filterMap Check.pageFault) s
  | some (.exc x) => raise x s

/-! ### The read of a memory operand (R35) -/

/-- The address size in bits. -/
def addrBits : AddrSize → Nat
  | .a64 => 64
  | .a32 => 32
  | .a16 => 16

/-- The operand's last byte lies beyond the offset space (R35: `ea + n - 1 >= 2^A`). -/
def wraps (r : MemRef) (n : Nat) : Bool := decide (2 ^ addrBits r.asz ≤ r.ea + n - 1)

/-- The bytes that must be checked, of `n`: those of the active lanes, two bytes a lane (R41). -/
def checkedBytes (n : Nat) (active : Nat → Bool) : List Nat :=
  (List.range n).filter (fun b => active (b / 2))

/-- The checks of those bytes, at their offsets. -/
def operandChecks (r : MemRef) (n : Nat) (active : Nat → Bool) (s : State) : List Check :=
  (checkedBytes n active).map (fun b => checkByte .read s r.seg (r.ea + b))

/-- The byte of the operand at offset `b` from its start. -/
def operandByte (r : MemRef) (s : State) (b : Nat) : Byte :=
  s.mem.read (linear s r.seg (r.ea + b)).toNat

/-- `MemRead(seg, ea, n)` under a writemask: little-endian, byte `b` in bits 8b+7:8b (R30, R31). A
byte of an inactive lane is not read; its bits are given as 0 and no rule looks at them (R93). -/
def memRead (r : MemRef) (n : Nat) (active : Nat → Bool) (s : State) :
    Host.Outcome Packed Fault Refusal :=
  if wraps r n then .refused .operandWraps
  else
    andThen (report (operandChecks r n active s) s) fun _ =>
      .next (packFields 8 n (fun b => if active (b / 2) then operandByte r s b else 0))

end Sys2Proof.Machine
end

