-- ==== Sys2Proof/Machine/Operands.lean ====
section
/-!
DEFINITION. The operand forms: effective addresses (30_encoding.md R57, R60 to R63), the writemask
(40_vcvtph2ps.md R93), and the source operand of a form (R92).
-/

namespace Sys2Proof.Machine

/-! ### The numbers of a form (R86 to R92) -/

/-- `KL`, the number of lanes. -/
def laneCount : Form → Nat
  | .vex128 => 4
  | .vex256 => 8
  | .evex128 => 4
  | .evex256 => 8
  | .evex512 => 16

/-- `VL`, the number of destination bits that lanes write: 32 a lane. -/
def vectorLength (f : Form) : Nat := 32 * laneCount f

/-- The bytes of a memory operand, `2 * KL` (R32). -/
def memBytes (f : Form) : Nat := 2 * laneCount f

/-- `N`, the scale of a disp8: the operand's bytes for the EVEX forms, 1 for the VEX forms (R57). -/
def disp8Scale (f : Form) : Nat := if isEvex f then memBytes f else 1

/-! ### Effective address (R57, R60, R62) -/

/-- The displacement at address size 32 or 64: a disp8 is sign-extended and scaled by `n`, a disp32
is sign-extended (R57). -/
def dispValue (n : Nat) : Disp → Word
  | .none => 0
  | .d8 d => d.signExtend 64 * BitVec.ofNat 64 n
  | .d32 d => d.signExtend 64

/-- The scale of a disp8 at address size 16: 1 under VEX; open under EVEX (assumption log 3). -/
def disp8Scale16 (n : Nat) : Nat := if n = 1 then 1 else if Config.disp8Scaled16 then n else 1

/-- The displacement at address size 16 (R62). -/
def dispValue16 (n : Nat) : Disp16 → Word
  | .none => 0
  | .d8 d => d.signExtend 64 * BitVec.ofNat 64 (disp8Scale16 n)
  | .d16 d => d.signExtend 64

/-- `Index * 2^scale`, 0 without an index (R56, R60). -/
def indexValue (s : State) : Option Index → Word
  | none => 0
  | some i => s.gpr i.reg <<< i.scale.toNat

/-- The register combination of `rm` at address size 16: BX is register 3, BP 5, SI 6, DI 7 (R62). -/
def base16 (s : State) (rm : BitVec 3) : Word :=
  match rm.toNat with
  | 0 => s.gpr 3 + s.gpr 6
  | 1 => s.gpr 3 + s.gpr 7
  | 2 => s.gpr 5 + s.gpr 6
  | 3 => s.gpr 5 + s.gpr 7
  | 4 => s.gpr 6
  | 5 => s.gpr 7
  | 6 => s.gpr 5
  | _ => s.gpr 3

/-- The sum of R60 or R62 before it is cut to the address size; `len` is the instruction's length,
for RIP-relative addressing in M64. -/
def addressSum (s : State) (len n : Nat) : MemOp → Word
  | .base b d => s.gpr b + dispValue n d
  | .sib b i d => s.gpr b + indexValue s i + dispValue n d
  | .index i d => indexValue s i + d.signExtend 64
  | .disp32 d =>
    match s.mode with
    | .m64 => s.pc + BitVec.ofNat 64 len + d.signExtend 64
    | .m32 => d.signExtend 64
  | .a16 rm d => base16 s rm + dispValue16 n d
  | .abs16 d => d.signExtend 64

/-- The effective address: the sum modulo 2^A (R60). -/
def effectiveAddress (a : AddrSize) (s : State) (len n : Nat) (m : MemOp) : Nat :=
  (addressSum s len n m).toNat % 2 ^ addrBits a

/-! ### Segments (R20, R60, R62, R63) -/

/-- SS for a base register 4 or 5 (RSP, RBP), else DS. -/
def baseSeg (b : GReg) : Seg := if b = 4 ∨ b = 5 then .ss else .ds

/-- The default segment of an address. -/
def defaultSeg : MemOp → Seg
  | .base b _ => baseSeg b
  | .sib b _ _ => baseSeg b
  | .index _ _ => .ds
  | .disp32 _ => .ds
  | .a16 rm _ => if rm = 2 ∨ rm = 3 ∨ rm = 6 then .ss else .ds
  | .abs16 _ => .ds

/-- The segment a prefix overrides with: in M64 the overrides ES, CS, SS and DS are ignored (R63). -/
def overrideOf (m : Mode) : LegacyPrefix → Option Seg
  | .addrSize => none
  | .seg g => if m = .m64 ∧ g ≠ .fs ∧ g ≠ .gs then none else some g

/-- The segment of an operand: the last override that counts, else the default (R63). -/
def operandSeg (m : Mode) (pfx : List LegacyPrefix) (o : MemOp) : Seg :=
  ((pfx.filterMap (overrideOf m)).getLast?).getD (defaultSeg o)

/-- A memory operand of a form, resolved in a state. -/
def memRef (f : Form) (len : Nat) (pfx : List LegacyPrefix) (o : MemOp) (s : State) : MemRef where
  seg := operandSeg s.mode pfx o
  ea := effectiveAddress (addrSize s.mode pfx) s len (disp8Scale f) o
  asz := addrSize s.mode pfx

/-! ### The registers that an operand reads (R121) -/

/-- The register of an index. -/
def indexRegs : Option Index → List Reg
  | none => []
  | some i => [.gpr i.reg]

/-- The general registers that an address is formed from (R60, R62). -/
def addressRegs : MemOp → List Reg
  | .base b _ => [.gpr b]
  | .sib b i _ => .gpr b :: indexRegs i
  | .index i _ => indexRegs i
  | .disp32 _ => []
  | .a16 rm _ =>
    match rm.toNat with
    | 0 => [.gpr 3, .gpr 6]
    | 1 => [.gpr 3, .gpr 7]
    | 2 => [.gpr 5, .gpr 6]
    | 3 => [.gpr 5, .gpr 7]
    | 4 => [.gpr 6]
    | 5 => [.gpr 7]
    | 6 => [.gpr 5]
    | _ => [.gpr 3]
  | .abs16 _ => []

/-- The segment base that an address uses: in M64 that of FS and GS only (R20). -/
def segBaseRegs (m : Mode) (g : Seg) : List Reg :=
  if m = .m64 ∧ g ≠ .fs ∧ g ≠ .gs then [] else [.segBase g]

/-- What is read of operand 2 before memory is: the register, or what its address is formed from. -/
def sourceRegs (m : Mode) (pfx : List LegacyPrefix) : Operand 5 → List Reg
  | .reg n => [.vec n]
  | .mem o => addressRegs o ++ segBaseRegs m (operandSeg m pfx o)

/-- The opmask register of a writemask (R59). -/
def maskRegs (mask : Mask) : List Reg := if mask.aaa = 0 then [] else [.opmask mask.aaa]

/-! ### The writemask and the source -/

/-- Lane `j` is active: no writemask, or bit `j` of the selected opmask register is 1 (R93). -/
def active (s : State) (mask : Mask) (j : Nat) : Bool :=
  mask.aaa == 0 || (s.opmask mask.aaa).getLsbD j

/-- A VEX operand as an operand of the whole register file (R58). -/
def widen : Operand 4 → Operand 5
  | .reg n => .reg (n.setWidth 5)
  | .mem m => .mem m

/-- The low `16 * KL` bits of a value, as the packed source (R92). -/
def lowHalves (f : Form) (w : VWord) : Packed := packFields 16 (laneCount f) (fieldAt 16 w)

/-- Operand 2 of a form (R86 step 3): the low bits of a vector register, or a memory read that
checks the bytes of the active lanes. -/
def readSource (f : Form) (len : Nat) (pfx : List LegacyPrefix) (src : Operand 5) (mask : Mask)
    (s : State) : Host.Outcome Packed Fault Refusal :=
  match src with
  | .reg n => .next (lowHalves f (s.vreg n))
  | .mem m => memRead (memRef f len pfx m s) (memBytes f) (active s mask) s

end Sys2Proof.Machine
end

