-- ==== Sys2Proof/Machine/Vcvtph2ps.lean ====
section
/-!
DEFINITION. The meanings of the six rows (40_vcvtph2ps.md R87 to R91) over one common execution (R86).
-/

namespace Sys2Proof.Machine

/-- Lane `j` of the source: `SRC[16j+15:16j]` (R92). -/
def srcLane (bits : Packed) (j : Nat) : Half := fieldAt 16 bits j

/-- Some active lane's input is a signalling NaN (R86 step 4). -/
def anyInvalid (f : Form) (mask : Mask) (bits : Packed) (s : State) : Bool :=
  (List.range (laneCount f)).any (fun j =>
    active s mask j && (vCvtH2s s.plat.nanConv (srcLane bits j)).2)

/-- The new value of destination lane `j` (R86 step 6, R93): converted when active; else kept under
merging-masking and 0 under zeroing-masking. `old` is the destination before any write. -/
def destLane (mask : Mask) (bits : Packed) (old : VWord) (s : State) (j : Nat) : Single :=
  if active s mask j then (vCvtH2s s.plat.nanConv (srcLane bits j)).1
  else if mask.z then 0
  else fieldAt 32 old j

/-- The new destination register: the lanes of the form, and 0 in every bit above them (R94). -/
def destValue (f : Form) (mask : Mask) (bits : Packed) (old : VWord) (s : State) : VWord :=
  packFields 32 (laneCount f) (destLane mask bits old s)

/-- Steps 6 and 7 of R86: write the destination, advance `pc`. -/
def complete (f : Form) (len : Nat) (dst : BitVec 5) (mask : Mask) (bits : Packed) (s : State) :
    State :=
  (s.setVreg dst (destValue f mask bits (s.vreg dst) s)).advance len

/-- The old destination is read for the lanes that merging-masking keeps (R93, R121). -/
def keptRegs (f : Form) (dst : BitVec 5) (mask : Mask) (s : State) : List Reg :=
  if !mask.z && (List.range (laneCount f)).any (fun j => !active s mask j) then [.vec dst] else []

/-- What is read after operand 2 (R121): MXCSR when Invalid is signalled, and the old destination
where lanes are kept and no unmasked Invalid stops before. -/
def resultRegs (f : Form) (dst : BitVec 5) (mask : Mask) (sae : Bool) (bits : Packed) (s : State) :
    List Reg :=
  if anyInvalid f mask bits s && !sae then
    .mxcsr :: (if s.im then keptRegs f dst mask s else [])
  else keptRegs f dst mask s

/-- Steps 4 to 7 of R86 on the packed source: Invalid sets MXCSR.IE and, unmasked, raises its
exception with the destination and `pc` unchanged; `sae` suppresses both (R105). -/
def convertLanes (f : Form) (len : Nat) (dst : BitVec 5) (mask : Mask) (sae : Bool) (bits : Packed)
    (s : State) : Host.Outcome State Fault Refusal :=
  if anyInvalid f mask bits s && !sae then
    if s.im then .next (complete f len dst mask bits s.setIE)
    else raise (invalidException s) s.setIE
  else .next (complete f len dst mask bits s)

/-- The common execution order of R86, after decoding. A register that the launch state marks
unwritten is a model fault where it is read (R121). -/
def execForm (f : Form) (len : Nat) (pfx : List LegacyPrefix) (dst : BitVec 5) (src : Operand 5)
    (mask : Mask) (sae : Bool) (s : State) : Host.Outcome State Fault Refusal :=
  match recognised f s with
  | some x => raise x s
  | none =>
    andThen (requireWritten (maskRegs mask ++ sourceRegs s.mode pfx src) s) fun _ =>
    andThen (readSource f len pfx src mask s) fun bits =>
    andThen (requireWritten (resultRegs f dst mask sae bits s) s) fun _ =>
    convertLanes f len dst mask sae bits s

/-- VCVTPH2PS xmm1, xmm2/m64, VEX.128 (R87): no mask, no suppression. -/
def execVex128 (pfx : List LegacyPrefix) (dst : BitVec 4) (src : Operand 4) (s : State) :
    Host.Outcome State Fault Refusal :=
  execForm .vex128 (vexLen pfx src) pfx (dst.setWidth 5) (widen src) Mask.off false s

/-- VCVTPH2PS ymm1, xmm2/m128, VEX.256 (R88): no mask, no suppression. -/
def execVex256 (pfx : List LegacyPrefix) (dst : BitVec 4) (src : Operand 4) (s : State) :
    Host.Outcome State Fault Refusal :=
  execForm .vex256 (vexLen pfx src) pfx (dst.setWidth 5) (widen src) Mask.off false s

/-- VCVTPH2PS xmm1, xmm2/m64 with a writemask, EVEX.128 (R89). -/
def execEvex128 (pfx : List LegacyPrefix) (dst : BitVec 5) (src : Operand 5) (mask : Mask)
    (s : State) : Host.Outcome State Fault Refusal :=
  execForm .evex128 (evexLen pfx src) pfx dst src mask false s

/-- VCVTPH2PS ymm1, xmm2/m128 with a writemask, EVEX.256 (R90). -/
def execEvex256 (pfx : List LegacyPrefix) (dst : BitVec 5) (src : Operand 5) (mask : Mask)
    (s : State) : Host.Outcome State Fault Refusal :=
  execForm .evex256 (evexLen pfx src) pfx dst src mask false s

/-- VCVTPH2PS zmm1, ymm2/m256 with a writemask, EVEX.512 (R91). -/
def execEvex512 (pfx : List LegacyPrefix) (dst : BitVec 5) (src : Operand 5) (mask : Mask)
    (s : State) : Host.Outcome State Fault Refusal :=
  execForm .evex512 (evexLen pfx src) pfx dst src mask false s

/-- VCVTPH2PS zmm1, ymm2 with suppress-all-exceptions, EVEX.512 (R67, R91). -/
def execEvex512Sae (pfx : List LegacyPrefix) (dst : BitVec 5) (src : BitVec 5) (mask : Mask)
    (s : State) : Host.Outcome State Fault Refusal :=
  execForm .evex512 (evexLen pfx (.reg src)) pfx dst (.reg src) mask true s

end Sys2Proof.Machine
end

