-- ==== Sys2Proof/Machine/Dispatch.lean ====
section
/-! DEFINITION. One arm per constructor of `Instr`: the meaning it calls. -/

namespace Sys2Proof.Machine

def exec (i : Instr) (s : State) : Host.Outcome State Fault Refusal :=
  match i with
  | .vcvtph2psVex128 pfx dst src => Sys2Proof.Machine.execVex128 pfx dst src s
  | .vcvtph2psVex256 pfx dst src => Sys2Proof.Machine.execVex256 pfx dst src s
  | .vcvtph2psEvex128 pfx dst src mask => Sys2Proof.Machine.execEvex128 pfx dst src mask s
  | .vcvtph2psEvex256 pfx dst src mask => Sys2Proof.Machine.execEvex256 pfx dst src mask s
  | .vcvtph2psEvex512 pfx dst src mask => Sys2Proof.Machine.execEvex512 pfx dst src mask s
  | .vcvtph2psEvex512Sae pfx dst src mask => Sys2Proof.Machine.execEvex512Sae pfx dst src mask s

end Sys2Proof.Machine
end

