-- ==== Sys2Proof/Machine/Fetch.lean ====
section
/-!
DEFINITION. Fetching an instruction's bytes (10_state.md R21, 20_memory.md R38), the debug
exceptions around an instruction (60_exceptions.md R116), and the launch of a program (R121, R122).
-/

namespace Sys2Proof.Machine

/-! ### Fetch -/

/-- The offset in CS of the instruction's byte `b`: `pc + b` in the width of the mode (R17). -/
def fetchOffset (s : State) (b : Nat) : Nat :=
  match s.mode with
  | .m64 => (s.pc + BitVec.ofNat 64 b).toNat
  | .m32 => ((s.pc + BitVec.ofNat 64 b).setWidth 32).toNat

/-- The checks of a fetched byte: those of R38; none under `Policy.decisions` (D7). -/
def fetchCheck (s : State) (b : Nat) : Check :=
  match s.plat.policy with
  | .effects => checkByte .fetch s .cs (fetchOffset s b)
  | .decisions => .ok

/-- The byte `b` of the instruction. -/
def fetchByte (s : State) (b : Nat) : Byte := s.mem.read (linear s .cs (fetchOffset s b)).toNat

/-- `n` instruction bytes from byte `b` on, ending before the first that cannot be fetched. -/
def fetchFrom (s : State) : Nat → Nat → List Byte
  | 0, _ => []
  | n + 1, b =>
    if fetchCheck s b = .ok then
      fetchByte s b :: fetchFrom s n (b + 1)
    else []

/-- The number of offsets that `pc + b` runs through before it repeats, at most. -/
def offsetCount : Nat := 2 ^ 64

/-- The prefix bytes from byte `b` on, `n` at most, ending before the first that cannot be fetched. -/
def fetchPrefixes (s : State) : Nat → Nat → List Byte
  | 0, _ => []
  | n + 1, b =>
    if fetchCheck s b = .ok ∧ isPrefixByte s.mode (fetchByte s b) = true then
      fetchByte s b :: fetchPrefixes s n (b + 1)
    else []

/-- The most bytes that an encoding has after its legacy prefixes: EVEX prefix, opcode, ModRM, SIB and
a disp32 (R50). -/
def maxBody : Nat := 11

/-- The bytes at `pc` that decoding can need: the prefix bytes, as many as there are, and `maxBody`
bytes after them. -/
def fetchBytes (s : State) : List Byte :=
  fetchPrefixes s offsetCount 0 ++ fetchFrom s maxBody (fetchPrefixes s offsetCount 0).length

/-- The bytes at `pc` decoded. -/
def decodeAt (s : State) : Decoded := decode s.plat.policy s.mode (fetchBytes s)

/-- The instruction needs a byte beyond those fetched: the missing byte's fetch faults (R38). Where it
could be fetched, every offset holds a prefix byte, which is no instruction (R3). -/
def fetchFails (s : State) : Host.Outcome State Fault Refusal :=
  match fetchCheck s (fetchBytes s).length with
  | .exc x => raise x s
  | .refuse => .refused .deviceFetch
  | .ok => .refused (.encoding .otherInstruction)

/-! ### Debug exceptions (R116) -/

/-- The linear addresses of the operand bytes that a form reads. -/
def readAddrs (f : Form) (len : Nat) (pfx : List LegacyPrefix) (mask : Mask) (s : State) {w : Nat} :
    Operand w → List Word
  | .reg _ => []
  | .mem m =>
    (checkedBytes (memBytes f) (active s mask)).map
      (fun b => linear s (memRef f len pfx m s).seg ((memRef f len pfx m s).ea + b))

/-- The linear addresses of the data bytes that an instruction reads. -/
def dataAddrs (s : State) : Instr → List Word
  | .vcvtph2psVex128 pfx _ src => readAddrs .vex128 (vexLen pfx src) pfx Mask.off s src
  | .vcvtph2psVex256 pfx _ src => readAddrs .vex256 (vexLen pfx src) pfx Mask.off s src
  | .vcvtph2psEvex128 pfx _ src mask => readAddrs .evex128 (evexLen pfx src) pfx mask s src
  | .vcvtph2psEvex256 pfx _ src mask => readAddrs .evex256 (evexLen pfx src) pfx mask s src
  | .vcvtph2psEvex512 pfx _ src mask => readAddrs .evex512 (evexLen pfx src) pfx mask s src
  | .vcvtph2psEvex512Sae _ _ _ _ => []

/-- A breakpoint of this kind stands on this linear address. -/
def breakAt (s : State) (k : BpKind) (a : Word) : Bool :=
  s.dr.toList.any (fun d => d.kind == k && d.addr == a)

/-- `#DB` as a fault before the instruction: a breakpoint on its first byte. Not modelled under
`Policy.decisions` (D16). -/
def breaksBefore (s : State) : Bool :=
  s.plat.policy == .effects && breakAt s .exec (linear s .cs (fetchOffset s 0))

/-- `#DB` as a trap after the instruction: single-step, or a breakpoint on a byte its operand reads.
Not modelled under `Policy.decisions` (D16). -/
def trapsAfter (s : State) (i : Instr) : Bool :=
  s.plat.policy == .effects && (s.tf || (dataAddrs s i).any (breakAt s .readWrite))

/-- `#DB` before an instruction of the spec, in place of what it would do (assumption log 35). -/
def breakFirst (s : State) (o : Host.Outcome State Fault Refusal) :
    Host.Outcome State Fault Refusal :=
  if breaksBefore s then raise .db s else o

/-- Turn the completion of `i` from `s` into the debug trap where one is due. -/
def debugTrap (s : State) (i : Instr) (o : Host.Outcome State Fault Refusal) :
    Host.Outcome State Fault Refusal :=
  match o with
  | .next t => if trapsAfter s i then raise .db t else .next t
  | .fault r => .fault r
  | .refused r => .refused r

/-! ### Launch (R121, R122) -/

/-- What software outside the spec has done before VCVTPH2PS can run (R122): 64-bit mode with
CR0.PE = 1 and CR0.TS = 0, the feature flags, OSFXSR, OSXMMEXCPT and OSXSAVE, XCR0 with all the
state components of R19, no trap or breakpoint armed, a map that admits every address, and no register
marked unwritten. -/
def launch (s : State) : State :=
  { s with
    mode := .m64
    cr0 := (s.cr0 ||| 1) &&& ~~~(8 : Word)
    cr4 := s.cr4 ||| 0x40600
    xcr0 := s.xcr0 ||| 0xE7
    rflags := s.rflags &&& ~~~(0x20100 : Word)
    dr := Vector.replicate 4 ⟨.off, 0⟩
    cpuid := ⟨true, true, true⟩
    plat := { s.plat with policy := .effects, addressMap := [] }
    unwritten := [] }

/-- Store instruction bytes where the next fetch reads them. -/
def placeAtFetch (s : State) (bs : List Byte) : State :=
  { s with mem := s.mem.writeAll (linear s .cs (fetchOffset s 0)) bs }

end Sys2Proof.Machine
end

