-- ==== Sys2Proof/Machine/Step.lean ====
section
/-! DEFINITION. One step: fetch and decode at `pc`, execute, and the debug exceptions around it. -/

namespace Sys2Proof.Machine

/-- One step of the machine. The decoder's answers become the exceptions of R107 items 1 to 3 or a
refusal; a decoded instruction runs as `exec` gives it. -/
def step (s : State) : Host.Outcome State Fault Refusal :=
  match decodeAt s with
  | .instr i => breakFirst s (debugTrap s i (exec i s))
  | .invalid => breakFirst s (raise .ud s)
  | .tooLong => breakFirst s (raise .gp s)
  | .refused r => .refused (.encoding r)
  | .short => fetchFails s

/-- `s` launched (assumption log 21), with a table word's instruction where the next step fetches. -/
def State.withFetchWord (s : State) (nbits w : Nat) : State :=
  placeAtFetch (launch s) (tableBytes nbits w)

end Sys2Proof.Machine
end

