-- ==== Sys2Proof/WellFormed.lean ====
section
/-!
DEFINITION. Which terms of `Instr` are instructions of a mode: the constraints that the encoding
tables of 30_encoding.md put between fields. The decoder answers only these, and the encoder has
bytes for each of them.
-/

namespace Sys2Proof

/-- In M32 only registers 0 to 7 can be named (10_state.md R12, R16). -/
def regNamed {w : Nat} (m : Mode) (r : BitVec w) : Bool := m == .m64 || r.toNat < 8

/-- The index number 4 means no index (R60). -/
def indexWf (m : Mode) : Option Index → Bool
  | none => true
  | some i => i.reg != 4 && regNamed m i.reg

/-- The shapes that ModRM, SIB and the displacement can write at address size `a` (R56, R60, R62):
rm = 100b announces a SIB byte, and with mod = 00b the base field 101b (at size 16, rm = 110b)
announces a displacement without base. -/
def MemOp.wf (m : Mode) (a : AddrSize) : MemOp → Bool
  | .base b d => a != .a16 && regNamed m b && low3 b != 4 && !(d == .none && low3 b == 5)
  | .sib b i d => a != .a16 && regNamed m b && indexWf m i && !(d == .none && low3 b == 5)
  | .index i _ => a != .a16 && indexWf m i
  | .disp32 _ => a != .a16
  | .a16 rm d => a == .a16 && !(d == .none && rm == 6)
  | .abs16 _ => a == .a16

def Operand.wf {w : Nat} (m : Mode) (a : AddrSize) : Operand w → Bool
  | .reg n => regNamed m n
  | .mem o => o.wf m a

/-- z = 1 needs a writemask (R65 row f). -/
def Mask.wf (k : Mask) : Bool := !(k.z && k.aaa == 0)

/-- The operands of an instruction, without its length. -/
def Instr.operandsWf (m : Mode) : Instr → Bool
  | .vcvtph2psVex128 pfx dst src => regNamed m dst && src.wf m (addrSize m pfx)
  | .vcvtph2psVex256 pfx dst src => regNamed m dst && src.wf m (addrSize m pfx)
  | .vcvtph2psEvex128 pfx dst src k => regNamed m dst && src.wf m (addrSize m pfx) && k.wf
  | .vcvtph2psEvex256 pfx dst src k => regNamed m dst && src.wf m (addrSize m pfx) && k.wf
  | .vcvtph2psEvex512 pfx dst src k => regNamed m dst && src.wf m (addrSize m pfx) && k.wf
  | .vcvtph2psEvex512Sae _ dst src k => regNamed m dst && regNamed m src && k.wf

/-- What D3 leaves under `Policy.decisions`: no repeated prefix, no 16-bit address size. -/
def Instr.plainPrefixes (m : Mode) (i : Instr) : Bool :=
  !repeatedPrefix i.pfx && addrSize m i.pfx != .a16

/-- An instruction of mode `m` under a policy: operands that an encoding writes, at most 15 bytes
(R50), and under `Policy.decisions` no prefix that D3 refuses. -/
def Instr.wf (po : Policy) (m : Mode) (i : Instr) : Bool :=
  i.operandsWf m && decide (i.len ≤ maxLength) && (po == .effects || i.plainPrefixes m)

end Sys2Proof
end

