-- ==== Sys2Proof/Safety.lean ====
section
/-!
DEFINITION. The terms that claims use: the parts of an instruction, what its operand is, what the tables
make of its bytes, when it can be read, when Invalid is signalled, where `pc` goes on, and the invariant of the machine's states.
-/

namespace Sys2Proof

/-- The form of an instruction (30_encoding.md R68). -/
def Instr.form : Instr → Form
  | .vcvtph2psVex128 _ _ _ => .vex128
  | .vcvtph2psVex256 _ _ _ => .vex256
  | .vcvtph2psEvex128 _ _ _ _ => .evex128
  | .vcvtph2psEvex256 _ _ _ _ => .evex256
  | .vcvtph2psEvex512 _ _ _ _ => .evex512
  | .vcvtph2psEvex512Sae _ _ _ _ => .evex512

/-- The number of the destination register (R55). -/
def Instr.dest : Instr → BitVec 5
  | .vcvtph2psVex128 _ dst _ => dst.setWidth 5
  | .vcvtph2psVex256 _ dst _ => dst.setWidth 5
  | .vcvtph2psEvex128 _ dst _ _ => dst
  | .vcvtph2psEvex256 _ dst _ _ => dst
  | .vcvtph2psEvex512 _ dst _ _ => dst
  | .vcvtph2psEvex512Sae _ dst _ _ => dst

/-- Operand 2 (R55). -/
def Instr.source : Instr → Operand 5
  | .vcvtph2psVex128 _ _ src => Machine.widen src
  | .vcvtph2psVex256 _ _ src => Machine.widen src
  | .vcvtph2psEvex128 _ _ src _ => src
  | .vcvtph2psEvex256 _ _ src _ => src
  | .vcvtph2psEvex512 _ _ src _ => src
  | .vcvtph2psEvex512Sae _ _ src _ => .reg src

/-- The writemask; the VEX forms have none (R93). -/
def Instr.mask : Instr → Mask
  | .vcvtph2psVex128 _ _ _ => Mask.off
  | .vcvtph2psVex256 _ _ _ => Mask.off
  | .vcvtph2psEvex128 _ _ _ mask => mask
  | .vcvtph2psEvex256 _ _ _ mask => mask
  | .vcvtph2psEvex512 _ _ _ mask => mask
  | .vcvtph2psEvex512Sae _ _ _ mask => mask

/-- Suppress-all-exceptions is in force (R67). -/
def Instr.sae : Instr → Bool
  | .vcvtph2psVex128 _ _ _ => false
  | .vcvtph2psVex256 _ _ _ => false
  | .vcvtph2psEvex128 _ _ _ _ => false
  | .vcvtph2psEvex256 _ _ _ _ => false
  | .vcvtph2psEvex512 _ _ _ _ => false
  | .vcvtph2psEvex512Sae _ _ _ _ => true

/-- Operand 2 in memory as the tables of R56 to R62 print it, with the number of bytes after ModRM, from
`mod`, `rm`, the extension bits X and B (not inverted) and the five bytes after ModRM. `small` says that
the address size is 16. -/
def tableOperand (small x b : Bool) (md : BitVec 2) (rm : BitVec 3) (b0 b1 b2 b3 b4 : Byte) :
    MemOp × Nat :=
  let index : Option Index :=
    if x = false ∧ field b0 3 3 = 4 then none
    else some ⟨BitVec.ofBool x ++ field b0 3 3, field b0 6 2⟩
  let base : GReg := BitVec.ofBool b ++ (if rm = 4 then field b0 0 3 else rm)
  if small then
    if md = 0 then if rm = 6 then (.abs16 (b1 ++ b0), 2) else (.a16 rm .none, 0)
    else if md = 1 then (.a16 rm (.d8 b0), 1)
    else (.a16 rm (.d16 (b1 ++ b0)), 2)
  else if rm = 4 then
    if md = 0 then
      if field b0 0 3 = 5 then (.index index (b4 ++ b3 ++ b2 ++ b1), 5)
      else (.sib base index .none, 1)
    else if md = 1 then (.sib base index (.d8 b1), 2)
    else (.sib base index (.d32 (b4 ++ b3 ++ b2 ++ b1)), 5)
  else
    if md = 0 then if rm = 5 then (.disp32 (b3 ++ b2 ++ b1 ++ b0), 4) else (.base base .none, 0)
    else if md = 1 then (.base base (.d8 b0), 1)
    else (.base base (.d32 (b3 ++ b2 ++ b1 ++ b0)), 4)

end Sys2Proof

namespace Sys2Proof.Machine

/-- The number of lanes of an instruction (R92). -/
def lanes (i : Instr) : Nat := laneCount i.form

/-- Lane `j` of an instruction is active (R93). -/
def laneActive (i : Instr) (s : State) (j : Nat) : Bool := active s i.mask j

/-- An instruction's memory operand, resolved (R60). -/
def refOf (i : Instr) (o : MemOp) (s : State) : MemRef := memRef i.form i.len i.pfx o s

/-- The check of byte `b` of an instruction's memory operand (R35, R37). -/
def byteCheck (i : Instr) (o : MemOp) (s : State) (b : Nat) : Check :=
  checkByte .read s (refOf i o s).seg ((refOf i o s).ea + b)

/-- Byte `b` of an instruction's memory operand must be checked: its lane is active (R41). -/
def byteActive (i : Instr) (s : State) (b : Nat) : Bool := laneActive i s (b / 2)

/-- The memory operand lies inside the offset space: `ea + n - 1 < 2^A` (R35). -/
def Fits (i : Instr) (o : MemOp) (s : State) : Prop :=
  (refOf i o s).ea + 2 * lanes i ≤ 2 ^ addrBits (refOf i o s).asz

/-- The input of lane `j`: `SRC[16j+15:16j]` of a register, or the two bytes at `ea + 2j` and
`ea + 2j + 1`, the low byte first (R31, R92). -/
def sourceHalf (i : Instr) (s : State) (j : Nat) : Half :=
  match i.source with
  | .reg n => fieldAt 16 (s.vreg n) j
  | .mem o => operandByte (refOf i o s) s (2 * j + 1) ++ operandByte (refOf i o s) s (2 * j)

/-- Operand 2 can be read: a register always; a memory operand that fits the offset space and whose
active lanes' bytes all pass their checks (R35, R41). -/
def OperandReady (i : Instr) (s : State) : Prop :=
  match i.source with
  | .reg _ => True
  | .mem o => Fits i o s ∧ ∀ b < 2 * lanes i, byteActive i s b = true → byteCheck i o s b = .ok

/-- No register that operand 2 or the writemask is read from is marked unwritten (R121). -/
def OperandWritten (i : Instr) (s : State) : Prop :=
  ∀ r ∈ maskRegs i.mask ++ sourceRegs s.mode i.pfx i.source, r ∉ s.unwritten

/-- Some active lane's input is a signalling NaN (R105). -/
def Signals (i : Instr) (s : State) : Prop :=
  ∃ j < lanes i, laneActive i s j = true ∧ isSNaN16 (sourceHalf i s j) = true

/-- Some lane is inactive and kept: the old destination is read (R93). -/
def Keeps (i : Instr) (s : State) : Prop :=
  i.mask.z = false ∧ ∃ j < lanes i, laneActive i s j = false

/-- No register that an instruction reads is marked unwritten (R121): those of its operand and its
writemask, MXCSR where Invalid is signalled, the destination where a lane is kept. -/
def AllWritten (i : Instr) (s : State) : Prop :=
  OperandWritten i s ∧ (i.sae = false → Signals i s → Reg.mxcsr ∉ s.unwritten) ∧
    (Keeps i s → Reg.vec i.dest ∉ s.unwritten)

/-- Where `pc` goes after an instruction (R17, D9). -/
def nextPc (s : State) (i : Instr) : Nat :=
  match s.mode with
  | .m64 => (s.pc.toNat + i.len) % 2 ^ 64
  | .m32 => (s.pc.toNat + i.len) % 2 ^ 32

/-- The bytes of an instruction lie where the next fetch reads them, and can be fetched (R21, R38). -/
def Holds (s : State) (i : Instr) : Prop :=
  ∀ b < i.len, fetchCheck s b = .ok ∧
    (encode i)[b]? = some (fetchByte s b)

/-- What a completed execution leaves: `t` is `s` but for the destination register and its mark,
MXCSR.IE and `pc`; the other vector registers are kept, IE is set exactly when Invalid was signalled without
suppression, `pc` is past the instruction, and every byte of memory reads as before (R86, R95). -/
def Frame (i : Instr) (s t : State) : Prop :=
  (∀ r, r ≠ i.dest → t.vreg r = s.vreg r) ∧
  (i.sae = false → Signals i s → t.mxcsr = s.mxcsr ||| 1) ∧
  (i.sae = true ∨ ¬ Signals i s → t.mxcsr = s.mxcsr) ∧
  t.pc.toNat = nextPc s i ∧
  (∀ a, t.mem.read a = s.mem.read a) ∧
  t.unwritten = s.unwritten.filter (· != .vec i.dest) ∧
  t = { s with v := t.v, mxcsr := t.mxcsr, pc := t.pc, unwritten := t.unwritten }

/-- The forms of 10_state.md's registers and of memory, which every step keeps. -/
structure State.Inv (s : State) : Prop where
  /-- Memory is in canonical form. -/
  memory : s.mem.wf = true
  /-- In M32 `pc` is EIP, zero-extended (R17). -/
  eip : s.mode = .m32 → s.pc.toNat < 2 ^ 32
  /-- MXCSR bits 31:16 are reserved and read as 0 (R14). -/
  mxcsrReserved : s.mxcsr.extractLsb' 16 16 = 0
  /-- A vector register has MAX_VL bits (R10). -/
  vectorWidth : ∀ i, (s.vreg i).toNat < 2 ^ s.maxVL
  /-- Registers 16 to 31 exist only with AVX512F (R12). -/
  vectorCount : s.cpuid.avx512f = false → ∀ i : BitVec 5, 16 ≤ i.toNat → s.vreg i = 0
  /-- An opmask register has KW bits (R13). -/
  opmaskWidth : ∀ i, (s.opmask i).toNat < 2 ^ s.kw

end Sys2Proof.Machine
end

