-- ==== Sys2Proof/Certificates/Slice0/Obligations.lean ====
section
/-!
DEFINITION. The statements for the provers, from the numbered rules of spec/. Each docstring names
the rule it formalises, or says what of it is the model's own choice.
-/

open Sys2Proof Sys2Proof.Machine

/-! ### Encoding -/

/-- R50 to R63, R68: decoding the bytes of a well-formed instruction gives it back, under either
policy, in either mode, whatever follows. -/
def Obligations.DecodeOfEncode : Prop :=
  ∀ (po : Policy) (m : Mode) (i : Instr) (rest : List Byte),
    i.wf po m = true → decode po m (encode i ++ rest) = .instr i

/-- R64: what the decoder answers as an instruction is well-formed in the mode, lies in the bytes
given, and is read from its own bytes alone. -/
def Obligations.DecodedIsWellFormed : Prop :=
  ∀ (po : Policy) (m : Mode) (bytes : List Byte) (i : Instr),
    decode po m bytes = .instr i →
      i.wf po m = true ∧ i.len ≤ bytes.length ∧
        ∀ rest, decode po m (bytes.take i.len ++ rest) = .instr i

/-- R50, R52, R55 to R58, R60, R62, R68 rows 1 and 2, after any legacy prefixes, in at most 15 bytes.
The destination is R with ModRM.reg, a register source B with ModRM.rm, a memory source what
`tableOperand` writes out; the extension bits are stored inverted. In M32 the byte after C4h has 11b at
its top and B is ignored (R66 under `Policy.effects`, assumption log 1). -/
def Obligations.VexRowsDecode : Prop :=
  ∀ (m : Mode) (pre : List LegacyPrefix) (p1 modrm : Byte) (l : Bool) (b0 b1 b2 b3 b4 : Byte)
    (rest : List Byte), field p1 0 5 = 2 → (m = .m32 → field p1 6 2 = 3) →
    let r := !p1.getLsbD 7
    let x := !p1.getLsbD 6
    let b := m == .m64 && !p1.getLsbD 5
    let memory := tableOperand (m == .m32 && pre.contains .addrSize) x b (field modrm 6 2)
      (field modrm 0 3) b0 b1 b2 b3 b4
    let src : Operand 4 × Nat :=
      if field modrm 6 2 = 3 then (.reg (BitVec.ofBool b ++ field modrm 0 3), 0)
      else (.mem memory.1, memory.2)
    let i := (if l then Instr.vcvtph2psVex256 else Instr.vcvtph2psVex128) pre
      (BitVec.ofBool r ++ field modrm 3 3) src.1
    i.len = pre.length + 5 + src.2 ∧
    (pre.length + 5 + src.2 ≤ 15 →
      decode .effects m (pre.map LegacyPrefix.byte ++
        0xC4 :: p1 :: (if l then 0x7D else 0x79) :: 0x13 :: modrm :: b0 :: b1 :: b2 :: b3 :: b4
          :: rest) = .instr i)

/-- R50, R54 to R57, R59, R60, R62, R68 rows 3 to 5 (without suppression), after any legacy prefixes, in
at most 15 bytes. L'L selects the row; the destination is R' R ModRM.reg, a register source X B
ModRM.rm, a memory source what `tableOperand` writes out; the extension bits are stored inverted. In M32
the byte after 62h has 11b at its top, and B and R' are ignored (R66 under `Policy.effects`, assumption
log 1). -/
def Obligations.EvexRowsDecode : Prop :=
  ∀ (m : Mode) (pre : List LegacyPrefix) (p0 modrm : Byte) (z : Bool) (ll : BitVec 2) (aaa : BitVec 3)
    (b0 b1 b2 b3 b4 : Byte) (rest : List Byte),
    field p0 0 4 = 2 → (m = .m32 → field p0 6 2 = 3) → ll ≠ 3 → (z = true → aaa ≠ 0) →
    let r' := m == .m64 && !p0.getLsbD 4
    let r := !p0.getLsbD 7
    let x := !p0.getLsbD 6
    let b := m == .m64 && !p0.getLsbD 5
    let memory := tableOperand (m == .m32 && pre.contains .addrSize) x b (field modrm 6 2)
      (field modrm 0 3) b0 b1 b2 b3 b4
    let src : Operand 5 × Nat :=
      if field modrm 6 2 = 3 then
        (.reg (BitVec.ofBool x ++ BitVec.ofBool b ++ field modrm 0 3), 0)
      else (.mem memory.1, memory.2)
    let i := (if ll = 0 then Instr.vcvtph2psEvex128 else if ll = 1 then Instr.vcvtph2psEvex256
        else Instr.vcvtph2psEvex512) pre
      (BitVec.ofBool r' ++ BitVec.ofBool r ++ field modrm 3 3) src.1 ⟨aaa, z⟩
    i.len = pre.length + 6 + src.2 ∧
    (pre.length + 6 + src.2 ≤ 15 →
      decode .effects m (pre.map LegacyPrefix.byte ++
        0x62 :: p0 :: 0x7D :: (BitVec.ofBool z ++ ll ++ (1 : BitVec 2) ++ aaa) :: 0x13 :: modrm
          :: b0 :: b1 :: b2 :: b3 :: b4 :: rest) = .instr i)

/-- R67, R68 row 5s, in both modes and after legacy prefixes: with b = 1 and mod = 11b every L'L selects
EVEX.512 with suppress-all-exceptions (the spec's D13, assumption log 30). In M32 as in
`EvexRowsDecode` (assumption log 1). -/
def Obligations.SaeIgnoresVectorLength : Prop :=
  ∀ (m : Mode) (pre : List LegacyPrefix) (p0 : Byte) (reg rm : BitVec 3) (z : Bool) (ll : BitVec 2)
    (aaa : BitVec 3) (rest : List Byte),
    pre.length ≤ 9 → field p0 0 4 = 2 → (m = .m32 → field p0 6 2 = 3) → (z = true → aaa ≠ 0) →
    decode .effects m (pre.map LegacyPrefix.byte ++
        0x62 :: p0 :: 0x7D :: (BitVec.ofBool z ++ ll ++ (3 : BitVec 2) ++ aaa) :: 0x13
          :: ((3 : BitVec 2) ++ reg ++ rm) :: rest) =
      .instr (.vcvtph2psEvex512Sae pre
        (BitVec.ofBool (m == .m64 && !p0.getLsbD 4) ++ BitVec.ofBool (!p0.getLsbD 7) ++ reg)
        (BitVec.ofBool (!p0.getLsbD 6) ++ BitVec.ofBool (m == .m64 && !p0.getLsbD 5) ++ rm) ⟨aaa, z⟩)

/-- R65 rows a and b for the VEX forms, in both modes and after legacy prefixes: W = 1 or vvvv other
than 1111b is invalid. In M32 the top bit of vvvv is left out: R66 says that it is ignored there
(assumption log 34). The bound on the prefixes keeps every such encoding within 15 bytes. -/
def Obligations.VexReservedFieldsInvalid : Prop :=
  ∀ (m : Mode) (pre : List LegacyPrefix) (p1 p2 modrm : Byte) (rest : List Byte),
    field p1 0 5 = 2 → field p2 0 2 = 1 → (m = .m32 → field p1 6 2 = 3) → 5 ≤ rest.length →
    pre.length ≤ (if field modrm 6 2 = 3 then 10 else 5) →
    (p2.getLsbD 7 = true ∨ field p2 3 3 ≠ 7 ∨ (m = .m64 ∧ p2.getLsbD 6 = false)) →
    decode .effects m
      (pre.map LegacyPrefix.byte ++ 0xC4 :: p1 :: p2 :: 0x13 :: modrm :: rest) = .invalid

/-- R65 rows a to g for the EVEX forms, in both modes and after legacy prefixes (W and the reserved bits
by D19 and D27, assumption log 32). In M32 the top bit of vvvv and V' are left out: R66 says that they
are ignored there (assumption log 34 and 2). The bound on the prefixes keeps every such encoding within
15 bytes. -/
def Obligations.EvexReservedFieldsInvalid : Prop :=
  ∀ (m : Mode) (pre : List LegacyPrefix) (p0 p1 p2 modrm : Byte) (rest : List Byte),
    field p0 0 2 = 2 → field p1 0 2 = 1 → (m = .m32 → field p0 6 2 = 3) → 5 ≤ rest.length →
    pre.length ≤ (if field modrm 6 2 = 3 then 9 else 4) →
    (p1.getLsbD 7 = true ∨
      (field p1 3 3 ≠ 7 ∨ (m = .m64 ∧ p1.getLsbD 6 = false)) ∨
      (m = .m64 ∧ p2.getLsbD 3 = false) ∨
      (field p2 5 2 = 3 ∧ (p2.getLsbD 4 = false ∨ field modrm 6 2 ≠ 3)) ∨
      (p2.getLsbD 4 = true ∧ field modrm 6 2 ≠ 3) ∨
      (p2.getLsbD 7 = true ∧ field p2 0 3 = 0) ∨
      field p0 2 2 ≠ 0 ∨ p1.getLsbD 2 = false) →
    decode .effects m
      (pre.map LegacyPrefix.byte ++ 0x62 :: p0 :: p1 :: p2 :: 0x13 :: modrm :: rest) = .invalid

/-- R63, R65 row h: LOCK, 66h, F2h, F3h and in M64 a REX byte, before the VEX or EVEX prefix of an
instruction of at most 15 bytes with it, make it invalid, after and before any of its legacy prefixes
(anywhere among them: assumption log 19). -/
def Obligations.ForbiddenPrefixInvalid : Prop :=
  ∀ (m : Mode) (i : Instr) (n : Nat) (b : Byte) (rest : List Byte),
    i.wf .effects m = true → n ≤ i.pfx.length → 1 + i.len ≤ 15 →
    (b = 0xF0 ∨ b = 0x66 ∨ b = 0xF2 ∨ b = 0xF3 ∨ (m = .m64 ∧ 0x40 ≤ b.toNat ∧ b.toNat ≤ 0x4F)) →
    decode .effects m ((encode i).take n ++ b :: (encode i).drop n ++ rest) = .invalid

/-- R53: the two-byte VEX prefix C5h is not VCVTPH2PS, after any legacy prefixes. -/
def Obligations.TwoByteVexIsNotVcvtph2ps : Prop :=
  ∀ (po : Policy) (m : Mode) (pre : List LegacyPrefix) (rest : List Byte),
    decode po m (pre.map LegacyPrefix.byte ++ 0xC5 :: rest) = .refused .otherInstruction

/-- R66: in M32, C4h or 62h whose next byte does not have 11b at its top is not VCVTPH2PS. -/
def Obligations.M32LesAndBoundAreNotVcvtph2ps : Prop :=
  ∀ (po : Policy) (pre : List LegacyPrefix) (e p : Byte) (rest : List Byte),
    (e = 0xC4 ∨ e = 0x62) → field p 6 2 ≠ 3 →
    decode po .m32 (pre.map LegacyPrefix.byte ++ e :: p :: rest) = .refused .otherInstruction

/-- The model's reading of R62, R63 and R66 under D3 (assumption log 1): with `Policy.decisions` the
instructions with a repeated legacy prefix, with 67h in M32, or in M32 with an extension bit B, R' or V'
stored 0, are refused, each by its name. -/
def Obligations.DecisionsRefuse : Prop :=
  (∀ (m : Mode) (i : Instr) (rest : List Byte), i.wf .effects m = true →
    (repeatedPrefix i.pfx = true →
      decode .decisions m (encode i ++ rest) = .refused .repeatedPrefix) ∧
    (repeatedPrefix i.pfx = false → m = .m32 → .addrSize ∈ i.pfx →
      decode .decisions m (encode i ++ rest) = .refused .addressSize16)) ∧
  (∀ (pre : List LegacyPrefix) (p0 p1 p2 modrm : Byte) (rest : List Byte),
    repeatedPrefix pre = false → .addrSize ∉ pre → 5 ≤ rest.length →
    (field p1 6 2 = 3 → field p1 0 5 = 2 → field p2 0 2 = 1 → p1.getLsbD 5 = false →
      decode .decisions .m32
        (pre.map LegacyPrefix.byte ++ 0xC4 :: p1 :: p2 :: 0x13 :: modrm :: rest) =
          .refused .m32ExtensionBit) ∧
    (field p0 6 2 = 3 → field p0 0 2 = 2 → field p1 0 2 = 1 →
      (p0.getLsbD 5 = false ∨ p0.getLsbD 4 = false ∨ p2.getLsbD 3 = false) →
      decode .decisions .m32
        (pre.map LegacyPrefix.byte ++ 0x62 :: p0 :: p1 :: p2 :: 0x13 :: modrm :: rest) =
          .refused .m32ExtensionBit))

/-- R66 in M32 under `Policy.effects` (assumption log 1): B, and under EVEX R', are ignored: stored 0
they read as stored 1, whatever the bytes are. V' stored 0 either reads as 1 or is invalid (open,
assumption log 2). -/
def Obligations.IgnoredBitsInM32 : Prop :=
  ∀ (pre : List LegacyPrefix) (p p1 p2 : Byte) (rest : List Byte),
    (field p 6 2 = 3 →
      decode .effects .m32 (pre.map LegacyPrefix.byte ++ 0xC4 :: p :: rest) =
        decode .effects .m32 (pre.map LegacyPrefix.byte ++ 0xC4 :: (p ||| 0x20) :: rest)) ∧
    (field p 6 2 = 3 →
      decode .effects .m32 (pre.map LegacyPrefix.byte ++ 0x62 :: p :: rest) =
        decode .effects .m32 (pre.map LegacyPrefix.byte ++ 0x62 :: (p ||| 0x30) :: rest)) ∧
    (decode .effects .m32 (pre.map LegacyPrefix.byte ++ 0x62 :: p :: p1 :: p2 :: rest) =
        decode .effects .m32
          (pre.map LegacyPrefix.byte ++ 0x62 :: p :: p1 :: (p2 ||| 8) :: rest) ∨
      decode .effects .m32 (pre.map LegacyPrefix.byte ++ 0x62 :: p :: p1 :: p2 :: rest) = .invalid)

/-- Words written out from 30_encoding.md R57, R59, R61 and R67 decode to what the rules say. -/
def Obligations.WordsOfTheSpecDecode : Prop :=
  decode .effects .m64 [0x62, 0xF2, 0x7D, 0x48, 0x13, 0x48, 0x02] =
      .instr (.vcvtph2psEvex512 [] 1 (.mem (.base 0 (.d8 2))) ⟨0, false⟩) ∧
  decode .effects .m64 [0xC4, 0xE2, 0x79, 0x13, 0x48, 0x02] =
      .instr (.vcvtph2psVex128 [] 1 (.mem (.base 0 (.d8 2)))) ∧
  decode .effects .m64 [0x62, 0x82, 0x7D, 0x4B, 0x13, 0xCE] =
      .instr (.vcvtph2psEvex512 [] 17 (.reg 30) ⟨3, false⟩) ∧
  decode .effects .m64 [0xC4, 0x62, 0x7D, 0x13, 0x4C, 0x8B, 0x10] =
      .instr (.vcvtph2psVex256 [] 9 (.mem (.sib 3 (some ⟨1, 2⟩) (.d8 0x10)))) ∧
  decode .effects .m64 [0xC4, 0xE2, 0x79, 0x13, 0x1D, 0x00, 0x01, 0x00, 0x00] =
      .instr (.vcvtph2psVex128 [] 3 (.mem (.disp32 0x100))) ∧
  decode .effects .m64 [0x62, 0xF2, 0x7D, 0x18, 0x13, 0xCA] =
      .instr (.vcvtph2psEvex512Sae [] 1 2 ⟨0, false⟩)

/-! ### The step -/

/-- A step runs the decoded instruction; around it stand only the debug exceptions of R116. -/
def Obligations.StepRunsDecoded : Prop :=
  ∀ (s : State) (i : Instr), decodeAt s = .instr i → breaksBefore s = false →
    trapsAfter s i = false → step s = exec i s

/-- R21, R64: where the bytes of a well-formed instruction stand at `pc` and can be fetched, the step
is that instruction's execution. -/
def Obligations.StepRunsStoredInstruction : Prop :=
  ∀ (s : State) (i : Instr), i.wf s.plat.policy s.mode = true → Holds s i →
    breaksBefore s = false → trapsAfter s i = false → step s = exec i s

/-- R50, R107 item 2: an instruction of more than 15 bytes that can be fetched raises `#GP(0)`, and the
state is as it was (the order among the faults, and that all its bytes are fetched: assumption log 18).
One of more than 2^64 bytes has no place in memory. -/
def Obligations.TooLongStepFaults : Prop :=
  ∀ (s : State) (i : Instr), s.plat.policy = .effects → i.operandsWf s.mode = true →
    15 < i.len → i.len ≤ 2 ^ 64 → Holds s i → breaksBefore s = false →
    step s = .fault (.exception .gp s)

/-- R108 with the `#UD` of R65: an invalid encoding at `pc` faults and changes nothing. -/
def Obligations.InvalidEncodingStepFaults : Prop :=
  ∀ (s : State), decodeAt s = .invalid → breaksBefore s = false →
    step s = .fault (.exception .ud s)

/-- R38, R107 item 1: an instruction that needs a byte whose fetch faults raises that fault, which
records CR2 if it is a page fault (fetch faults exist under `Policy.effects`, assumption log 1). That it
does so also with an instruction breakpoint on its first byte, before R116's `#DB`, is no rule but the
model's choice (assumption log 35). -/
def Obligations.FetchFaultIsReported : Prop :=
  ∀ (s : State) (i : Instr) (b : Nat) (x : Exception),
    i.wf s.plat.policy s.mode = true → b < i.len →
    (∀ c < b, fetchCheck s c = .ok ∧ (encode i)[c]? = some (fetchByte s c)) →
    fetchCheck s b = .exc x →
    step s = .fault (.exception x (s.record x))

/-- R3 (a), R64: bytes at `pc` that are not VCVTPH2PS are refused, not faulted: whatever the decoder
refuses; and legacy prefixes, as many as there are, before a byte that is neither a prefix nor C4h nor
62h, whatever breakpoints are set (that no `#DB` comes first: assumption log 35). The decoder refuses
another map, pp or opcode. -/
def Obligations.OtherInstructionRefused : Prop :=
  (∀ (s : State) (r : DecodeRefusal), decodeAt s = .refused r → step s = .refused (.encoding r)) ∧
  (∀ (s : State) (pre : List LegacyPrefix) (b : Byte),
    pre.length < 2 ^ 64 →
    (∀ c < pre.length + 1, fetchCheck s c = .ok ∧
      (pre.map LegacyPrefix.byte ++ [b])[c]? = some (fetchByte s c)) →
    isPrefixByte s.mode b = false → b ≠ 0xC4 → b ≠ 0x62 →
    step s = .refused (.encoding .otherInstruction)) ∧
  (∀ (po : Policy) (m : Mode) (pre : List LegacyPrefix) (p0 p1 p2 op : Byte) (rest : List Byte),
    (field p1 0 5 ≠ 2 ∨ field p2 0 2 ≠ 1 ∨ op ≠ 0x13 →
      decode po m (pre.map LegacyPrefix.byte ++ 0xC4 :: p1 :: p2 :: op :: rest) =
        .refused .otherInstruction) ∧
    (field p0 0 2 ≠ 2 ∨ field p1 0 2 ≠ 1 ∨ op ≠ 0x13 →
      decode po m (pre.map LegacyPrefix.byte ++ 0x62 :: p0 :: p1 :: p2 :: op :: rest) =
        .refused .otherInstruction))

/-- R116 under `Policy.effects` (assumption log 1): an instruction breakpoint on the first byte of an
instruction raises `#DB` before it, with the state as it was. -/
def Obligations.InstructionBreakpointFaults : Prop :=
  ∀ (s : State) (i : Instr), s.plat.policy = .effects → decodeAt s = .instr i →
    (∃ d ∈ s.dr.toList, d.kind = .exec ∧ d.addr = linear s .cs (fetchOffset s 0)) →
    step s = .fault (.exception .db s)

/-- R116 under `Policy.effects`: an instruction that would complete with single-step on, or having
read a byte with a read/write breakpoint (byte `b` of a memory operand, where its lane is active), ends
in `#DB` with its effects in the state (the policy is assumption log 1, the place of TF log 15, the bytes
that count and the order log 35). With neither, and no instruction breakpoint on its first byte, the step
is the execution. -/
def Obligations.DebugTrapFollowsCompletion : Prop :=
  ∀ (s : State) (i : Instr), s.plat.policy = .effects → decodeAt s = .instr i →
    (∀ d ∈ s.dr.toList, d.kind = .exec → d.addr ≠ linear s .cs (fetchOffset s 0)) →
    let watched := ∃ d ∈ s.dr.toList, d.kind = .readWrite ∧ ∃ o b, i.source = .mem o ∧
      b < 2 * lanes i ∧ byteActive i s b = true ∧
      d.addr = linear s (refOf i o s).seg ((refOf i o s).ea + b)
    ((s.rflags.getLsbD 8 = true ∨ watched) →
      ∀ t, exec i s = .next t → step s = .fault (.exception .db t)) ∧
    (s.rflags.getLsbD 8 = false → ¬ watched → step s = exec i s)

/-- The model's launch (assumption log 21): a table word that decodes is what the next step runs. -/
def Obligations.LaunchedWordRuns : Prop :=
  ∀ (nbits w : Nat) (i : Instr), nbits ≤ 120 → decodeTableWord nbits w = some i →
    step (State.reset.withFetchWord nbits w) = exec i (State.reset.withFetchWord nbits w)

/-! ### Results -/

/-- R87: VEX.128. With the form enabled, CR0.TS = 0, the operand readable, nothing that is read marked
unwritten, and Invalid masked or not signalled, the instruction completes: the four lanes of the
source's listing, zeros above, and the frame. -/
def Obligations.Vex128Result : Prop :=
  ∀ (pfx : List LegacyPrefix) (dst : BitVec 4) (src : Operand 4) (s : State),
    let i := Instr.vcvtph2psVex128 pfx dst src
    enabled .vex128 s = true → s.ts = false → OperandReady i s → AllWritten i s →
    (s.im = true ∨ ¬ Signals i s) →
    ∃ t, exec i s = .next t ∧
      (t.vreg i.dest).extractLsb' 0 32 = (vCvtH2s s.plat.nanConv (sourceHalf i s 0)).1 ∧
      (t.vreg i.dest).extractLsb' 32 32 = (vCvtH2s s.plat.nanConv (sourceHalf i s 1)).1 ∧
      (t.vreg i.dest).extractLsb' 64 32 = (vCvtH2s s.plat.nanConv (sourceHalf i s 2)).1 ∧
      (t.vreg i.dest).extractLsb' 96 32 = (vCvtH2s s.plat.nanConv (sourceHalf i s 3)).1 ∧
      (t.vreg i.dest).extractLsb' 128 384 = 0 ∧
      Frame i s t

/-- R88: VEX.256, as R87 with eight lanes. -/
def Obligations.Vex256Result : Prop :=
  ∀ (pfx : List LegacyPrefix) (dst : BitVec 4) (src : Operand 4) (s : State),
    let i := Instr.vcvtph2psVex256 pfx dst src
    enabled .vex256 s = true → s.ts = false → OperandReady i s → AllWritten i s →
    (s.im = true ∨ ¬ Signals i s) →
    ∃ t, exec i s = .next t ∧
      (∀ j < 8, (t.vreg i.dest).extractLsb' (32 * j) 32 =
        (vCvtH2s s.plat.nanConv (sourceHalf i s j)).1) ∧
      (t.vreg i.dest).extractLsb' 256 256 = 0 ∧
      Frame i s t

/-- R89 to R93: the EVEX forms without suppression, with 4, 8 and 16 lanes. An active lane is
converted, an inactive one kept under merging-masking and 0 under zeroing-masking, with zeros above
the form's lanes. -/
def Obligations.EvexResults : Prop :=
  ∀ (pfx : List LegacyPrefix) (dst : BitVec 5) (src : Operand 5) (mask : Mask) (s : State)
    (i : Instr) (n : Nat),
    (i = .vcvtph2psEvex128 pfx dst src mask ∧ n = 4 ∨ i = .vcvtph2psEvex256 pfx dst src mask ∧ n = 8 ∨
      i = .vcvtph2psEvex512 pfx dst src mask ∧ n = 16) →
    enabled i.form s = true → s.ts = false → OperandReady i s → AllWritten i s →
    (s.im = true ∨ ¬ Signals i s) →
    ∃ t, exec i s = .next t ∧
      (∀ j < n, (t.vreg dst).extractLsb' (32 * j) 32 =
        if mask.aaa = 0 ∨ (s.opmask mask.aaa).getLsbD j = true then
          (vCvtH2s s.plat.nanConv (sourceHalf i s j)).1
        else if mask.z then 0 else (s.vreg dst).extractLsb' (32 * j) 32) ∧
      (t.vreg dst).toNat < 2 ^ (32 * n) ∧
      Frame i s t

/-- R91 with R105: EVEX.512 with suppress-all-exceptions completes whatever the lanes hold and
whatever MXCSR.IM is, and leaves MXCSR. -/
def Obligations.SaeResult : Prop :=
  ∀ (pfx : List LegacyPrefix) (dst src : BitVec 5) (mask : Mask) (s : State),
    let i := Instr.vcvtph2psEvex512Sae pfx dst src mask
    enabled .evex512 s = true → s.ts = false → AllWritten i s →
    ∃ t, exec i s = .next t ∧
      (∀ j < 16, (t.vreg dst).extractLsb' (32 * j) 32 =
        if mask.aaa = 0 ∨ (s.opmask mask.aaa).getLsbD j = true then
          (vCvtH2s s.plat.nanConv ((s.vreg src).extractLsb' (16 * j) 16)).1
        else if mask.z then 0 else (s.vreg dst).extractLsb' (32 * j) 32) ∧
      t.mxcsr = s.mxcsr ∧
      Frame i s t

/-- R94: above the form's vector length every bit of the destination is 0 after every form. -/
def Obligations.UpperBitsZeroed : Prop :=
  ∀ (i : Instr) (s t : State), exec i s = .next t →
    ∀ n, (match i.form with
          | .vex128 => 128 | .vex256 => 256 | .evex128 => 128 | .evex256 => 256
          | .evex512 => 512) ≤ n →
      (t.vreg i.dest).getLsbD n = false

/-! ### The conversion -/

/-- R82: the result is numerically equal to every finite input and has its sign (a zero's too), whatever
is done with NaNs, and an infinity becomes the infinity of its sign; neither signals Invalid, whatever
`nanConv` is configured. -/
def Obligations.ConversionExact : Prop :=
  ∀ (nan : Half → Single) (c : List (Half × Single)) (h : Half),
    (halfExp h ≠ 31 → singleValue (convertWith nan h) = halfValue h * 2 ^ 125 ∧
      (convertWith nan h).getLsbD 31 = h.getLsbD 15) ∧
    (halfExp h = 31 → halfFrac h = 0 →
      convertWith nan h = if h.getLsbD 15 then 0xFF800000 else 0x7F800000) ∧
    (isNaN16 h = false → vCvtH2s c h = (convertWith nan h, false))

/-- R83. Whatever `nanConv` is configured (R4), a NaN becomes a quiet NaN of its sign, and signals
Invalid exactly when it is a signalling NaN (the properties named by the spec's D12). With R83's own
value, `[]`: a quiet NaN keeps its payload, a signalling NaN is quieted with its payload kept, and
FFC00000h comes from FE00h alone (the spec's D12, assumption log 29). -/
def Obligations.NanInputs : Prop :=
  ∀ (c : List (Half × Single)) (h : Half),
    (isNaN16 h = true →
      isQNaN32 (vCvtH2s c h).1 = true ∧ (vCvtH2s c h).1.getLsbD 31 = h.getLsbD 15 ∧
        (vCvtH2s c h).2 = !h.getLsbD 9) ∧
    (isNaN16 h = true → h.getLsbD 9 = true →
      vCvtH2s [] h =
        (h.extractLsb' 15 1 ++ (0xFF : BitVec 8) ++ (h.extractLsb' 0 10 ++ (0 : BitVec 13)), false)) ∧
    (isNaN16 h = true → h.getLsbD 9 = false →
      vCvtH2s [] h = (h.extractLsb' 15 1 ++ (0xFF : BitVec 8) ++
        ((h.extractLsb' 0 10 ++ (0 : BitVec 13)) ||| 0x400000), true)) ∧
    ((vCvtH2s [] h).1 = 0xFFC00000 → h = 0xFE00)

/-- R84, whole. (a) A denormal input becomes the equal normal single, with E in 103 to 112, and
signals nothing; (b, c) DAZ (bit 6) and DM (bit 8) are not consulted: with either flipped the execution
ends alike, completed or faulted, and keeps it flipped; (c) DE (bit 1) is never set. -/
def Obligations.DenormalInputs : Prop :=
  (∀ (c : List (Half × Single)) (h : Half), isDenormal16 h = true →
    103 ≤ (singleExp (vCvtH2s c h).1).toNat ∧ (singleExp (vCvtH2s c h).1).toNat ≤ 112 ∧
      singleValue (vCvtH2s c h).1 = halfValue h * 2 ^ 125 ∧ (vCvtH2s c h).2 = false) ∧
  (∀ (i : Instr) (s t : State) (x : Exception) (m : BitVec 32), (m = 0x40 ∨ m = 0x100) →
    (exec i s = .next t → exec i { s with mxcsr := s.mxcsr ^^^ m } =
      .next { t with mxcsr := t.mxcsr ^^^ m }) ∧
    (exec i s = .fault (.exception x t) → exec i { s with mxcsr := s.mxcsr ^^^ m } =
      .fault (.exception x { t with mxcsr := t.mxcsr ^^^ m }))) ∧
  (∀ (i : Instr) (s t : State) (x : Exception),
    (exec i s = .next t ∨ exec i s = .fault (.exception x t)) →
      t.mxcsr.getLsbD 1 = s.mxcsr.getLsbD 1)

/-- R85: the conversion is injective on inputs that are not NaNs, whatever `nanConv` is configured; and
with R83's own value a NaN and the NaN with the other quiet bit (where it is one) have one result. -/
def Obligations.ConversionInjective : Prop :=
  (∀ (c : List (Half × Single)) (g h : Half), isNaN16 g = false → isNaN16 h = false →
    (vCvtH2s c g).1 = (vCvtH2s c h).1 → g = h) ∧
  (∀ h : Half, isNaN16 h = true → isNaN16 (h ^^^ 0x200) = true →
    (vCvtH2s [] h).1 = (vCvtH2s [] (h ^^^ 0x200)).1)

/-! ### Invalid and MXCSR -/

/-- R105: an unmasked Invalid of a form without suppression writes no lane and does not move `pc`;
it sets MXCSR.IE (D11, assumption log 28) and raises `#XM`, or `#UD` when CR4.OSXMMEXCPT = 0. -/
def Obligations.UnmaskedInvalidFaults : Prop :=
  ∀ (i : Instr) (s : State), i.sae = false → enabled i.form s = true → s.ts = false →
    OperandReady i s → OperandWritten i s → .mxcsr ∉ s.unwritten → Signals i s →
    s.mxcsr.getLsbD 7 = false →
    exec i s = .fault (.exception (if s.cr4.getLsbD 10 then .xm else .ud)
      { s with mxcsr := s.mxcsr ||| 1 })

/-- R84, R85: of MXCSR only IM is read. With any other MXCSR of the same IM, the instruction completes
with the same registers and `pc`, and leaves every MXCSR bit but IE as it is there. -/
def Obligations.OnlyMaskBitOfMxcsrRead : Prop :=
  ∀ (i : Instr) (s t : State) (m : BitVec 32), m.getLsbD 7 = s.mxcsr.getLsbD 7 →
    exec i s = .next t →
    ∃ m', exec i { s with mxcsr := m } = .next { t with mxcsr := m' } ∧ (m' = m ∨ m' = m ||| 1)

/-! ### Exceptions -/

/-- R101 d to h: without an enabling condition the form raises `#UD` before anything is read. R19 with
R4: with all of them the form is enabled. -/
def Obligations.NotEnabledRaisesInvalidOpcode : Prop :=
  (∀ (i : Instr) (s : State),
    (s.cr0.getLsbD 0 = false ∨ s.rflags.getLsbD 17 = true ∨ s.cr4.getLsbD 18 = false ∨
      s.xcr0.extractLsb' 1 2 ≠ 3 ∨
      (i.form ≠ .vex128 ∧ i.form ≠ .vex256 ∧ s.xcr0.extractLsb' 5 3 ≠ 7) ∨
      ((i.form = .vex128 ∨ i.form = .vex256) ∧ s.cpuid.f16c = false) ∨
      (i.form ≠ .vex128 ∧ i.form ≠ .vex256 ∧ s.cpuid.avx512f = false) ∨
      ((i.form = .evex128 ∨ i.form = .evex256) ∧ s.cpuid.avx512vl = false)) →
    exec i s = .fault (.exception .ud s)) ∧
  (∀ (f : Form) (s : State),
    s.cr0.getLsbD 0 = true → s.rflags.getLsbD 17 = false → s.cr4.getLsbD 18 = true →
    s.xcr0.extractLsb' 1 2 = 3 →
    (f ≠ .vex128 → f ≠ .vex256 → s.xcr0.extractLsb' 5 3 = 7 ∧ s.cpuid.avx512f = true) →
    (f = .vex128 ∨ f = .vex256 → s.cpuid.f16c = true) →
    (f = .evex128 ∨ f = .evex256 → s.cpuid.avx512vl = true) →
    enabled f s = true)

/-- R102: `#NM` is raised when CR0.TS = 1 after the `#UD` checks of R101 a to h have passed (the
enabling conditions; an encoding that is invalid raises `#UD`) and before any operand is read, whatever
the operand is; with CR0.TS = 0 no step raises it. -/
def Obligations.DeviceNotAvailable : Prop :=
  (∀ (i : Instr) (s : State), enabled i.form s = true → s.cr0.getLsbD 3 = true →
    exec i s = .fault (.exception .nm s)) ∧
  (∀ (i : Instr) (s : State), enabled i.form s = false →
    exec i s = .fault (.exception .ud s)) ∧
  (∀ (s t : State), decodeAt s = .invalid → step s ≠ .fault (.exception .nm t)) ∧
  (∀ s t : State, s.cr0.getLsbD 3 = false → step s ≠ .fault (.exception .nm t))

/-- R106: `#AC` is never raised (for the EVEX forms the spec's D5, assumption log 27). -/
def Obligations.AlignmentCheckNeverRaised : Prop :=
  ∀ s t : State, step s ≠ .fault (.exception .ac t)

/-- R95, R108: a faulting execution leaves the state as it was, but for MXCSR.IE in the unmasked
Invalid case. A page fault records its address in CR2, outside that list (assumption log 16), and may
advance the model's own count of draws (assumption log 4). -/
def Obligations.FaultWriteSet : Prop :=
  ∀ (i : Instr) (s t : State) (x : Exception), exec i s = .fault (.exception x t) →
    t = s ∨
    (t = { s with mxcsr := s.mxcsr ||| 1 } ∧ (x = .xm ∨ x = .ud) ∧ Signals i s ∧ i.sae = false) ∨
    (∃ code addr, x = .pf code addr ∧
      (t = { s with cr2 := addr } ∨ t = { s with cr2 := addr, draws := s.draws + 1 }))

/-- R107 item 5 with R103: when the lowest-addressed byte of an active lane that fails its check gives
`#SS` or `#GP`, that is raised and nothing changes, whatever the data holds. -/
def Obligations.LowestSegmentFaultReported : Prop :=
  ∀ (i : Instr) (s : State) (o : MemOp) (b : Nat) (x : Exception),
    i.source = .mem o → enabled i.form s = true → s.ts = false → OperandWritten i s → Fits i o s →
    b < 2 * lanes i → byteActive i s b = true → byteCheck i o s b = .exc x → (x = .ss ∨ x = .gp) →
    (∀ c < b, byteActive i s c = true → byteCheck i o s c = .ok) →
    exec i s = .fault (.exception x s)

/-- R104, R107: when that byte page-faults, a page fault of a byte of an active lane is raised; it is
that byte's own, with CR2 alone changed, when all the page-faulting bytes lie in its 4 KiB page (the
page's size is assumption log 5; which byte is reported otherwise is open, assumption log 4). -/
def Obligations.PageFaultReported : Prop :=
  ∀ (i : Instr) (s : State) (o : MemOp) (b : Nat) (code : BitVec 32) (addr : Word),
    i.source = .mem o → enabled i.form s = true → s.ts = false → OperandWritten i s → Fits i o s →
    b < 2 * lanes i → byteActive i s b = true → byteCheck i o s b = .exc (.pf code addr) →
    (∀ c < b, byteActive i s c = true → byteCheck i o s c = .ok) →
    (∃ c code' addr' t, c < 2 * lanes i ∧ byteActive i s c = true ∧
      byteCheck i o s c = .exc (.pf code' addr') ∧
      exec i s = .fault (.exception (.pf code' addr') t) ∧ t.cr2 = addr' ∧
      t.mxcsr = s.mxcsr ∧ t.v = s.v ∧ t.pc = s.pc) ∧
    ((∀ c code' addr', c < 2 * lanes i → byteActive i s c = true →
        byteCheck i o s c = .exc (.pf code' addr') → addr' >>> 12 = addr >>> 12) →
      exec i s = .fault (.exception (.pf code addr) { s with cr2 := addr }))

/-- R35, D26: an operand whose last byte lies beyond the offset space is refused, by name. -/
def Obligations.WrappingOperandRefused : Prop :=
  ∀ (i : Instr) (s : State) (o : MemOp), i.source = .mem o → enabled i.form s = true →
    s.ts = false → OperandWritten i s →
    2 ^ addrBits (refOf i o s).asz ≤ (refOf i o s).ea + 2 * lanes i - 1 →
    exec i s = .refused .operandWraps

/-- R33, R36: a byte that the platform's map refuses (a read there has side effects) is refused by
name: of an operand, when it is the first byte of an active lane that is not admitted; of an
instruction, when it is the first that cannot be fetched (a fetch: assumption log 40; with an
instruction breakpoint on the first byte too: the model's choice, assumption log 35). -/
def Obligations.DeviceByteRefused : Prop :=
  (∀ (i : Instr) (s : State) (o : MemOp) (b : Nat),
    i.source = .mem o → enabled i.form s = true → s.ts = false → OperandWritten i s → Fits i o s →
    b < 2 * lanes i → byteActive i s b = true →
    segmentFault .read s (refOf i o s).seg ((refOf i o s).ea + b)
      (linear s (refOf i o s).seg ((refOf i o s).ea + b)) = none →
    admitAt s.plat.addressMap (linear s (refOf i o s).seg ((refOf i o s).ea + b)) = .refused →
    (∀ c < b, byteActive i s c = true → byteCheck i o s c = .ok) →
    exec i s = .refused .deviceOperand) ∧
  (∀ (i : Instr) (s : State) (b : Nat),
    s.plat.policy = .effects → i.wf .effects s.mode = true → b < i.len →
    (∀ c < b, fetchCheck s c = .ok ∧ (encode i)[c]? = some (fetchByte s c)) →
    segmentFault .fetch s .cs (fetchOffset s b) (linear s .cs (fetchOffset s b)) = none →
    admitAt s.plat.addressMap (linear s .cs (fetchOffset s b)) = .refused →
    step s = .refused .deviceFetch)

/-- R121: reading a register that the launch state marks unwritten is a model fault, which changes
nothing. Before memory is read: the source register, the selected opmask register, a general register
or segment base of the address. After it: MXCSR when Invalid is signalled, and the destination when a
lane below the vector length is kept. No other register gives one. -/
def Obligations.UnwrittenReadFaults : Prop :=
  (∀ (i : Instr) (s : State) (r : Reg), enabled i.form s = true → s.ts = false → r ∈ s.unwritten →
    ((∃ n, i.source = .reg n ∧ r = .vec n) ∨
      (i.mask.aaa ≠ 0 ∧ r = .opmask i.mask.aaa) ∨
      (∃ b d, i.source = .mem (.base b d) ∧ r = .gpr b) ∨
      (∃ b ix d, i.source = .mem (.sib b ix d) ∧
        (r = .gpr b ∨ ∃ x, ix = some x ∧ r = .gpr x.reg)) ∨
      (∃ x d, i.source = .mem (.index (some x) d) ∧ r = .gpr x.reg) ∨
      (∃ rm d, i.source = .mem (.a16 rm d) ∧
        (r = .gpr 3 ∧ (rm = 0 ∨ rm = 1 ∨ rm = 7) ∨ r = .gpr 5 ∧ (rm = 2 ∨ rm = 3 ∨ rm = 6) ∨
          r = .gpr 6 ∧ (rm = 0 ∨ rm = 2 ∨ rm = 4) ∨ r = .gpr 7 ∧ (rm = 1 ∨ rm = 3 ∨ rm = 5))) ∨
      (∃ o g, i.source = .mem o ∧ (refOf i o s).seg = g ∧ r = .segBase g ∧
        (s.mode = .m32 ∨ g = .fs ∨ g = .gs))) →
    ∃ q ∈ s.unwritten, exec i s = .fault (.unwritten q s)) ∧
  (∀ (i : Instr) (s : State), enabled i.form s = true → s.ts = false → OperandReady i s →
    OperandWritten i s →
    (i.sae = false → Signals i s → .mxcsr ∈ s.unwritten →
      exec i s = .fault (.unwritten .mxcsr s)) ∧
    ((i.sae = true ∨ ¬ Signals i s ∨ (.mxcsr ∉ s.unwritten ∧ s.im = true)) → Keeps i s →
      .vec i.dest ∈ s.unwritten → exec i s = .fault (.unwritten (.vec i.dest) s))) ∧
  (∀ (i : Instr) (s t : State) (r : Reg), exec i s = .fault (.unwritten r t) →
    t = s ∧ r ∈ s.unwritten)

/-- R41 (D18, assumption log 31): the bytes of inactive lanes are not checked. Under another address
map that gives the active lanes' bytes the same answers, the instruction completes alike. -/
def Obligations.InactiveBytesNotChecked : Prop :=
  ∀ (i : Instr) (s t : State) (o : MemOp) (rs : List Region),
    i.source = .mem o →
    (∀ b < 2 * lanes i, byteActive i s b = true →
      byteCheck i o { s with plat := { s.plat with addressMap := rs } } b = byteCheck i o s b) →
    exec i s = .next t →
    exec i { s with plat := { s.plat with addressMap := rs } } =
      .next { t with plat := { s.plat with addressMap := rs } }

/-- R41: with every mask bit of the lanes 0, an operand that fits the offset space cannot fault. -/
def Obligations.AllZeroMaskCompletes : Prop :=
  ∀ (i : Instr) (s : State) (o : MemOp), i.source = .mem o → enabled i.form s = true →
    s.ts = false → AllWritten i s → Fits i o s → (∀ j < lanes i, laneActive i s j = false) →
    ∃ t, exec i s = .next t ∧ t.mxcsr = s.mxcsr ∧
      ∀ j < lanes i, (t.vreg i.dest).extractLsb' (32 * j) 32 =
        if i.mask.z then 0 else (s.vreg i.dest).extractLsb' (32 * j) 32

/-! ### Memory and addresses -/

/-- R31: of `SRC = MemRead(seg, ea, n)`, byte `b` is at `ea + b`, and lane `j` is the little-endian
value of the bytes at `ea + 2j` and `ea + 2j + 1`. -/
def Obligations.LanesInMemory : Prop :=
  ∀ (r : MemRef) (n : Nat) (s : State) (bits : Packed), n ≤ 32 →
    memRead r n (fun _ => true) s = .next bits →
    (∀ b < n, bits.extractLsb' (8 * b) 8 = s.mem.read (linear s r.seg (r.ea + b)).toNat) ∧
    (∀ j, 2 * j + 1 < n → bits.extractLsb' (16 * j) 16 =
      s.mem.read (linear s r.seg (r.ea + (2 * j + 1))).toNat ++
        s.mem.read (linear s r.seg (r.ea + 2 * j)).toNat)

/-- R20, R35: the linear address. In M64 the offset plus the base of FS or GS, and the offset alone
for any other segment, modulo 2^64; in M32 the low 32 bits of the segment's base plus the offset,
modulo 2^32. -/
def Obligations.LinearAddress : Prop :=
  ∀ (s : State) (seg : Seg) (off : Nat),
    (s.mode = .m64 → (linear s seg off).toNat =
      ((match seg with
        | .fs => s.segs.fs.base.toNat
        | .gs => s.segs.gs.base.toNat
        | .es => 0 | .cs => 0 | .ss => 0 | .ds => 0) + off) % 2 ^ 64) ∧
    (s.mode = .m32 → (linear s seg off).toNat =
      ((match seg with
        | .es => s.segs.es.base.toNat
        | .cs => s.segs.cs.base.toNat
        | .ss => s.segs.ss.base.toNat
        | .ds => s.segs.ds.base.toNat
        | .fs => s.segs.fs.base.toNat
        | .gs => s.segs.gs.base.toNat) % 2 ^ 32 + off) % 2 ^ 32)

/-- R57, R60 at address size 64 or 32: base, scaled index and displacement as integers, cut modulo
2^A, for an operand with a base, with a SIB byte with or without index, and with a SIB byte without
base. A disp8 is signed and scaled by N, a disp32 signed and never scaled. -/
def Obligations.EffectiveAddressAtWideSizes : Prop :=
  ∀ (i : Instr) (s : State) (o : MemOp), i.source = .mem o → (s.mode = .m32 → .addrSize ∉ i.pfx) →
    let n : Int := match i.form with
      | .vex128 => 1 | .vex256 => 1 | .evex128 => 8 | .evex256 => 16 | .evex512 => 32
    let a : Nat := if s.mode = .m64 ∧ .addrSize ∉ i.pfx then 64 else 32
    let disp : Disp → Int := fun d => match d with
      | .none => 0 | .d8 v => v.toInt * n | .d32 v => v.toInt
    let index : Option Index → Int := fun ix => match ix with
      | none => 0 | some x => (s.gpr x.reg).toNat * 2 ^ x.scale.toNat
    (∀ b d, o = .base b d → ((refOf i o s).ea : Int) = ((s.gpr b).toNat + disp d) % 2 ^ a) ∧
    (∀ b ix d, o = .sib b ix d →
      ((refOf i o s).ea : Int) = ((s.gpr b).toNat + index ix + disp d) % 2 ^ a) ∧
    (∀ ix d, o = .index ix d → ((refOf i o s).ea : Int) = (index ix + d.toInt) % 2 ^ a)

/-- R60: mod = 00b, rm = 101b is relative to the next instruction in M64 (cut to 32 bits with 67h) and
absolute in M32. -/
def Obligations.EffectiveAddressOfDisp32 : Prop :=
  ∀ (i : Instr) (s : State) (d : BitVec 32), i.source = .mem (.disp32 d) →
    (s.mode = .m64 → ((refOf i (.disp32 d) s).ea : Int) =
      (s.pc.toNat + i.len + d.toInt) % 2 ^ (if .addrSize ∈ i.pfx then 32 else 64)) ∧
    (s.mode = .m32 → .addrSize ∉ i.pfx → ((refOf i (.disp32 d) s).ea : Int) = d.toInt % 2 ^ 32)

/-- R62 at address size 16 (M32 with 67h): the register combination of `rm` plus the signed
displacement, or the disp16 alone, modulo 2^16. A disp8 of an EVEX form is scaled by N or not (open,
assumption log 3). -/
def Obligations.EffectiveAddressAtSize16 : Prop :=
  ∀ (i : Instr) (s : State) (o : MemOp), i.source = .mem o → s.mode = .m32 → .addrSize ∈ i.pfx →
    (∀ d, o = .abs16 d → ((refOf i o s).ea : Int) = d.toInt % 2 ^ 16) ∧
    (∀ rm d, o = .a16 rm d → ∃ n : Int,
      (n = 1 ∨ n = match i.form with
        | .vex128 => 1 | .vex256 => 1 | .evex128 => 8 | .evex256 => 16 | .evex512 => 32) ∧
      ((refOf i o s).ea : Int) =
        ((match rm.toNat with
          | 0 => (s.gpr 3).toNat + (s.gpr 6).toNat
          | 1 => (s.gpr 3).toNat + (s.gpr 7).toNat
          | 2 => (s.gpr 5).toNat + (s.gpr 6).toNat
          | 3 => (s.gpr 5).toNat + (s.gpr 7).toNat
          | 4 => (s.gpr 6).toNat
          | 5 => (s.gpr 7).toNat
          | 6 => (s.gpr 5).toNat
          | _ => (s.gpr 3).toNat) +
        (match d with
          | .none => 0
          | .d8 v => v.toInt * n
          | .d16 v => v.toInt)) % 2 ^ 16)

/-- R63: the last segment override wins; in M64 only FS and GS count. -/
def Obligations.LastOverrideWins : Prop :=
  ∀ (i : Instr) (s : State) (pre post : List LegacyPrefix) (g : Seg) (o : MemOp),
    i.pfx = pre ++ .seg g :: post → (s.mode = .m64 → g = .fs ∨ g = .gs) →
    (∀ h, .seg h ∈ post → s.mode = .m64 ∧ h ≠ .fs ∧ h ≠ .gs) →
    (refOf i o s).seg = g

/-- R20, R60, R62, R63: without an override that counts (none, or in M64 only ES, CS, SS and DS) the
segment is the default: SS for base register 4 or 5, and for the three BP forms of address size 16;
DS for any other base, and where there is none. -/
def Obligations.DefaultSegment : Prop :=
  ∀ (i : Instr) (s : State) (o : MemOp),
    (∀ h, .seg h ∈ i.pfx → s.mode = .m64 ∧ h ≠ .fs ∧ h ≠ .gs) →
    (∀ b d, o = .base b d → (refOf i o s).seg = if b = 4 ∨ b = 5 then .ss else .ds) ∧
    (∀ b ix d, o = .sib b ix d → (refOf i o s).seg = if b = 4 ∨ b = 5 then .ss else .ds) ∧
    (∀ ix d, o = .index ix d → (refOf i o s).seg = .ds) ∧
    (∀ d, o = .disp32 d → (refOf i o s).seg = .ds) ∧
    (∀ rm d, o = .a16 rm d →
      (refOf i o s).seg = if rm = 2 ∨ rm = 3 ∨ rm = 6 then .ss else .ds) ∧
    (∀ d, o = .abs16 d → (refOf i o s).seg = .ds)

/-- R37 item 1, R103, with 48-bit and with 57-bit linear addresses: in M64 a byte whose linear address
does not have bits 63:47 (63:56) all equal raises `#SS(0)` in SS and `#GP(0)` in any other segment; for
any other byte the platform's map decides. -/
def Obligations.NonCanonicalFaults : Prop :=
  ∀ (acc : Access) (s : State) (seg : Seg) (off : Nat), s.mode = .m64 →
    let low := if s.plat.la57 then 56 else 47
    let a := linear s seg off
    ((∃ n, low ≤ n ∧ n < 63 ∧ a.getLsbD n ≠ a.getLsbD 63) →
      checkByte acc s seg off = .exc (if seg = .ss then .ss else .gp)) ∧
    ((∀ n, low ≤ n → n < 63 → a.getLsbD n = a.getLsbD 63) →
      checkByte acc s seg off = admitCheck acc s a)

/-- R37 item 2, R38, R103 in M32: an offset beyond the limit raises `#SS(0)` in SS and `#GP(0)` in any
other segment; a null selector or an unreadable segment raises `#GP(0)` on a read, in SS `#SS(0)` or
`#GP(0)` (open between R37 and R103, assumption log 24); a fetch checks the limit alone; for any other
byte the platform's map decides. -/
def Obligations.SegmentChecksInM32 : Prop :=
  ∀ (s : State) (seg : Seg) (off : Nat), s.mode = .m32 →
    let g := s.segs.get seg
    ((g.readable = true ∧ g.null = false) → g.limit.toNat < off →
      checkByte .read s seg off = .exc (if seg = .ss then .ss else .gp)) ∧
    ((g.readable = false ∨ g.null = true) → seg ≠ .ss → checkByte .read s seg off = .exc .gp) ∧
    ((g.readable = false ∨ g.null = true) → seg = .ss →
      checkByte .read s seg off = .exc .ss ∨ checkByte .read s seg off = .exc .gp) ∧
    ((g.readable = true ∧ g.null = false) → off ≤ g.limit.toNat →
      checkByte .read s seg off = admitCheck .read s (linear s seg off)) ∧
    (seg = .cs → g.limit.toNat < off → checkByte .fetch s seg off = .exc .gp) ∧
    (seg = .cs → off ≤ g.limit.toNat →
      checkByte .fetch s seg off = admitCheck .fetch s (linear s seg off))

/-- R36, R37 item 3, R38, R104: what the platform's map makes of a byte inside its segment. A byte of
ordinary memory is admitted; an exception that the map gives is raised on a read; a supervisor page
admits an access below CPL 3; at CPL 3, and always when the page is not present or a reserved bit is
set, the access page-faults with the byte's linear address and the code: P for a page that is present,
W/R 0, U/S at CPL 3, RSVD for a reserved bit, I/D for a fetch, and 0 above. -/
def Obligations.MapAnswers : Prop :=
  ∀ (acc : Access) (s : State) (seg : Seg) (off : Nat),
    segmentFault acc s seg off (linear s seg off) = none →
    let a := linear s seg off
    (admitAt s.plat.addressMap a = .ok → checkByte acc s seg off = .ok) ∧
    (acc = .read →
      (admitAt s.plat.addressMap a = .fault .ss → checkByte acc s seg off = .exc .ss) ∧
      (admitAt s.plat.addressMap a = .fault .gp → checkByte acc s seg off = .exc .gp) ∧
      (∀ code, admitAt s.plat.addressMap a = .fault (.pf code) →
        checkByte acc s seg off = .exc (.pf code a))) ∧
    (∀ why, admitAt s.plat.addressMap a = .page why →
      (why = .supervisor → s.cpl ≠ 3 → checkByte acc s seg off = .ok) ∧
      ((why = .supervisor → s.cpl = 3) →
        ∃ code, checkByte acc s seg off = .exc (.pf code a) ∧
          code.getLsbD 0 = (why != .notPresent) ∧ code.getLsbD 1 = false ∧
          code.getLsbD 2 = (s.cpl == 3) ∧ code.getLsbD 3 = (why == .reservedBit) ∧
          code.getLsbD 4 = (acc == .fetch) ∧ code.extractLsb' 5 27 = 0))

/-! ### What is not read -/

/-- R95, R112, with a register source: general registers, segments, memory, the privilege level and
the platform but for `nanConv` are not read. With any others the instruction completes alike and keeps
them. -/
def Obligations.RegisterFormReadsNoMemory : Prop :=
  ∀ (i : Instr) (s t : State) (n : BitVec 5) (x : Vector Word 16) (segs : SegFile) (mem : Memory)
    (cpl : BitVec 2) (plat : Platform),
    i.source = .reg n → plat.nanConv = s.plat.nanConv → exec i s = .next t →
    exec i { s with x := x, segs := segs, mem := mem, cpl := cpl, plat := plat } =
      .next { t with x := x, segs := segs, mem := mem, cpl := cpl, plat := plat }

/-- R13: mask bits KL and above are not read, nor any opmask register but the selected one. -/
def Obligations.HighMaskBitsNotRead : Prop :=
  ∀ (i : Instr) (s t : State) (k : Vector Word 8),
    (∀ j < lanes i, laneActive i { s with k := k } j = laneActive i s j) →
    exec i s = .next t → exec i { s with k := k } = .next { t with k := k }

/-! ### Invariants -/

/-- R95, R15: whatever a step does when it goes on, it changes at most one vector register, which is
unwritten no more (R121), sets at most MXCSR.IE, moves `pc` past the instruction it decoded, and leaves
all else. -/
def Obligations.StepWriteSet : Prop :=
  ∀ s t : State, step s = .next t →
    ∃ i, decodeAt s = .instr i ∧ (∀ r, r ≠ i.dest → t.vreg r = s.vreg r) ∧
      (t.mxcsr = s.mxcsr ∨ (t.mxcsr = s.mxcsr ||| 1 ∧ Signals i s ∧ i.sae = false)) ∧
      t.pc.toNat = nextPc s i ∧ (∀ a, t.mem.read a = s.mem.read a) ∧
      t.unwritten = s.unwritten.filter (· != .vec i.dest) ∧
      t = { s with v := t.v, mxcsr := t.mxcsr, pc := t.pc, unwritten := t.unwritten }

/-- R10, R12 to R14, R17: every step keeps the forms of the registers and of memory. -/
def Obligations.StepKeepsInvariant : Prop :=
  ∀ s t : State, s.Inv → step s = .next t → t.Inv

/-- The state after reset meets the invariant. -/
def Obligations.ResetMeetsInvariant : Prop := State.reset.Inv

/-- R23, R120: the reset values that the spec gives (vector and opmask registers 0, MXCSR 1F80h, the
general registers other than RDX 0, the reset vector, CR0.PE, CR4.OSXSAVE and CR4.OSXMMEXCPT 0, XCR0
1), and no form is enabled: every instruction raises `#UD`. -/
def Obligations.ResetValues : Prop :=
  (∀ r, State.reset.vreg r = 0) ∧ (∀ r, State.reset.opmask r = 0) ∧
  State.reset.mxcsr = 0x1F80 ∧ (∀ r, r ≠ 2 → State.reset.gpr r = 0) ∧
  (linear State.reset .cs (fetchOffset State.reset 0)).toNat = 0xFFFFFFF0 ∧
  State.reset.pe = false ∧ State.reset.osxsave = false ∧ State.reset.osxmmexcpt = false ∧
  State.reset.xcr0 = 1 ∧ (∀ f, enabled f State.reset = false) ∧
  (∀ i, exec i State.reset = .fault (.exception .ud State.reset))
end

