-- ==== Sys2Proof/Laws/Decode.lean ====
section
/-!
SUPPORT. The small lemmas of the decoder and the encoder: the fields of the bytes the encoder
writes, the prefixes read back, and the operand read back.
-/

namespace Sys2Proof

/-! ### Fields of the bytes written -/

theorem field_modrm_mod (a : BitVec 2) (b c : BitVec 3) : field (a ++ b ++ c) 6 2 = a := by
  revert a b c; decide +kernel

theorem field_modrm_reg (a : BitVec 2) (b c : BitVec 3) : field (a ++ b ++ c) 3 3 = b := by
  revert a b c; decide +kernel

theorem field_modrm_rm (a : BitVec 2) (b c : BitVec 3) : field (a ++ b ++ c) 0 3 = c := by
  revert a b c; decide +kernel

theorem word32_bytes32 (d : BitVec 32) :
    word32 (d.extractLsb' 0 8) (d.extractLsb' 8 8) (d.extractLsb' 16 8) (d.extractLsb' 24 8) = d := by
  apply BitVec.eq_of_getLsbD_eq
  intro i hi
  simp only [word32, BitVec.getLsbD_append, BitVec.getLsbD_extractLsb']
  by_cases h1 : i < 8
  · simp [h1]
  · by_cases h2 : i - 8 < 8
    · have : 8 + (i - 8) = i := by omega
      simp [h1, h2, this]
    · by_cases h3 : i - 8 - 8 < 8
      · have : 16 + (i - 8 - 8) = i := by omega
        simp [h1, h2, h3, this]
      · have : 24 + (i - 8 - 8 - 8) = i := by omega
        have h4 : i - 8 - 8 - 8 < 8 := by omega
        simp [h1, h2, h3, h4, this]

theorem readD32_bytes32 (d : BitVec 32) (rest : List Byte) :
    readD32 (bytes32 d ++ rest) = some d := by
  simp [bytes32, readD32, word32_bytes32]

theorem readD16_bytes16 (d : BitVec 16) (rest : List Byte) :
    readD16 (bytes16 d ++ rest) = some d := by
  simp only [bytes16, readD16, List.cons_append, List.nil_append, Option.some.injEq]
  apply BitVec.eq_of_getLsbD_eq
  intro i hi
  simp only [BitVec.getLsbD_append, BitVec.getLsbD_extractLsb']
  by_cases h1 : i < 8
  · simp [h1]
  · have : 8 + (i - 8) = i := by omega
    have h2 : i - 8 < 8 := by omega
    simp [h1, h2, this]

/-- A 4-bit register number is put together from its extension bit and its low bits. -/
theorem extend3_low3 (r : BitVec 4) : extend3 (r.getLsbD 3) (low3 r) = r := by
  revert r; decide +kernel

/-- A 5-bit register number is put together from its two extension bits and its low bits. -/
theorem extend4_low3 (r : BitVec 5) :
    BitVec.ofBool (r.getLsbD 4) ++ extend3 (r.getLsbD 3) (low3 r) = r := by
  revert r; decide +kernel

/-- A register number below 8 has no extension bits. -/
theorem regNamed_m32 {w : Nat} {r : BitVec w} (h : regNamed .m32 r = true) :
    r.getLsbD 3 = false ∧ r.getLsbD 4 = false := by
  have h8 : r.toNat < 8 := by simpa [regNamed] using h
  simp [BitVec.getLsbD, Nat.testBit_lt_two_pow (show r.toNat < 2 ^ 3 by omega),
    Nat.testBit_lt_two_pow (show r.toNat < 2 ^ 4 by omega)]

/-! ### Prefixes -/

theorem legacyOf_byte (p : LegacyPrefix) : legacyOf p.byte = some p := by
  cases p with
  | addrSize => rfl
  | seg s => cases s <;> rfl

theorem legacyOf_eq_some {b : Byte} {p : LegacyPrefix} (h : legacyOf b = some p) : p.byte = b := by
  revert b p
  intro b p
  unfold legacyOf
  repeat' split
  all_goals intro h; simp_all
  all_goals subst h; rfl

theorem isBadPrefix_byte (m : Mode) (p : LegacyPrefix) : isBadPrefix m p.byte = false := by
  cases p with
  | addrSize => cases m <;> rfl
  | seg s => cases m <;> cases s <;> rfl

/-- The prefixes written are read back, up to the byte after them. -/
theorem splitPrefixes_map (m : Mode) (pfx : List LegacyPrefix) (b : Byte) (rest : List Byte)
    (hb : isPrefixByte m b = false) :
    splitPrefixes m (pfx.map LegacyPrefix.byte ++ b :: rest) =
      (pfx.map LegacyPrefix.byte, b :: rest) := by
  induction pfx with
  | nil => simp [splitPrefixes, hb]
  | cons p ps ih =>
    have : isPrefixByte m p.byte = true := by simp [isPrefixByte, legacyOf_byte]
    simp [splitPrefixes, this, ih]

theorem filterMap_legacyOf (pfx : List LegacyPrefix) :
    (pfx.map LegacyPrefix.byte).filterMap legacyOf = pfx := by
  induction pfx with
  | nil => rfl
  | cons p ps ih => simp [legacyOf_byte, ih]

theorem any_isBadPrefix (m : Mode) (pfx : List LegacyPrefix) :
    (pfx.map LegacyPrefix.byte).any (isBadPrefix m) = false := by
  induction pfx with
  | nil => rfl
  | cons p ps ih => simp [isBadPrefix_byte]

/-! ### Operands -/

theorem readDisp_bytes (d : Disp) (rest : List Byte) :
    readDisp d.mod (d.bytes ++ rest) = some d := by
  cases d with
  | none => rfl
  | d8 d => rfl
  | d32 d => simp [readDisp, Disp.mod, Disp.bytes, readD32_bytes32]

theorem readDisp16_bytes (d : Disp16) (rest : List Byte) :
    readDisp16 d.mod (d.bytes ++ rest) = some d := by
  cases d with
  | none => rfl
  | d8 d => rfl
  | d16 d => simp [readDisp16, Disp16.mod, Disp16.bytes, readD16_bytes16]

theorem Disp.mod_eq_zero {d : Disp} : d.mod = 0 ↔ d = .none := by cases d <;> simp [Disp.mod]

theorem Disp16.mod_eq_zero {d : Disp16} : d.mod = 0 ↔ d = .none := by cases d <;> simp [Disp16.mod]

theorem Disp.mod_ne_three (d : Disp) : d.mod ≠ 3 := by cases d <;> simp [Disp.mod]

theorem Disp16.mod_ne_three (d : Disp16) : d.mod ≠ 3 := by cases d <;> simp [Disp16.mod]

/-- A memory operand never has mod = 11b. -/
theorem MemOp.mod_ne_three (o : MemOp) : o.tail.mod ≠ 3 := by
  cases o with
  | base b d => exact d.mod_ne_three
  | sib b i d => exact d.mod_ne_three
  | index i d => exact (by decide : (0 : BitVec 2) ≠ 3)
  | disp32 d => exact (by decide : (0 : BitVec 2) ≠ 3)
  | a16 rm d => exact d.mod_ne_three
  | abs16 d => exact (by decide : (0 : BitVec 2) ≠ 3)

theorem field_sib_scale (i : Option Index) (b : BitVec 3) :
    field (sibByte i b) 6 2 = (indexBits i).1 := field_modrm_mod _ _ _

theorem field_sib_index (i : Option Index) (b : BitVec 3) :
    field (sibByte i b) 3 3 = (indexBits i).2.1 := field_modrm_reg _ _ _

theorem field_sib_base (i : Option Index) (b : BitVec 3) : field (sibByte i b) 0 3 = b :=
  field_modrm_rm _ _ _

theorem readIndex_sibByte {m : Mode} {i : Option Index} (h : indexWf m i = true) (b : BitVec 3) :
    readIndex (indexBits i).2.2 (sibByte i b) = i := by
  cases i with
  | none =>
    simp only [readIndex, field_sib_index, indexBits]
    rfl
  | some i =>
    have h4 : i.reg ≠ 4 := by
      simp only [indexWf, Bool.and_eq_true, bne_iff_ne] at h
      exact h.1
    simp only [readIndex, field_sib_index, field_sib_scale, indexBits, extend3_low3, if_neg h4]

/-- mod = 00b with a special base field is excluded by well-formedness. -/
theorem Disp.not_bare {d : Disp} {r : BitVec 3} {n : BitVec 3}
    (h : (!(d == .none && r == n)) = true) : ¬ (d.mod = 0 ∧ r = n) := by
  rintro ⟨e, rfl⟩
  rw [Disp.mod_eq_zero] at e
  subst e
  simp at h

theorem Disp16.not_bare {d : Disp16} {r : BitVec 3} {n : BitVec 3}
    (h : (!(d == .none && r == n)) = true) : ¬ (d.mod = 0 ∧ r = n) := by
  rintro ⟨e, rfl⟩
  rw [Disp16.mod_eq_zero] at e
  subst e
  simp at h

/-- At address size 32 or 64 the two shapes of reading agree. -/
theorem readMem_wide {a : AddrSize} (ha : a ≠ .a16) (x b : Bool) (mod : BitVec 2) (rm : BitVec 3)
    (bytes : List Byte) : readMem a x b mod rm bytes = readMem .a64 x b mod rm bytes := by
  cases a with
  | a64 => rfl
  | a32 => rfl
  | a16 => exact absurd rfl ha

/-- The memory operand written is read back. -/
theorem readMem_tail {m : Mode} {a : AddrSize} {o : MemOp} (h : o.wf m a = true)
    (rest : List Byte) :
    readMem a o.tail.x o.tail.b o.tail.mod o.tail.rm (o.tail.rest ++ rest) = some o := by
  cases o with
  | base b d =>
    simp only [MemOp.wf, Bool.and_eq_true, bne_iff_ne] at h
    obtain ⟨⟨⟨ha, _⟩, h4⟩, h5⟩ := h
    rw [readMem_wide ha]
    simp only [readMem, MemOp.tail, if_neg h4, if_neg (Disp.not_bare h5), readDisp_bytes,
      extend3_low3, Option.map_some]
  | sib b i d =>
    simp only [MemOp.wf, Bool.and_eq_true, bne_iff_ne] at h
    obtain ⟨⟨⟨ha, _⟩, hi⟩, h5⟩ := h
    rw [readMem_wide ha]
    simp only [readMem, MemOp.tail, if_true, List.cons_append, readSib, field_sib_base,
      if_neg (Disp.not_bare h5), readDisp_bytes, extend3_low3, readIndex_sibByte hi,
      Option.map_some]
  | index i d =>
    simp only [MemOp.wf, Bool.and_eq_true, bne_iff_ne] at h
    rw [readMem_wide h.1]
    simp only [readMem, MemOp.tail, if_true, List.cons_append, readSib, field_sib_base, and_self,
      readD32_bytes32, readIndex_sibByte h.2, Option.map_some]
  | disp32 d =>
    simp only [MemOp.wf, bne_iff_ne] at h
    rw [readMem_wide h]
    simp [readMem, MemOp.tail, readD32_bytes32]
  | a16 rm d =>
    simp only [MemOp.wf, Bool.and_eq_true, beq_iff_eq] at h
    obtain ⟨rfl, h6⟩ := h
    simp only [readMem, MemOp.tail, if_neg (Disp16.not_bare h6), readDisp16_bytes, Option.map_some]
  | abs16 d =>
    simp only [MemOp.wf, beq_iff_eq] at h
    subst h
    simp [readMem, MemOp.tail, readD16_bytes16]

/-- The length of an instruction is the length of its encoding. -/
theorem encode_length (i : Instr) : (encode i).length = i.len := by
  cases i <;>
    simp only [encode, encodeVex, encodeEvex, Instr.len, vexLen, evexLen, List.length_append,
      List.length_map, List.length_cons, List.length_nil]

/-- At most a SIB byte and a disp32 follow ModRM. -/
theorem MemOp.rest_length (o : MemOp) : o.tail.rest.length ≤ 5 := by
  cases o with
  | base b d => cases d <;> simp [MemOp.tail, Disp.bytes, bytes32]
  | sib b i d => cases d <;> simp [MemOp.tail, Disp.bytes, bytes32]
  | index i d => simp [MemOp.tail, bytes32]
  | disp32 d => simp [MemOp.tail, bytes32]
  | a16 rm d => cases d <;> simp [MemOp.tail, Disp16.bytes, bytes16]
  | abs16 d => simp [MemOp.tail, bytes16]

theorem Operand.rest_length {w : Nat} (o : Operand w) : o.tail.rest.length ≤ 5 := by
  cases o with
  | reg n => simp [Operand.tail]
  | mem o => exact o.rest_length

/-- An encoding is its legacy prefixes, then C4h or 62h, then at most ten bytes. -/
theorem encode_split (i : Instr) : ∃ x body, encode i = i.pfx.map LegacyPrefix.byte ++ x :: body ∧
    (x = 0xC4 ∨ x = 0x62) ∧ body.length ≤ 10 := by
  cases i with
  | vcvtph2psVex128 pfx dst src =>
    have := src.rest_length
    exact ⟨_, _, List.append_assoc .., .inl rfl, by simpa using by omega⟩
  | vcvtph2psVex256 pfx dst src =>
    have := src.rest_length
    exact ⟨_, _, List.append_assoc .., .inl rfl, by simpa using by omega⟩
  | vcvtph2psEvex128 pfx dst src mask =>
    have := src.rest_length
    exact ⟨_, _, List.append_assoc .., .inr rfl, by simpa using by omega⟩
  | vcvtph2psEvex256 pfx dst src mask =>
    have := src.rest_length
    exact ⟨_, _, List.append_assoc .., .inr rfl, by simpa using by omega⟩
  | vcvtph2psEvex512 pfx dst src mask =>
    have := src.rest_length
    exact ⟨_, _, List.append_assoc .., .inr rfl, by simpa using by omega⟩
  | vcvtph2psEvex512Sae pfx dst src mask =>
    have := (Operand.reg src).rest_length
    exact ⟨_, _, List.append_assoc .., .inr rfl, by simpa using by omega⟩

/-- A legacy prefix is a prefix byte; C4h and 62h are none. -/
theorem isPrefixByte_byte (m : Mode) (p : LegacyPrefix) : isPrefixByte m p.byte = true := by
  simp [isPrefixByte, legacyOf_byte]

theorem isPrefixByte_vex (m : Mode) : isPrefixByte m 0xC4 = false := by cases m <;> decide +kernel

theorem isPrefixByte_evex (m : Mode) : isPrefixByte m 0x62 = false := by cases m <;> decide +kernel

end Sys2Proof
end

