-- ==== Sys2Proof/Laws/State.lean ====
section
/-! SUPPORT. One lemma per field per state update, so that no later proof unfolds an update. -/

namespace Sys2Proof.Machine

variable (s : State)

@[simp] theorem vreg_setVreg_self (i : BitVec 5) (w : VWord) : (s.setVreg i w).vreg i = w := by
  simp [State.vreg, State.setVreg]

theorem vreg_setVreg_ne {i j : BitVec 5} (w : VWord) (h : j ≠ i) :
    (s.setVreg i w).vreg j = s.vreg j := by
  have : i.toNat ≠ j.toNat := fun e => h (BitVec.eq_of_toNat_eq e.symm)
  simp [State.vreg, State.setVreg, this]

@[simp] theorem setVreg_mode (i w) : (s.setVreg i w).mode = s.mode := rfl
@[simp] theorem setVreg_pc (i w) : (s.setVreg i w).pc = s.pc := rfl
@[simp] theorem setVreg_x (i w) : (s.setVreg i w).x = s.x := rfl
@[simp] theorem setVreg_k (i w) : (s.setVreg i w).k = s.k := rfl
@[simp] theorem setVreg_mxcsr (i w) : (s.setVreg i w).mxcsr = s.mxcsr := rfl
@[simp] theorem setVreg_rflags (i w) : (s.setVreg i w).rflags = s.rflags := rfl
@[simp] theorem setVreg_segs (i w) : (s.setVreg i w).segs = s.segs := rfl
@[simp] theorem setVreg_cr0 (i w) : (s.setVreg i w).cr0 = s.cr0 := rfl
@[simp] theorem setVreg_cr2 (i w) : (s.setVreg i w).cr2 = s.cr2 := rfl
@[simp] theorem setVreg_cr4 (i w) : (s.setVreg i w).cr4 = s.cr4 := rfl
@[simp] theorem setVreg_xcr0 (i w) : (s.setVreg i w).xcr0 = s.xcr0 := rfl
@[simp] theorem setVreg_cpl (i w) : (s.setVreg i w).cpl = s.cpl := rfl
@[simp] theorem setVreg_dr (i w) : (s.setVreg i w).dr = s.dr := rfl
@[simp] theorem setVreg_cpuid (i w) : (s.setVreg i w).cpuid = s.cpuid := rfl
@[simp] theorem setVreg_plat (i w) : (s.setVreg i w).plat = s.plat := rfl
@[simp] theorem setVreg_mem (i w) : (s.setVreg i w).mem = s.mem := rfl
@[simp] theorem setVreg_draws (i w) : (s.setVreg i w).draws = s.draws := rfl
@[simp] theorem setVreg_unwritten (i w) :
    (s.setVreg i w).unwritten = s.unwritten.filter (· != .vec i) := rfl

@[simp] theorem setIE_mode : s.setIE.mode = s.mode := rfl
@[simp] theorem setIE_pc : s.setIE.pc = s.pc := rfl
@[simp] theorem setIE_x : s.setIE.x = s.x := rfl
@[simp] theorem setIE_v : s.setIE.v = s.v := rfl
@[simp] theorem setIE_k : s.setIE.k = s.k := rfl
@[simp] theorem setIE_mxcsr : s.setIE.mxcsr = s.mxcsr ||| 1 := rfl
@[simp] theorem setIE_rflags : s.setIE.rflags = s.rflags := rfl
@[simp] theorem setIE_segs : s.setIE.segs = s.segs := rfl
@[simp] theorem setIE_cr0 : s.setIE.cr0 = s.cr0 := rfl
@[simp] theorem setIE_cr2 : s.setIE.cr2 = s.cr2 := rfl
@[simp] theorem setIE_cr4 : s.setIE.cr4 = s.cr4 := rfl
@[simp] theorem setIE_xcr0 : s.setIE.xcr0 = s.xcr0 := rfl
@[simp] theorem setIE_cpl : s.setIE.cpl = s.cpl := rfl
@[simp] theorem setIE_dr : s.setIE.dr = s.dr := rfl
@[simp] theorem setIE_cpuid : s.setIE.cpuid = s.cpuid := rfl
@[simp] theorem setIE_plat : s.setIE.plat = s.plat := rfl
@[simp] theorem setIE_mem : s.setIE.mem = s.mem := rfl
@[simp] theorem setIE_draws : s.setIE.draws = s.draws := rfl
@[simp] theorem setIE_unwritten : s.setIE.unwritten = s.unwritten := rfl
@[simp] theorem setIE_vreg (i : BitVec 5) : s.setIE.vreg i = s.vreg i := rfl
@[simp] theorem setIE_active (mask : Mask) (j : Nat) : active s.setIE mask j = active s mask j := rfl

@[simp] theorem advance_mode (n : Nat) : (s.advance n).mode = s.mode := rfl
@[simp] theorem advance_x (n : Nat) : (s.advance n).x = s.x := rfl
@[simp] theorem advance_v (n : Nat) : (s.advance n).v = s.v := rfl
@[simp] theorem advance_k (n : Nat) : (s.advance n).k = s.k := rfl
@[simp] theorem advance_mxcsr (n : Nat) : (s.advance n).mxcsr = s.mxcsr := rfl
@[simp] theorem advance_rflags (n : Nat) : (s.advance n).rflags = s.rflags := rfl
@[simp] theorem advance_segs (n : Nat) : (s.advance n).segs = s.segs := rfl
@[simp] theorem advance_cr0 (n : Nat) : (s.advance n).cr0 = s.cr0 := rfl
@[simp] theorem advance_cr2 (n : Nat) : (s.advance n).cr2 = s.cr2 := rfl
@[simp] theorem advance_cr4 (n : Nat) : (s.advance n).cr4 = s.cr4 := rfl
@[simp] theorem advance_xcr0 (n : Nat) : (s.advance n).xcr0 = s.xcr0 := rfl
@[simp] theorem advance_cpl (n : Nat) : (s.advance n).cpl = s.cpl := rfl
@[simp] theorem advance_dr (n : Nat) : (s.advance n).dr = s.dr := rfl
@[simp] theorem advance_cpuid (n : Nat) : (s.advance n).cpuid = s.cpuid := rfl
@[simp] theorem advance_plat (n : Nat) : (s.advance n).plat = s.plat := rfl
@[simp] theorem advance_mem (n : Nat) : (s.advance n).mem = s.mem := rfl
@[simp] theorem advance_draws (n : Nat) : (s.advance n).draws = s.draws := rfl
@[simp] theorem advance_unwritten (n : Nat) : (s.advance n).unwritten = s.unwritten := rfl
@[simp] theorem advance_vreg (n : Nat) (i : BitVec 5) : (s.advance n).vreg i = s.vreg i := rfl

@[simp] theorem placeAtFetch_pc (bs : List Byte) : (placeAtFetch s bs).pc = s.pc := rfl
@[simp] theorem placeAtFetch_mode (bs : List Byte) : (placeAtFetch s bs).mode = s.mode := rfl
@[simp] theorem placeAtFetch_plat (bs : List Byte) : (placeAtFetch s bs).plat = s.plat := rfl
@[simp] theorem placeAtFetch_segs (bs : List Byte) : (placeAtFetch s bs).segs = s.segs := rfl
@[simp] theorem placeAtFetch_v (bs : List Byte) : (placeAtFetch s bs).v = s.v := rfl
@[simp] theorem placeAtFetch_x (bs : List Byte) : (placeAtFetch s bs).x = s.x := rfl
@[simp] theorem placeAtFetch_k (bs : List Byte) : (placeAtFetch s bs).k = s.k := rfl
@[simp] theorem placeAtFetch_mxcsr (bs : List Byte) : (placeAtFetch s bs).mxcsr = s.mxcsr := rfl

/-- MXCSR.IE is set after `setIE`. -/
@[simp] theorem setIE_ie : s.setIE.ie = true := by
  simp [State.ie, State.setIE]

@[simp] theorem record_db : s.record .db = s := rfl
@[simp] theorem record_ud : s.record .ud = s := rfl
@[simp] theorem record_nm : s.record .nm = s := rfl
@[simp] theorem record_ss : s.record .ss = s := rfl
@[simp] theorem record_gp : s.record .gp = s := rfl
@[simp] theorem record_ac : s.record .ac = s := rfl
@[simp] theorem record_xm : s.record .xm = s := rfl
@[simp] theorem record_pf (code : BitVec 32) (addr : Word) :
    s.record (.pf code addr) = { s with cr2 := addr } := rfl

/-- Only a page fault records something. -/
theorem record_eq_self {x : Exception} (h : ∀ code addr, x ≠ .pf code addr) : s.record x = s := by
  cases x with
  | pf code addr => exact absurd rfl (h code addr)
  | db | ud | nm | ss | gp | ac | xm => rfl

/-- What a form's recognition raises records nothing. -/
theorem record_recognised {f : Form} {t : State} {x : Exception} (h : recognised f t = some x) :
    s.record x = s := by
  unfold recognised at h
  split at h
  · simp only [Option.some.injEq] at h; subst h; rfl
  · split at h
    · simp only [Option.some.injEq] at h; subst h; rfl
    · simp at h

/-- An unmasked Invalid records nothing beside MXCSR.IE. -/
@[simp] theorem record_invalidException (t : State) : s.record (invalidException t) = s := by
  unfold invalidException
  split <;> rfl

/-- `setIE` leaves MXCSR.IM. -/
@[simp] theorem setIE_im : s.setIE.im = s.im := by
  simp [State.im, State.setIE]

end Sys2Proof.Machine
end

