-- ==== Sys2Proof/Laws/Ops.lean ====
section
/-!
SUPPORT. One lemma per shared operation that says once everything it can do: what it answers when it
answers, and what it leaves alone.
-/

namespace Sys2Proof.Machine

/-! ### Fields of wide values -/

theorem getLsbD_packFields (w : Nat) {n : Nat} (hw : 0 < w) (f : Nat → BitVec w) (i : Nat) :
    ∀ c, (packFields w c f : BitVec n).getLsbD i =
      (decide (i < n) && decide (i < w * c) && (f (i / w)).getLsbD (i % w)) := by
  intro c
  induction c with
  | zero => simp [packFields]
  | succ c ih =>
    have key : w * (c + 1) = w * c + w := by ring
    simp only [packFields, BitVec.getLsbD_or, ih, BitVec.getLsbD_shiftLeft, BitVec.getLsbD_setWidth]
    by_cases hn : i < n
    · by_cases h1 : i < w * c
      · have h2 : i < w * (c + 1) := by omega
        simp [hn, h1, h2]
      · by_cases h2 : i < w * (c + 1)
        · have hdiv : i / w = c := by
            apply Nat.div_eq_of_lt_le
            · rw [Nat.mul_comm]; omega
            · rw [Nat.mul_comm, ]; omega
          have hmod : i % w = i - w * c := by
            have := Nat.div_add_mod i w
            rw [hdiv] at this; omega
          have hlt : i - w * c < n := by omega
          simp [hn, h1, h2, hdiv, hmod, hlt]
        · have hge : w ≤ i - w * c := by omega
          simp [hn, h1, h2, BitVec.getLsbD_of_ge _ _ hge]
    · simp [hn]

/-- Field `j` of a packed value is the `j`-th field packed. -/
theorem fieldAt_packFields (w : Nat) {n : Nat} (hw : 0 < w) (f : Nat → BitVec w) {c j : Nat}
    (hj : j < c) (hc : w * c ≤ n) : fieldAt w (packFields w c f : BitVec n) j = f j := by
  apply BitVec.eq_of_getLsbD_eq
  intro i hi
  have h1 : w * j + i < w * c := by
    calc w * j + i < w * j + w := by omega
      _ = w * (j + 1) := by ring
      _ ≤ w * c := Nat.mul_le_mul_left _ hj
  have hdiv : (w * j + i) / w = j := by
    rw [Nat.mul_add_div hw, Nat.div_eq_of_lt hi]; omega
  have hmod : (w * j + i) % w = i := by
    rw [Nat.mul_add_mod, Nat.mod_eq_of_lt hi]
  have hn : w * j + i < n := by omega
  rw [fieldAt, BitVec.getLsbD_extractLsb', getLsbD_packFields w hw, hdiv, hmod]
  simp [hi, h1, hn]

/-- Above its fields a packed value is 0. -/
theorem packFields_lt (w : Nat) {n : Nat} (hw : 0 < w) (f : Nat → BitVec w) (c : Nat) :
    (packFields w c f : BitVec n).toNat < 2 ^ (w * c) := by
  apply Nat.lt_pow_two_of_testBit
  intro i hi
  have := getLsbD_packFields w (n := n) hw f i c
  rw [BitVec.getLsbD] at this
  rw [this]
  simp [Nat.not_lt.mpr hi]

/-- A packed value depends on the fields below `c` only. -/
theorem packFields_congr (w : Nat) {n : Nat} {f g : Nat → BitVec w} :
    ∀ c, (∀ j < c, f j = g j) → (packFields w c f : BitVec n) = packFields w c g := by
  intro c
  induction c with
  | zero => intro _; rfl
  | succ c ih =>
    intro h
    simp only [packFields]
    rw [ih (fun j hj => h j (by omega)), h c (by omega)]

/-! ### Outcomes -/

/-- `andThen` answers a next value exactly when both parts do. -/
theorem andThen_eq_next {α β : Type} {o : Host.Outcome α Fault Refusal}
    {f : α → Host.Outcome β Fault Refusal} {b : β} :
    andThen o f = .next b ↔ ∃ a, o = .next a ∧ f a = .next b := by
  cases o <;> simp [andThen]

/-- `andThen` faults exactly when one of its parts does. -/
theorem andThen_eq_fault {α β : Type} {o : Host.Outcome α Fault Refusal}
    {f : α → Host.Outcome β Fault Refusal} {r : Fault} :
    andThen o f = .fault r ↔ o = .fault r ∨ ∃ a, o = .next a ∧ f a = .fault r := by
  cases o <;> simp [andThen]

/-- `andThen` refuses exactly when one of its parts does. -/
theorem andThen_eq_refused {α β : Type} {o : Host.Outcome α Fault Refusal}
    {f : α → Host.Outcome β Fault Refusal} {r : Refusal} :
    andThen o f = .refused r ↔ o = .refused r ∨ ∃ a, o = .next a ∧ f a = .refused r := by
  cases o <;> simp [andThen]

@[simp] theorem andThen_next {α β : Type} (a : α) (f : α → Host.Outcome β Fault Refusal) :
    andThen (.next a) f = f a := rfl

/-! ### Unwritten registers -/

/-- The check goes on exactly when none of the registers is marked. -/
theorem requireWritten_eq_next {rs : List Reg} {s : State} {u : Unit} :
    requireWritten rs s = .next u ↔ ∀ r ∈ rs, r ∉ s.unwritten := by
  unfold requireWritten
  cases h : rs.find? s.unwritten.contains with
  | none => simpa using h
  | some r =>
    have hr := List.find?_some h
    have hm := List.mem_of_find?_eq_some h
    simp only [reduceCtorEq, false_iff]
    intro hall
    exact hall r hm (by simpa using hr)

/-- The check stops only with the model fault of a marked register, and changes nothing. -/
theorem requireWritten_eq_fault {rs : List Reg} {s : State} {q : Fault}
    (h : requireWritten rs s = .fault q) :
    ∃ r, q = .unwritten r s ∧ r ∈ rs ∧ r ∈ s.unwritten := by
  unfold requireWritten at h
  cases hf : rs.find? s.unwritten.contains with
  | none =>
    rw [hf] at h
    simp at h
  | some r =>
    have hr := List.find?_some hf
    simp only [hf, Host.Outcome.fault.injEq] at h
    exact ⟨r, h.symm, List.mem_of_find?_eq_some hf, by simpa using hr⟩

/-- A marked register among those asked for stops the check. -/
theorem requireWritten_of_mem {rs : List Reg} {s : State} {r : Reg} (h : r ∈ rs)
    (hu : r ∈ s.unwritten) : ∃ q ∈ s.unwritten, requireWritten rs s = .fault (.unwritten q s) := by
  cases hw : requireWritten rs s with
  | next u => exact absurd hu (requireWritten_eq_next.mp hw r h)
  | fault q =>
    obtain ⟨q', rfl, _, hq⟩ := requireWritten_eq_fault hw
    exact ⟨q', hq, rfl⟩
  | refused q =>
    unfold requireWritten at hw
    split at hw <;> simp at hw

/-- The check never refuses. -/
theorem requireWritten_ne_refused {rs : List Reg} {s : State} {q : Refusal} :
    requireWritten rs s ≠ .refused q := by
  unfold requireWritten
  split <;> simp

/-! ### Reports and memory reads -/

theorem Check.pageFault_eq_some {c : Check} {p : BitVec 32 × Word} (h : c.pageFault = some p) :
    c = .exc (.pf p.1 p.2) := by
  unfold Check.pageFault at h
  split at h
  · simp only [Option.some.injEq] at h
    subst h
    rfl
  · simp at h

/-- A report goes on exactly when every check is `ok`. -/
theorem report_eq_next {cs : List Check} {s : State} {u : Unit} :
    report cs s = .next u ↔ ∀ c ∈ cs, c = .ok := by
  unfold report raisePageFault raise
  cases h : cs.find? (· != .ok) with
  | none => simpa using h
  | some c =>
    have hc := List.find?_some h
    have hm := List.mem_of_find?_eq_some h
    constructor
    · intro he
      cases c with
      | ok => simp at hc
      | refuse => simp at he
      | exc x => cases x <;> simp at he; split at he <;> simp at he
    · intro hall
      have := hall c hm
      simp [this] at hc

/-- A report faults with the state it was given, but for CR2 and the count of draws. -/
theorem report_eq_fault {cs : List Check} {s : State} {x : Exception} {t : State}
    (h : report cs s = .fault (.exception x t)) :
    .exc x ∈ cs ∧ (t = s.record x ∨
      ∃ code addr, x = .pf code addr ∧ t = { s with cr2 := addr, draws := s.draws + 1 }) := by
  unfold report at h
  cases hf : cs.find? (· != .ok) with
  | none => simp [hf] at h
  | some c =>
    have hm := List.mem_of_find?_eq_some hf
    cases c with
    | ok => simp [hf] at h
    | refuse => simp [hf] at h
    | exc y =>
      cases y with
      | pf code addr =>
        simp only [hf, raisePageFault, raise] at h
        split at h
        · simp only [Host.Outcome.fault.injEq, Fault.exception.injEq] at h
          obtain ⟨rfl, rfl⟩ := h
          exact ⟨hm, .inl rfl⟩
        · simp only [Host.Outcome.fault.injEq, Fault.exception.injEq] at h
          obtain ⟨rfl, rfl⟩ := h
          refine ⟨?_, .inr ⟨_, _, rfl, rfl⟩⟩
          have hlen : 0 < (cs.filterMap Check.pageFault).length := by
            apply List.length_pos_of_mem
            exact List.mem_filterMap.mpr ⟨_, hm, rfl⟩
          have hlt := Nat.mod_lt (Config.pageFaultDraw s.draws) hlen
          have hmem := List.getElem_mem hlt
          rw [List.getD_eq_getElem _ _ hlt]
          obtain ⟨c, hc, he⟩ := List.mem_filterMap.mp hmem
          exact Check.pageFault_eq_some he ▸ hc
      | db | ud | nm | ss | gp | ac | xm =>
        simp only [hf, raise, Host.Outcome.fault.injEq, Fault.exception.injEq] at h
        obtain ⟨rfl, rfl⟩ := h
        exact ⟨hm, .inl rfl⟩

/-- A report refuses for a device byte only. -/
theorem report_eq_refused {cs : List Check} {s : State} {r : Refusal}
    (h : report cs s = .refused r) : r = .deviceOperand ∧ .refuse ∈ cs := by
  unfold report raisePageFault raise at h
  cases hf : cs.find? (· != .ok) with
  | none => simp [hf] at h
  | some c =>
    have hm := List.mem_of_find?_eq_some hf
    cases c with
    | ok => simp [hf] at h
    | refuse => simp [hf] at h; exact ⟨h.symm, hm⟩
    | exc x => cases x <;> simp [hf] at h; split at h <;> simp at h

/-- A memory read answers exactly when the operand does not wrap and every byte of an active lane
passes its check; it answers the bytes, little-endian. -/
theorem memRead_eq_next {r : MemRef} {n : Nat} {act : Nat → Bool} {s : State} {bits : Packed} :
    memRead r n act s = .next bits ↔
      wraps r n = false ∧
      (∀ b < n, act (b / 2) = true → checkByte .read s r.seg (r.ea + b) = .ok) ∧
      bits = packFields 8 n (fun b => if act (b / 2) then operandByte r s b else 0) := by
  unfold memRead
  cases hw : wraps r n with
  | true => simp
  | false =>
    simp only [Bool.false_eq_true, if_false, andThen_eq_next, report_eq_next, operandChecks,
      checkedBytes, List.mem_map, List.mem_filter, List.mem_range, true_and]
    constructor
    · rintro ⟨_, h1, h2⟩
      refine ⟨fun b hb ha => h1 _ ⟨b, ⟨hb, ha⟩, rfl⟩, ?_⟩
      simpa using h2.symm
    · rintro ⟨h1, rfl⟩
      refine ⟨(), ?_, rfl⟩
      rintro c ⟨b, ⟨hb, ha⟩, rfl⟩
      exact h1 b hb ha

/-- A memory read faults with the exception of a checked byte. -/
theorem memRead_eq_fault {r : MemRef} {n : Nat} {act : Nat → Bool} {s t : State} {x : Exception}
    (h : memRead r n act s = .fault (.exception x t)) :
    (∃ b < n, act (b / 2) = true ∧ checkByte .read s r.seg (r.ea + b) = .exc x) ∧
      (t = s.record x ∨
        ∃ code addr, x = .pf code addr ∧ t = { s with cr2 := addr, draws := s.draws + 1 }) := by
  unfold memRead at h
  split at h
  · simp at h
  · rcases andThen_eq_fault.mp h with h | ⟨_, _, h⟩
    · obtain ⟨hm, ht⟩ := report_eq_fault h
      simp only [operandChecks, checkedBytes, List.mem_map, List.mem_filter, List.mem_range] at hm
      obtain ⟨b, ⟨hb, ha⟩, hc⟩ := hm
      exact ⟨⟨b, hb, ha, hc⟩, ht⟩
    · simp at h

/-- A memory read refuses a wrapping operand or a device byte. -/
theorem memRead_eq_refused {r : MemRef} {n : Nat} {act : Nat → Bool} {s : State} {q : Refusal}
    (h : memRead r n act s = .refused q) : q = .operandWraps ∨ q = .deviceOperand := by
  unfold memRead at h
  split at h
  · simp at h; exact .inl h.symm
  · rcases andThen_eq_refused.mp h with h | ⟨_, _, h⟩
    · exact .inr (report_eq_refused h).1
    · simp at h

/-- What a source read can fault with. -/
theorem readSource_eq_fault {f : Form} {len : Nat} {pfx : List LegacyPrefix} {src : Operand 5}
    {mask : Mask} {s t : State} {x : Exception}
    (h : readSource f len pfx src mask s = .fault (.exception x t)) :
    ∃ m, src = .mem m ∧
      (∃ b < memBytes f, active s mask (b / 2) = true ∧
        checkByte .read s (memRef f len pfx m s).seg ((memRef f len pfx m s).ea + b) = .exc x) ∧
      (t = s.record x ∨
        ∃ code addr, x = .pf code addr ∧ t = { s with cr2 := addr, draws := s.draws + 1 }) := by
  cases src with
  | reg n => simp [readSource] at h
  | mem m => exact ⟨m, rfl, memRead_eq_fault h⟩

/-- A report faults with an exception only. -/
theorem report_ne_unwritten {cs : List Check} {s t : State} {r : Reg} :
    report cs s ≠ .fault (.unwritten r t) := by
  unfold report
  split
  · simp
  · simp
  · simp
  · unfold raisePageFault raise
    split <;> simp
  · simp [raise]

/-- A source read faults with an exception only. -/
theorem readSource_ne_unwritten {f : Form} {len : Nat} {pfx : List LegacyPrefix} {src : Operand 5}
    {mask : Mask} {s t : State} {r : Reg} : readSource f len pfx src mask s ≠ .fault (.unwritten r t) := by
  cases src with
  | reg n => simp [readSource]
  | mem m =>
    simp only [readSource]
    unfold memRead
    split
    · simp
    · rw [Ne, andThen_eq_fault]
      rintro (h | ⟨_, _, h⟩)
      · exact report_ne_unwritten h
      · simp at h

/-! ### The common execution -/

/-- `complete` changes the destination register, its mark and `pc`. -/
theorem complete_eq (f : Form) (len : Nat) (dst : BitVec 5) (mask : Mask) (bits : Packed)
    (s : State) :
    complete f len dst mask bits s =
      { s with
        v := s.v.set dst.toNat (destValue f mask bits (s.vreg dst) s) dst.isLt
        unwritten := s.unwritten.filter (· != .vec dst)
        pc := (s.advance len).pc } := rfl

/-- Everything a common execution can do when it answers a next state. -/
theorem execForm_eq_next {f : Form} {len : Nat} {pfx : List LegacyPrefix} {dst : BitVec 5}
    {src : Operand 5} {mask : Mask} {sae : Bool} {s t : State}
    (h : execForm f len pfx dst src mask sae s = .next t) :
    recognised f s = none ∧ (∀ r ∈ maskRegs mask ++ sourceRegs s.mode pfx src, r ∉ s.unwritten) ∧
    ∃ bits, readSource f len pfx src mask s = .next bits ∧
      (∀ r ∈ resultRegs f dst mask sae bits s, r ∉ s.unwritten) ∧
      ((anyInvalid f mask bits s && !sae) = true ∧ s.im = true ∧
          t = complete f len dst mask bits s.setIE ∨
        (anyInvalid f mask bits s && !sae) = false ∧ t = complete f len dst mask bits s) := by
  unfold execForm at h
  split at h
  · simp [raise] at h
  · next hr =>
    obtain ⟨_, hw, h⟩ := andThen_eq_next.mp h
    obtain ⟨bits, hb, h⟩ := andThen_eq_next.mp h
    obtain ⟨_, hk, h⟩ := andThen_eq_next.mp h
    refine ⟨hr, requireWritten_eq_next.mp hw, bits, hb, requireWritten_eq_next.mp hk, ?_⟩
    unfold convertLanes raise at h
    split at h
    · next hi =>
      split at h
      · next him => simp at h; exact .inl ⟨hi, him, h.symm⟩
      · simp at h
    · next hi => simp at h; exact .inr ⟨by simpa using hi, h.symm⟩

/-- Everything a common execution can do when it raises an exception. -/
theorem execForm_eq_fault {f : Form} {len : Nat} {pfx : List LegacyPrefix} {dst : BitVec 5}
    {src : Operand 5} {mask : Mask} {sae : Bool} {s t : State} {x : Exception}
    (h : execForm f len pfx dst src mask sae s = .fault (.exception x t)) :
    (recognised f s = some x ∧ t = s) ∨
    (recognised f s = none ∧
      (readSource f len pfx src mask s = .fault (.exception x t) ∨
        ∃ bits, readSource f len pfx src mask s = .next bits ∧
          (anyInvalid f mask bits s && !sae) = true ∧ s.im = false ∧
          x = invalidException s ∧ t = s.setIE)) := by
  unfold execForm at h
  split at h
  · next y hy =>
    simp only [raise, Host.Outcome.fault.injEq, Fault.exception.injEq] at h
    obtain ⟨rfl, rfl⟩ := h
    exact .inl ⟨hy, record_recognised s hy⟩
  · next hr =>
    refine .inr ⟨hr, ?_⟩
    rcases andThen_eq_fault.mp h with h | ⟨_, _, h⟩
    · obtain ⟨r, hq, _⟩ := requireWritten_eq_fault h
      simp at hq
    rcases andThen_eq_fault.mp h with h | ⟨bits, hb, h⟩
    · exact .inl h
    rcases andThen_eq_fault.mp h with h | ⟨_, _, h⟩
    · obtain ⟨r, hq, _⟩ := requireWritten_eq_fault h
      simp at hq
    · refine .inr ⟨bits, hb, ?_⟩
      unfold convertLanes raise at h
      split at h
      · next hi =>
        split at h
        · simp at h
        · next him =>
          simp only [Host.Outcome.fault.injEq, Fault.exception.injEq] at h
          exact ⟨hi, by simpa using him, h.1.symm, by rw [← h.2, record_invalidException]⟩
      · simp at h

/-- A model fault of a common execution names a register that is marked, and changes nothing. -/
theorem execForm_eq_unwritten {f : Form} {len : Nat} {pfx : List LegacyPrefix} {dst : BitVec 5}
    {src : Operand 5} {mask : Mask} {sae : Bool} {s t : State} {r : Reg}
    (h : execForm f len pfx dst src mask sae s = .fault (.unwritten r t)) :
    t = s ∧ r ∈ s.unwritten := by
  have out : ∀ {rs : List Reg}, requireWritten rs s = .fault (.unwritten r t) →
      t = s ∧ r ∈ s.unwritten := by
    intro rs hw
    obtain ⟨q, hq, _, hm⟩ := requireWritten_eq_fault hw
    simp only [Fault.unwritten.injEq] at hq
    exact ⟨hq.2, hq.1 ▸ hm⟩
  unfold execForm at h
  split at h
  · simp [raise] at h
  · rcases andThen_eq_fault.mp h with h | ⟨_, _, h⟩
    · exact out h
    rcases andThen_eq_fault.mp h with h | ⟨bits, _, h⟩
    · exact absurd h readSource_ne_unwritten
    rcases andThen_eq_fault.mp h with h | ⟨_, _, h⟩
    · exact out h
    · unfold convertLanes raise at h
      split at h
      · split at h <;> simp at h
      · simp at h

/-- A common execution refuses only for its memory operand. -/
theorem execForm_eq_refused {f : Form} {len : Nat} {pfx : List LegacyPrefix} {dst : BitVec 5}
    {src : Operand 5} {mask : Mask} {sae : Bool} {s : State} {q : Refusal}
    (h : execForm f len pfx dst src mask sae s = .refused q) :
    q = .operandWraps ∨ q = .deviceOperand := by
  unfold execForm at h
  split at h
  · simp [raise] at h
  · rcases andThen_eq_refused.mp h with h | ⟨_, _, h⟩
    · exact absurd h requireWritten_ne_refused
    rcases andThen_eq_refused.mp h with h | ⟨bits, _, h⟩
    · cases src with
      | reg n => simp [readSource] at h
      | mem m => exact memRead_eq_refused h
    rcases andThen_eq_refused.mp h with h | ⟨_, _, h⟩
    · exact absurd h requireWritten_ne_refused
    · unfold convertLanes raise at h
      split at h
      · split at h <;> simp at h
      · simp at h

/-- Every instruction is the common execution of its parts. -/
theorem exec_eq_execForm (i : Instr) (s : State) :
    exec i s = execForm i.form i.len i.pfx i.dest i.source i.mask i.sae s := by
  cases i <;> rfl

/-! ### One step -/

/-- What `breakFirst` can do: `#DB` in place of its outcome, or the outcome. -/
theorem breakFirst_cases (s : State) (o : Host.Outcome State Fault Refusal) :
    (breaksBefore s = true ∧ breakFirst s o = .fault (.exception .db s)) ∨
      (breaksBefore s = false ∧ breakFirst s o = o) := by
  unfold breakFirst raise
  cases breaksBefore s with
  | true => exact .inl ⟨rfl, rfl⟩
  | false => exact .inr ⟨rfl, rfl⟩

/-- Without an instruction breakpoint `breakFirst` adds nothing. -/
@[simp] theorem breakFirst_of_not {s : State} (h : breaksBefore s = false)
    (o : Host.Outcome State Fault Refusal) : breakFirst s o = o := by
  simp [breakFirst, h]

/-- What the failed fetch of a needed byte can do. -/
theorem fetchFails_cases (s : State) :
    (∃ x, fetchCheck s (fetchBytes s).length = .exc x ∧
        fetchFails s = .fault (.exception x (s.record x))) ∨
      (fetchCheck s (fetchBytes s).length = .refuse ∧ fetchFails s = .refused .deviceFetch) ∨
      (fetchCheck s (fetchBytes s).length = .ok ∧
        fetchFails s = .refused (.encoding .otherInstruction)) := by
  unfold fetchFails raise
  cases h : fetchCheck s (fetchBytes s).length with
  | exc x => exact .inl ⟨x, rfl, rfl⟩
  | refuse => exact .inr (.inl ⟨rfl, rfl⟩)
  | ok => exact .inr (.inr ⟨rfl, rfl⟩)

/-- Everything a step can do. -/
theorem step_cases (s : State) :
    (∃ i, decodeAt s = .instr i ∧ step s = breakFirst s (debugTrap s i (exec i s))) ∨
    (decodeAt s = .invalid ∧ step s = breakFirst s (.fault (.exception .ud s))) ∨
    (decodeAt s = .tooLong ∧ step s = breakFirst s (.fault (.exception .gp s))) ∨
    (∃ r, decodeAt s = .refused r ∧ step s = .refused (.encoding r)) ∨
    (decodeAt s = .short ∧ step s = fetchFails s) := by
  unfold step
  cases decodeAt s with
  | instr i => exact .inl ⟨i, rfl, rfl⟩
  | invalid => exact .inr (.inl ⟨rfl, rfl⟩)
  | tooLong => exact .inr (.inr (.inl ⟨rfl, rfl⟩))
  | refused r => exact .inr (.inr (.inr (.inl ⟨r, rfl, rfl⟩)))
  | short => exact .inr (.inr (.inr (.inr ⟨rfl, rfl⟩)))

/-- A completion is not a trap: where the traps are not due, `debugTrap` adds nothing. -/
theorem debugTrap_eq_next {s t : State} {i : Instr} {o : Host.Outcome State Fault Refusal}
    (h : debugTrap s i o = .next t) : o = .next t := by
  unfold debugTrap raise at h
  cases o with
  | next u =>
    simp only at h
    split at h
    · simp at h
    · exact h
  | fault r => simp at h
  | refused r => simp at h

/-- A step that answers a next state is the execution of the decoded instruction. -/
theorem step_eq_next {s t : State} (h : step s = .next t) :
    ∃ i, decodeAt s = .instr i ∧ exec i s = .next t := by
  have out : ∀ {o : Host.Outcome State Fault Refusal}, breakFirst s o = .next t → o = .next t := by
    intro o ho
    rcases breakFirst_cases s o with ⟨_, h'⟩ | ⟨_, h'⟩
    · simp [h'] at ho
    · exact h' ▸ ho
  rcases step_cases s with ⟨i, hi, h'⟩ | ⟨_, h'⟩ | ⟨_, h'⟩ | ⟨_, _, h'⟩ | ⟨_, h'⟩
  · exact ⟨i, hi, debugTrap_eq_next (out (h' ▸ h))⟩
  · exact absurd (out (h' ▸ h)) (by simp)
  · exact absurd (out (h' ▸ h)) (by simp)
  · simp [h'] at h
  · rcases fetchFails_cases s with ⟨x, _, h''⟩ | ⟨_, h''⟩ | ⟨_, h''⟩ <;>
      simp [h', h''] at h

end Sys2Proof.Machine
end

