-- ==== Sys2Proof/Laws/Fetch.lean ====
section
/-! SUPPORT. What the fetch gives: the bytes that stand at `pc`, as far as decoding can need them. -/

namespace Sys2Proof.Machine

/-- Bytes stand at the instruction's byte `b` and after it, and can be fetched. -/
def Stored (s : State) (b : Nat) (l : List Byte) : Prop :=
  ∀ c < l.length, fetchCheck s (b + c) = .ok ∧ l[c]? = some (fetchByte s (b + c))

theorem Stored.head {s : State} {b : Nat} {x : Byte} {l : List Byte} (h : Stored s b (x :: l)) :
    fetchCheck s b = .ok ∧ x = fetchByte s b := by
  simpa using h 0 (by simp)

theorem Stored.tail {s : State} {b : Nat} {x : Byte} {l : List Byte} (h : Stored s b (x :: l)) :
    Stored s (b + 1) l := by
  intro c hc
  have := h (c + 1) (by simpa using hc)
  rw [show b + (c + 1) = b + 1 + c by omega] at this
  simpa using this

theorem Stored.append {s : State} {b : Nat} {l m : List Byte} (h : Stored s b (l ++ m)) :
    Stored s b l ∧ Stored s (b + l.length) m := by
  constructor
  · intro c hc
    have := h c (by simp; omega)
    rwa [List.getElem?_append_left hc] at this
  · intro c hc
    have := h (l.length + c) (by simp; omega)
    rw [List.getElem?_append_right (by omega)] at this
    rw [show b + (l.length + c) = b + l.length + c by omega] at this
    simpa using this

/-- Stored bytes are fetched, up to the number asked for. -/
theorem fetchFrom_of_stored {s : State} :
    ∀ {l : List Byte} {n b : Nat}, Stored s b l → l.length ≤ n →
      fetchFrom s n b = l ++ fetchFrom s (n - l.length) (b + l.length) := by
  intro l
  induction l with
  | nil => intro n b _ _; simp
  | cons x l ih =>
    intro n b h hn
    obtain ⟨n, rfl⟩ : ∃ m, n = m + 1 := ⟨n - 1, by simp at hn; omega⟩
    obtain ⟨hc, hx⟩ := h.head
    have hl : l.length ≤ n := by simpa using hn
    rw [fetchFrom, if_pos hc, ih h.tail hl, ← hx]
    simp only [List.cons_append, List.length_cons]
    rw [show n + 1 - (l.length + 1) = n - l.length by omega,
      show b + 1 + l.length = b + (l.length + 1) by omega]

/-- Nothing is fetched from a byte that cannot be fetched on. -/
theorem fetchFrom_of_not {s : State} {b : Nat} (h : fetchCheck s b ≠ .ok) (n : Nat) :
    fetchFrom s n b = [] := by
  cases n with
  | zero => rfl
  | succ n => rw [fetchFrom, if_neg h]

/-- Stored prefix bytes are fetched as such, where no further one follows them. -/
theorem fetchPrefixes_of_stored {s : State} :
    ∀ {l : List Byte} {n b : Nat}, Stored s b l → l.length ≤ n →
      (∀ x ∈ l, isPrefixByte s.mode x = true) →
      (fetchCheck s (b + l.length) ≠ .ok ∨
        isPrefixByte s.mode (fetchByte s (b + l.length)) = false) →
      fetchPrefixes s n b = l := by
  intro l
  induction l with
  | nil =>
    intro n b _ _ _ hend
    cases n with
    | zero => rfl
    | succ n =>
      rw [fetchPrefixes, if_neg]
      rintro ⟨h1, h2⟩
      rcases hend with h | h
      · exact h h1
      · exact absurd (h2.symm.trans h) (by decide)
  | cons x l ih =>
    intro n b h hn hp hend
    obtain ⟨n, rfl⟩ : ∃ m, n = m + 1 := ⟨n - 1, by simp at hn; omega⟩
    obtain ⟨hc, hx⟩ := h.head
    have hl : l.length ≤ n := by simpa using hn
    rw [show b + (x :: l).length = b + 1 + l.length by simp; omega] at hend
    rw [fetchPrefixes, if_pos ⟨hc, hx ▸ hp x (by simp)⟩,
      ih h.tail hl (fun y hy => hp y (by simp [hy])) hend, ← hx]

/-- Prefix bytes and then a body of at most `maxBody` bytes, stored at `pc`, are what the fetch gives,
with what follows them. -/
theorem fetchBytes_of_stored {s : State} {pre : List Byte} {x : Byte} {body : List Byte}
    (h : Stored s 0 (pre ++ x :: body)) (hp : ∀ y ∈ pre, isPrefixByte s.mode y = true)
    (hx : isPrefixByte s.mode x = false) (hn : pre.length ≤ offsetCount)
    (hb : (x :: body).length ≤ maxBody) :
    fetchBytes s = pre ++ x :: body ++ fetchFrom s (maxBody - (x :: body).length)
      (pre.length + (x :: body).length) := by
  obtain ⟨h1, h2⟩ := h.append
  rw [Nat.zero_add] at h2
  have hpre : fetchPrefixes s offsetCount 0 = pre :=
    fetchPrefixes_of_stored h1 hn hp (.inr (by rw [Nat.zero_add, ← h2.head.2]; exact hx))
  rw [fetchBytes, hpre, fetchFrom_of_stored h2 hb, List.append_assoc]

/-- Where a byte cannot be fetched, the fetch gives the bytes before it. -/
theorem fetchBytes_of_missing {s : State} {pre body : List Byte} (h : Stored s 0 (pre ++ body))
    (hp : ∀ y ∈ pre, isPrefixByte s.mode y = true)
    (hx : ∀ x ∈ body.head?, isPrefixByte s.mode x = false) (hn : pre.length ≤ offsetCount)
    (hb : body.length ≤ maxBody) (hm : fetchCheck s (pre ++ body).length ≠ .ok) :
    fetchBytes s = pre ++ body := by
  obtain ⟨h1, h2⟩ := h.append
  rw [Nat.zero_add] at h2
  have hpre : fetchPrefixes s offsetCount 0 = pre := by
    apply fetchPrefixes_of_stored h1 hn hp
    rw [Nat.zero_add]
    cases body with
    | nil => exact .inl (by simpa using hm)
    | cons x body => exact .inr (by rw [← h2.head.2]; exact hx x (by simp))
  rw [fetchBytes, hpre, fetchFrom_of_stored h2 hb,
    fetchFrom_of_not (by simpa using hm), List.append_nil]

/-- Where an instruction stands at `pc`, its encoding is what the fetch gives, with what follows it. -/
theorem fetchBytes_of_holds {s : State} {i : Instr} (h : Holds s i) (hl : i.len ≤ offsetCount) :
    ∃ rest, fetchBytes s = encode i ++ rest := by
  obtain ⟨x, body, he, hx, hb⟩ := encode_split i
  have hlen := encode_length i
  have hp : (i.pfx.map LegacyPrefix.byte).length ≤ offsetCount := by
    rw [he, List.length_append] at hlen
    omega
  have hst : Stored s 0 (i.pfx.map LegacyPrefix.byte ++ x :: body) := by
    intro c hc
    rw [← he] at hc ⊢
    rw [Nat.zero_add]
    exact h c (by omega)
  have hpre : ∀ y ∈ i.pfx.map LegacyPrefix.byte, isPrefixByte s.mode y = true := by
    intro y hy
    obtain ⟨p, _, rfl⟩ := List.mem_map.mp hy
    exact isPrefixByte_byte _ p
  have hnx : isPrefixByte s.mode x = false := by
    rcases hx with rfl | rfl
    · exact isPrefixByte_vex _
    · exact isPrefixByte_evex _
  exact ⟨_, he ▸ fetchBytes_of_stored hst hpre hnx hp (by simpa [maxBody] using by omega)⟩

end Sys2Proof.Machine
end

