-- ==== Sys2Proof/Laws/Memory.lean ====
section
/-!
SUPPORT. The laws of memory: a read after a write, and that every memory operation keeps the
canonical form.
-/

namespace Sys2Proof.Machine

/-- A byte below the first entry of a canonical memory is unlisted. -/
theorem Memory.read_below (m : Memory) :
    ∀ {lo i : Nat}, m.wfFrom lo = true → i < lo → m.read i = Memory.unlisted := by
  induction m with
  | nil => intros; rfl
  | cons c rest ih =>
    intro lo i h hi
    obtain ⟨a, b⟩ := c
    simp only [Memory.wfFrom, Bool.and_eq_true, decide_eq_true_eq] at h
    obtain ⟨⟨⟨h1, _⟩, _⟩, h4⟩ := h
    have hne : i ≠ a := by omega
    simp only [Memory.read, if_neg hne]
    exact ih h4 (by omega)

/-- A memory canonical from `lo` on is canonical from any lower address on. -/
theorem Memory.wfFrom_mono (m : Memory) {lo lo' : Nat} (h : m.wfFrom lo = true) (hl : lo' ≤ lo) :
    m.wfFrom lo' = true := by
  cases m with
  | nil => rfl
  | cons c rest =>
    obtain ⟨a, b⟩ := c
    simp only [Memory.wfFrom, Bool.and_eq_true, decide_eq_true_eq] at h ⊢
    exact ⟨⟨⟨by omega, h.1.1.2⟩, h.1.2⟩, h.2⟩

/-- A write keeps the canonical form from `lo` on. -/
theorem Memory.wfFrom_write (m : Memory) (i : Nat) (c : Byte) (hi : i < 2 ^ 64) :
    ∀ {lo : Nat}, m.wfFrom lo = true → lo ≤ i → (m.write i c).wfFrom lo = true := by
  induction m with
  | nil =>
    intro lo _ hl
    by_cases hc : c = Memory.unlisted
    · simp [Memory.write, hc, Memory.wfFrom]
    · simpa [Memory.write, hc, Memory.wfFrom, hl] using hi
  | cons e rest ih =>
    intro lo h hl
    obtain ⟨a, b⟩ := e
    simp only [Memory.wfFrom, Bool.and_eq_true, decide_eq_true_eq, bne_iff_ne] at h
    obtain ⟨⟨⟨h1, h2⟩, h3⟩, h4⟩ := h
    unfold Memory.write
    split
    · next hlt =>
      split
      · simpa [Memory.wfFrom, h1, h3, h4] using h2
      · next hc =>
        simp only [Memory.wfFrom, Bool.and_eq_true, decide_eq_true_eq, bne_iff_ne]
        exact ⟨⟨⟨hl, hi⟩, hc⟩, ⟨⟨by omega, h2⟩, h3⟩, h4⟩
    · next hge =>
      split
      · next heq =>
        subst heq
        split
        · exact Memory.wfFrom_mono rest h4 (by omega)
        · next hc =>
          simp only [Memory.wfFrom, Bool.and_eq_true, decide_eq_true_eq, bne_iff_ne]
          exact ⟨⟨⟨hl, hi⟩, hc⟩, h4⟩
      · next hne =>
        simp only [Memory.wfFrom, Bool.and_eq_true, decide_eq_true_eq, bne_iff_ne]
        exact ⟨⟨⟨h1, h2⟩, h3⟩, ih h4 (by omega)⟩

/-- A write keeps the canonical form. -/
theorem Memory.wf_write (m : Memory) (i : Nat) (c : Byte) (hi : i < 2 ^ 64) (h : m.wf = true) :
    (m.write i c).wf = true := Memory.wfFrom_write m i c hi h (Nat.zero_le _)

/-- Writing bytes keeps the canonical form. -/
theorem Memory.wf_writeAll (bs : List Byte) :
    ∀ (m : Memory) (a : Word), m.wf = true → (m.writeAll a bs).wf = true := by
  induction bs with
  | nil => intro m a h; exact h
  | cons b bs ih => intro m a h; exact ih _ _ (Memory.wf_write m _ b a.isLt h)

/-- Placing an instruction keeps the canonical form. -/
theorem placeAtFetch_wf (s : State) (bs : List Byte) (h : s.mem.wf = true) :
    (placeAtFetch s bs).mem.wf = true := Memory.wf_writeAll bs _ _ h

/-- A read after a write of the same byte, in a canonical memory. -/
theorem Memory.read_write_self (m : Memory) (i : Nat) (c : Byte) :
    ∀ {lo : Nat}, m.wfFrom lo = true → (m.write i c).read i = c := by
  induction m with
  | nil =>
    intro lo _
    by_cases hc : c = Memory.unlisted <;> simp [Memory.write, hc, Memory.read]
  | cons e rest ih =>
    intro lo h
    obtain ⟨a, b⟩ := e
    simp only [Memory.wfFrom, Bool.and_eq_true, decide_eq_true_eq] at h
    obtain ⟨_, h4⟩ := h
    unfold Memory.write
    split
    · next hlt =>
      split
      · next hc =>
        have hne : i ≠ a := by omega
        simp only [Memory.read, if_neg hne]
        rw [Memory.read_below rest h4 (by omega), hc]
      · simp [Memory.read]
    · split
      · next heq =>
        subst heq
        split
        · next hc => rw [Memory.read_below rest h4 (by omega), hc]
        · simp [Memory.read]
      · next hne =>
        simp only [Memory.read, if_neg hne]
        exact ih h4

/-- A write leaves every other byte alone. -/
theorem Memory.read_write_ne (m : Memory) {i j : Nat} (c : Byte) (h : j ≠ i) :
    (m.write i c).read j = m.read j := by
  induction m with
  | nil =>
    by_cases hc : c = Memory.unlisted <;> simp [Memory.write, hc, Memory.read, h]
  | cons e rest ih =>
    obtain ⟨a, b⟩ := e
    unfold Memory.write
    split
    · split <;> simp [Memory.read, h]
    · split
      · next heq =>
        subst heq
        split <;> simp [Memory.read, h]
      · by_cases hja : j = a <;> simp [Memory.read, hja, ih]

/-- The memory after reset is in canonical form. -/
theorem reset_mem_wf : State.reset.mem.wf = true := rfl

end Sys2Proof.Machine
end

