-- ==== Sys2Proof/Laws/PerInstr.lean ====
section
/-!
SUPPORT. Families of statements about every instruction, one lemma per constructor.
-/

namespace Sys2Proof.Laws

/-- The length that RIP-relative addressing and the advance of `pc` use is the number of bytes of the
encoding (30_encoding.md R50, R60). -/
def EncodeLength.Statement (i : Instr) : Prop := (encode i).length = i.len

theorem EncodeLength.vcvtph2psVex128 (pfx : List LegacyPrefix) (dst : BitVec 4) (src : Operand 4) :
    EncodeLength.Statement (.vcvtph2psVex128 pfx dst src) := encode_length _

theorem EncodeLength.vcvtph2psVex256 (pfx : List LegacyPrefix) (dst : BitVec 4) (src : Operand 4) :
    EncodeLength.Statement (.vcvtph2psVex256 pfx dst src) := encode_length _

theorem EncodeLength.vcvtph2psEvex128 (pfx : List LegacyPrefix) (dst : BitVec 5) (src : Operand 5)
    (mask : Mask) : EncodeLength.Statement (.vcvtph2psEvex128 pfx dst src mask) := encode_length _

theorem EncodeLength.vcvtph2psEvex256 (pfx : List LegacyPrefix) (dst : BitVec 5) (src : Operand 5)
    (mask : Mask) : EncodeLength.Statement (.vcvtph2psEvex256 pfx dst src mask) := encode_length _

theorem EncodeLength.vcvtph2psEvex512 (pfx : List LegacyPrefix) (dst : BitVec 5) (src : Operand 5)
    (mask : Mask) : EncodeLength.Statement (.vcvtph2psEvex512 pfx dst src mask) := encode_length _

theorem EncodeLength.vcvtph2psEvex512Sae (pfx : List LegacyPrefix) (dst src : BitVec 5)
    (mask : Mask) : EncodeLength.Statement (.vcvtph2psEvex512Sae pfx dst src mask) := encode_length _

end Sys2Proof.Laws
end

