-- ==== Sys2Proof/Tests/Slice0.lean ====
section
/-!
SUPPORT. The model's own tests. Expected values come from spec/95_test_vectors.md (the vector's name is
in the comment) or from the bit layouts of 30_encoding.md. A theorem named `witness_…` shows a state and
operands that meet the hypotheses of the obligation of that name.
-/

namespace Sys2Proof.Tests

open Sys2Proof.Machine

-- One theorem after another: each kernel evaluation has a stack of its own.
set_option Elab.async false

/-! ### Helpers -/

def nextState (o : Host.Outcome State Fault Refusal) : Option State :=
  match o with
  | .next t => some t
  | .fault _ => none
  | .refused _ => none

def faultOf (o : Host.Outcome State Fault Refusal) : Option (Exception × State) :=
  match o with
  | .next _ => none
  | .fault (.exception x t) => some (x, t)
  | .fault (.unwritten _ _) => none
  | .refused _ => none

/-- The register of a model fault (R121). -/
def unwrittenOf (o : Host.Outcome State Fault Refusal) : Option Reg :=
  match o with
  | .next _ => none
  | .fault (.exception _ _) => none
  | .fault (.unwritten r _) => some r
  | .refused _ => none

def refusalOf (o : Host.Outcome State Fault Refusal) : Option Refusal :=
  match o with
  | .next _ => none
  | .fault _ => none
  | .refused r => some r

theorem next_of_isSome {o : Host.Outcome State Fault Refusal} (h : (nextState o).isSome = true) :
    ∃ t, o = .next t := by
  cases o with
  | next t => exact ⟨t, rfl⟩
  | fault r => exact absurd h (by simp [nextState])
  | refused r => exact absurd h (by simp [nextState])

theorem fault_of_isSome {o : Host.Outcome State Fault Refusal} (h : (faultOf o).isSome = true) :
    ∃ x t, o = .fault (.exception x t) := by
  cases o with
  | next t => exact absurd h (by simp [faultOf])
  | fault r =>
    cases r with
    | exception x t => exact ⟨x, t, rfl⟩
    | unwritten r t => exact absurd h (by simp [faultOf])
  | refused r => exact absurd h (by simp [faultOf])

/-- The launched machine at `pc` = 1000h. -/
def start : State := { launch State.reset with pc := 0x1000 }

/-- The start with `v[r]` = `w`. -/
def withV (r : BitVec 5) (w : VWord) : State := start.setVreg r w

/-- Bytes in memory. -/
def put (s : State) (a : Word) (bs : List Byte) : State := { s with mem := s.mem.writeAll a bs }

/-- General register `r` holds `w`. -/
def setX (s : State) (r : GReg) (w : Word) : State := { s with x := s.x.set r.toNat w r.isLt }

/-- Opmask register `r` holds `w`. -/
def setK (s : State) (r : BitVec 3) (w : Word) : State := { s with k := s.k.set r.toNat w r.isLt }

def lane (s : State) (r : BitVec 5) (j : Nat) : Single := (s.vreg r).extractLsb' (32 * j) 32

def ones : VWord := BitVec.allOnes 512

/-- The address map of the fault vectors P1f to P6f: a not-present page at 11000h. -/
def holed (s : State) : State :=
  { s with plat := { s.plat with addressMap := [⟨0x11000, 0x1000, .page .notPresent⟩] } }

/-- The state of the fault vectors: RAX = 10FFCh, and an SNaN in lane 1. -/
def edge : State := setX (put (holed start) 0x10FFC [0x00, 0x3C, 0x01, 0x7C]) 0 0x10FFC

/-! ### WellFormed: each check refuses an ill-formed term -/

theorem test_wf_accepts :
    Instr.wf .effects .m64 (.vcvtph2psVex128 [] 15 (.mem (.base 13 (.d8 0)))) = true := by
  decide +kernel

/-- rm = 100b announces a SIB byte (R56). -/
theorem test_wf_base_needs_sib :
    Instr.wf .effects .m64 (.vcvtph2psVex128 [] 1 (.mem (.base 12 (.d8 0)))) = false := by
  decide +kernel

/-- `[r13]` needs mod = 01b (vector M7). -/
theorem test_wf_base_needs_displacement :
    Instr.wf .effects .m64 (.vcvtph2psVex128 [] 1 (.mem (.base 13 .none))) = false := by
  decide +kernel

theorem test_wf_sib_base_needs_displacement :
    Instr.wf .effects .m64 (.vcvtph2psVex256 [] 1 (.mem (.sib 5 none .none))) = false := by
  decide +kernel

/-- Register 4 is no index (R60). -/
theorem test_wf_index_four :
    Instr.wf .effects .m64 (.vcvtph2psVex256 [] 1 (.mem (.sib 0 (some ⟨4, 0⟩) .none))) = false := by
  decide +kernel

/-- In M32 registers 8 and up have no name (R12). -/
theorem test_wf_m32_registers :
    Instr.wf .effects .m32 (.vcvtph2psVex128 [] 8 (.reg 0)) = false ∧
      Instr.wf .effects .m32 (.vcvtph2psEvex128 [] 0 (.reg 8) ⟨0, false⟩) = false ∧
      Instr.wf .effects .m32 (.vcvtph2psVex128 [] 0 (.mem (.sib 0 (some ⟨9, 0⟩) .none))) = false := by
  decide +kernel

/-- The shapes of R62 belong to address size 16, the others do not. -/
theorem test_wf_address_size :
    Instr.wf .effects .m64 (.vcvtph2psVex128 [] 1 (.mem (.a16 0 .none))) = false ∧
      Instr.wf .effects .m64 (.vcvtph2psVex128 [] 1 (.mem (.abs16 0))) = false ∧
      Instr.wf .effects .m32 (.vcvtph2psVex128 [.addrSize] 1 (.mem (.disp32 0))) = false ∧
      Instr.wf .effects .m32 (.vcvtph2psVex128 [.addrSize] 1 (.mem (.index none 0))) = false ∧
      Instr.wf .effects .m32 (.vcvtph2psVex128 [.addrSize] 1 (.mem (.a16 6 .none))) = false := by
  decide +kernel

/-- z = 1 with aaa = 000b (R65 f). -/
theorem test_wf_zeroing_needs_mask :
    Instr.wf .effects .m64 (.vcvtph2psEvex512Sae [] 1 2 ⟨0, true⟩) = false := by decide +kernel

/-- 16 bytes (R50). -/
theorem test_wf_length :
    Instr.wf .effects .m64 (.vcvtph2psVex128 (List.replicate 11 (.seg .fs)) 1 (.reg 2)) = false := by
  decide +kernel

/-- D3's refusals, under `Policy.decisions` only. -/
theorem test_wf_decisions :
    Instr.wf .decisions .m64 (.vcvtph2psVex128 [.seg .fs, .seg .gs] 1 (.reg 2)) = false ∧
      Instr.wf .effects .m64 (.vcvtph2psVex128 [.seg .fs, .seg .gs] 1 (.reg 2)) = true ∧
      Instr.wf .decisions .m32 (.vcvtph2psVex128 [.addrSize] 1 (.reg 2)) = false := by
  decide +kernel

/-! ### Decoding: words written out from 30_encoding.md -/

/-- Vectors E1, E3, E4: VEX.128; X is ignored with a register source. -/
theorem test_decode_vex128 :
    decode .effects .m64 [0xC4, 0xE2, 0x79, 0x13, 0xCA] = .instr (.vcvtph2psVex128 [] 1 (.reg 2)) ∧
      decode .effects .m64 [0xC4, 0x42, 0x79, 0x13, 0xFF] =
        .instr (.vcvtph2psVex128 [] 15 (.reg 15)) ∧
      decode .effects .m64 [0xC4, 0xA2, 0x79, 0x13, 0xCA] =
        .instr (.vcvtph2psVex128 [] 1 (.reg 2)) := by
  decide +kernel

/-- Vectors E2, M4. -/
theorem test_decode_vex256 :
    decode .effects .m64 [0xC4, 0xE2, 0x7D, 0x13, 0xCA] = .instr (.vcvtph2psVex256 [] 1 (.reg 2)) ∧
      decode .effects .m64 [0xC4, 0xC2, 0x7D, 0x13, 0x88, 0x78, 0x56, 0x34, 0x12] =
        .instr (.vcvtph2psVex256 [] 1 (.mem (.base 8 (.d32 0x12345678)))) := by
  decide +kernel

/-- Vectors E5, F17, M10. -/
theorem test_decode_evex128 :
    decode .effects .m64 [0x62, 0xF2, 0x7D, 0x08, 0x13, 0xCA] =
        .instr (.vcvtph2psEvex128 [] 1 (.reg 2) ⟨0, false⟩) ∧
      decode .effects .m64 [0x62, 0xE2, 0x7D, 0x08, 0x13, 0xC2] =
        .instr (.vcvtph2psEvex128 [] 16 (.reg 2) ⟨0, false⟩) ∧
      decode .effects .m64 [0x62, 0xF2, 0x7D, 0x0A, 0x13, 0x48, 0x01] =
        .instr (.vcvtph2psEvex128 [] 1 (.mem (.base 0 (.d8 1))) ⟨2, false⟩) := by
  decide +kernel

/-- Vectors E6, M11. -/
theorem test_decode_evex256 :
    decode .effects .m64 [0x62, 0xF2, 0x7D, 0x28, 0x13, 0xCA] =
        .instr (.vcvtph2psEvex256 [] 1 (.reg 2) ⟨0, false⟩) ∧
      decode .effects .m64 [0x62, 0xF2, 0x7D, 0xAA, 0x13, 0x48, 0x01] =
        .instr (.vcvtph2psEvex256 [] 1 (.mem (.base 0 (.d8 1))) ⟨2, true⟩) := by
  decide +kernel

/-- Vectors E8, E9, M15. -/
theorem test_decode_evex512 :
    decode .effects .m64 [0x62, 0xF2, 0x7D, 0xC9, 0x13, 0xCA] =
        .instr (.vcvtph2psEvex512 [] 1 (.reg 2) ⟨1, true⟩) ∧
      decode .effects .m64 [0x62, 0x82, 0x7D, 0x4B, 0x13, 0xCE] =
        .instr (.vcvtph2psEvex512 [] 17 (.reg 30) ⟨3, false⟩) ∧
      decode .effects .m64 [0x62, 0xF2, 0x7D, 0x4F, 0x13, 0x0C, 0xC8] =
        .instr (.vcvtph2psEvex512 [] 1 (.mem (.sib 0 (some ⟨1, 3⟩) .none)) ⟨7, false⟩) := by
  decide +kernel

/-- Vectors E10, E13, E14. -/
theorem test_decode_sae :
    decode .effects .m64 [0x62, 0xF2, 0x7D, 0x18, 0x13, 0xCA] =
        .instr (.vcvtph2psEvex512Sae [] 1 2 ⟨0, false⟩) ∧
      decode .effects .m64 [0x62, 0xF2, 0x7D, 0x78, 0x13, 0xCA] =
        .instr (.vcvtph2psEvex512Sae [] 1 2 ⟨0, false⟩) ∧
      decode .effects .m64 [0x62, 0xF2, 0x7D, 0x9F, 0x13, 0xCA] =
        .instr (.vcvtph2psEvex512Sae [] 1 2 ⟨7, true⟩) := by
  decide +kernel

/-- R53's and R3's words of other instructions, and a word that ends early. -/
theorem test_decode_others :
    decode .effects .m64 [0xC5, 0xF9, 0x13, 0xCA] = .refused .otherInstruction ∧
      decode .effects .m64 [0xC4, 0xE2, 0x78, 0x13, 0xCA] = .refused .otherInstruction ∧
      decode .effects .m64 [0xC4, 0xE1, 0x79, 0x13, 0xCA] = .refused .otherInstruction ∧
      decode .effects .m64 [0xC4, 0xE2, 0x79, 0x12, 0xCA] = .refused .otherInstruction ∧
      decode .effects .m64 [0xC4, 0xE2, 0x79, 0x13] = .short := by
  decide +kernel

/-- Vectors M6 to M9: SIB with base RSP; B = 1 alone (base R13); X = 1 alone (index R12); no base. -/
theorem test_decode_address :
    decode .effects .m64 [0xC4, 0xE2, 0x79, 0x13, 0x0C, 0x24] =
        .instr (.vcvtph2psVex128 [] 1 (.mem (.sib 4 none .none))) ∧
      decode .effects .m64 [0xC4, 0xC2, 0x79, 0x13, 0x4D, 0x00] =
        .instr (.vcvtph2psVex128 [] 1 (.mem (.base 13 (.d8 0)))) ∧
      decode .effects .m64 [0xC4, 0xA2, 0x79, 0x13, 0x0C, 0x60] =
        .instr (.vcvtph2psVex128 [] 1 (.mem (.sib 0 (some ⟨12, 1⟩) .none))) ∧
      decode .effects .m64 [0xC4, 0xE2, 0x79, 0x13, 0x0C, 0x25, 0x00, 0x10, 0x00, 0x00] =
        .instr (.vcvtph2psVex128 [] 1 (.mem (.index none 0x1000))) := by
  decide +kernel

/-- A table word in either numbering. -/
theorem test_table_word :
    decodeTableWord 40 0xCA1379E2C4 = some (.vcvtph2psVex128 [] 1 (.reg 2)) ∧
      decodeTableWord 40 0xC4E27913CA = some (.vcvtph2psVex128 [] 1 (.reg 2)) := by
  decide +kernel

/-! ### The conversion, with R83's own NaNs: vectors T3, T10, T12, T27, T30, T33, T36, T40 -/

theorem test_convert :
    vCvtH2s [] 0x0001 = (0x33800000, false) ∧ vCvtH2s [] 0x03FF = (0x387FC000, false) ∧
      vCvtH2s [] 0x0400 = (0x38800000, false) ∧ vCvtH2s [] 0x7BFF = (0x477FE000, false) ∧
      vCvtH2s [] 0xFC00 = (0xFF800000, false) ∧ vCvtH2s [] 0x7E01 = (0x7FC02000, false) ∧
      vCvtH2s [] 0x7C01 = (0x7FC02000, true) ∧ vCvtH2s [] 0xFD55 = (0xFFEAA000, true) := by
  decide +kernel

/-- A configured `nanConv` (R4, D12): a quiet NaN of the input's sign counts, another value does not. -/
theorem test_nan_configured :
    vCvtH2s [(0x7C01, 0x7FC00000)] 0x7C01 = (0x7FC00000, true) ∧
      vCvtH2s [(0x7C01, 0xFFC00000), (0x7C01, 0x7F800001)] 0x7C01 = (0x7FC02000, true) := by
  decide +kernel

/-! ### One step -/

/-- R3 (a): fifteen segment overrides before a NOP are no VCVTPH2PS, even under a breakpoint; sixteen
bytes that are VCVTPH2PS raise `#GP(0)` (R50). -/
theorem test_step_refuses_others :
    refusalOf (step { placeAtFetch start (List.replicate 15 0x26 ++ [0x90]) with
        dr := #v[⟨.exec, 0x1000⟩, ⟨.off, 0⟩, ⟨.off, 0⟩, ⟨.off, 0⟩] }) =
          some (.encoding .otherInstruction) ∧
      refusalOf (step (placeAtFetch start (List.replicate 14 0x26 ++ [0xC4, 0xE1]))) =
        some (.encoding .otherInstruction) ∧
      (faultOf (step (placeAtFetch start (List.replicate 11 0x26 ++ [0xC4, 0xE2, 0x79, 0x13, 0xCA])))).map
        (fun p => p.1) = some .gp := by
  decide +kernel

/-- R121: an unwritten source is a model fault; an unwritten destination is written, and read only
where a lane is kept; an unwritten MXCSR is read only when Invalid is signalled. -/
theorem test_step_unwritten :
    unwrittenOf (step { placeAtFetch (withV 2 0x3C00) [0xC4, 0xE2, 0x79, 0x13, 0xCA] with
        unwritten := [.vec 2] }) = some (.vec 2) ∧
      (nextState (step { placeAtFetch (withV 2 0x3C00) [0xC4, 0xE2, 0x79, 0x13, 0xCA] with
        unwritten := [.vec 1, .mxcsr] })).map (fun t => (lane t 1 0, t.unwritten)) =
          some (0x3F800000, [.mxcsr]) ∧
      unwrittenOf (step { placeAtFetch (setK (withV 2 0x3C00) 1 1) [0x62, 0xF2, 0x7D, 0x09, 0x13, 0xCA] with
        unwritten := [.vec 1] }) = some (.vec 1) ∧
      unwrittenOf (step { placeAtFetch (withV 2 0x7C01) [0xC4, 0xE2, 0x79, 0x13, 0xCA] with
        unwritten := [.mxcsr] }) = some .mxcsr := by
  decide +kernel

/-- Vector F1: upper bits zeroed, source bits above 64 ignored. -/
theorem test_step_vex128 :
    (nextState (step (placeAtFetch ((withV 1 ones).setVreg 2 0x7E0003FF80007C007BFF0001C0003C00)
      [0xC4, 0xE2, 0x79, 0x13, 0xCA]))).map (fun t => (t.vreg 1, t.pc, t.mxcsr)) =
      some (0x477FE00033800000C00000003F800000, 0x1005, 0x1F80) := by
  decide +kernel

/-- Vector X2: an unmasked Invalid. -/
theorem test_step_vex128_unmasked :
    (faultOf (step { placeAtFetch (withV 2 0xFD5540007C013C00) [0xC4, 0xE2, 0x79, 0x13, 0xCA] with
      mxcsr := 0x1F00 })).map (fun p => (p.1, p.2.vreg 1, p.2.pc, p.2.mxcsr)) =
      some (.xm, 0, 0x1000, 0x1F01) := by
  decide +kernel

/-- Vector M3: a SIB operand, little-endian. -/
theorem test_step_vex256_memory :
    (nextState (step (placeAtFetch (setX (setX (put start 0x200D0
      [0x01, 0x00, 0xFF, 0x03, 0x00, 0x04, 0xFF, 0x7B, 0x00, 0x80, 0x00, 0xFC, 0x00, 0x7E, 0x55, 0x35])
      3 0x20000) 1 0x30) [0xC4, 0x62, 0x7D, 0x13, 0x4C, 0x8B, 0x10]))).map
        (fun t => (t.vreg 9, t.pc)) =
      some (0x3EAAA0007FC00000FF80000080000000477FE00038800000387FC00033800000, 0x1007) := by
  decide +kernel

/-- Vector F15: the destination is the source. -/
theorem test_step_vex256_same :
    (nextState (step (placeAtFetch (withV 1 0x7E0003FF80007C007BFF0001C0003C00)
      [0xC4, 0xE2, 0x7D, 0x13, 0xC9]))).map (fun t => t.vreg 1) =
      some 0x7FC00000387FC000800000007F800000477FE00033800000C00000003F800000 := by
  decide +kernel

/-- Vector F6: mask bits above the lanes are not read; the upper bits are not preserved. -/
theorem test_step_evex128_merge :
    (nextState (step (placeAtFetch (setK ((withV 1 ones).setVreg 2 0x7BFF0001C0003C00) 2 0xFFF5)
      [0x62, 0xF2, 0x7D, 0x0A, 0x13, 0xCA]))).map (fun t => (t.vreg 1, t.pc)) =
      some (0xFFFFFFFF33800000FFFFFFFF3F800000, 0x1006) := by
  decide +kernel

/-- Vector P2f: the bytes of inactive lanes are not checked; Invalid is masked. -/
theorem test_step_evex128_suppressed :
    (nextState (step (placeAtFetch (setK (edge.setVreg 4 ones) 3 3)
      [0x62, 0xF2, 0x7D, 0x0B, 0x13, 0x20]))).map (fun t => (t.vreg 4, t.mxcsr)) =
      some (0xFFFFFFFFFFFFFFFF7FC020003F800000, 0x1F81) := by
  decide +kernel

/-- Vector F8: zeroing-masking. -/
theorem test_step_evex256_zero :
    (nextState (step (placeAtFetch (setK ((withV 1 ones).setVreg 2
      0x7E0003FF80007C007BFF0001C0003C00) 1 0xF0) [0x62, 0xF2, 0x7D, 0xA9, 0x13, 0xCA]))).map
        (fun t => t.vreg 1) =
      some 0x7FC00000387FC000800000007F80000000000000000000000000000000000000 := by
  decide +kernel

/-- Vector P3f at 256 bits: the one active lane's bytes page-fault; CR2 receives the address. -/
theorem test_step_evex256_page_fault :
    (faultOf (step (placeAtFetch (setK edge 3 4) [0x62, 0xF2, 0x7D, 0x2B, 0x13, 0x20]))).map
        (fun p => (p.1, p.1.vector, p.2.cr2, p.2.pc, p.2.mxcsr)) =
      some (.pf 0 0x11000, 14, 0x11000, 0x1000, 0x1F80) := by
  decide +kernel

/-- Vector F10: merging-masking of sixteen lanes. -/
theorem test_step_evex512_merge :
    (nextState (step (placeAtFetch (setK ((withV 1 ones).setVreg 2
      0x7FFF800156404248FBFF0400FC0035557E0003FF80007C007BFF0001C0003C00) 1 0x8001)
      [0x62, 0xF2, 0x7D, 0x49, 0x13, 0xCA]))).map
        (fun t => (lane t 1 0, lane t 1 1, lane t 1 14, lane t 1 15)) =
      some (0x3F800000, 0xFFFFFFFF, 0xFFFFFFFF, 0x7FFFE000) := by
  decide +kernel

/-- Vector M13: a negative disp8 scaled by 32. -/
theorem test_step_evex512_disp8 :
    (nextState (step (placeAtFetch (setX (put start 0xFFE0 [0x00, 0x3C, 0x00, 0xC0]) 0 0x10000)
      [0x62, 0xF2, 0x7D, 0x48, 0x13, 0x48, 0xFF]))).map (fun t => (lane t 1 0, lane t 1 1, t.pc)) =
      some (0x3F800000, 0xC0000000, 0x1007) := by
  decide +kernel

/-- Vector X7: suppress-all-exceptions with Invalid unmasked. -/
theorem test_step_sae :
    (nextState (step { placeAtFetch (withV 2 0xFD5540007C013C00) [0x62, 0xF2, 0x7D, 0x18, 0x13, 0xCA]
      with mxcsr := 0x1F00 })).map (fun t => (t.vreg 1, t.mxcsr)) =
      some (0xFFEAA000400000007FC020003F800000, 0x1F00) := by
  decide +kernel

/-! ### Witnesses: encoding -/

theorem witness_DecodeOfEncode :
    Instr.wf .effects .m64 (.vcvtph2psEvex512 [.seg .gs] 31 (.mem (.sib 12 (some ⟨15, 3⟩) (.d32 8)))
        ⟨7, true⟩) = true ∧
      Instr.wf .decisions .m32 (.vcvtph2psVex128 [.seg .ss] 7 (.mem (.base 7 (.d8 0xFF)))) = true := by
  decide +kernel

theorem witness_DecodedIsWellFormed :
    decode .effects .m32 [0x67, 0xC4, 0xE2, 0x79, 0x13, 0x46, 0x80, 0x90] =
      .instr (.vcvtph2psVex128 [.addrSize] 0 (.mem (.a16 6 (.d8 0x80)))) := by
  decide +kernel

/-- In M64 any top bits; in M32 11b, with B stored 0. A register source after ten prefixes, and a memory
source of vectors M4, M7, M8 and M9 after as many as make 15 bytes; at address size 16 the two ends of
`mod`. -/
theorem witness_VexRowsDecode :
    (field (0x02 : Byte) 0 5 = 2 ∧ field (0xC2 : Byte) 0 5 = 2 ∧ field (0xC2 : Byte) 6 2 = 3) ∧
      (field (0xCA : Byte) 6 2 = 3 ∧ 10 + 5 + 0 ≤ 15) ∧
      (tableOperand false false true 2 0 0x78 0x56 0x34 0x12 0 = (.base 8 (.d32 0x12345678), 4) ∧
        6 + 5 + 4 ≤ 15) ∧
      tableOperand false false true 1 5 0x00 0 0 0 0 = (.base 13 (.d8 0), 1) ∧
      tableOperand false true false 0 4 0x60 0 0 0 0 = (.sib 0 (some ⟨12, 1⟩) .none, 1) ∧
      (tableOperand false false false 0 4 0x25 0x00 0x10 0x00 0x00 = (.index none 0x1000, 5) ∧
        5 + 5 + 5 ≤ 15) ∧
      tableOperand true false false 0 6 0x34 0x12 0 0 0 = (.abs16 0x1234, 2) ∧
      tableOperand true false false 2 6 0x34 0x12 0 0 0 = (.a16 6 (.d16 0x1234), 2) := by
  decide +kernel

/-- In M64 any top bits; in M32 11b, with B and R' stored 0; each L'L; zeroing with a mask; a memory
source of vectors M13, M14 and M15, of 10 bytes after five prefixes. -/
theorem witness_EvexRowsDecode :
    (field (0x02 : Byte) 0 4 = 2 ∧ field (0xC2 : Byte) 0 4 = 2 ∧ field (0xC2 : Byte) 6 2 = 3) ∧
      ((0 : BitVec 2) ≠ 3 ∧ (1 : BitVec 2) ≠ 3 ∧ (2 : BitVec 2) ≠ 3) ∧
      (true = true → (1 : BitVec 3) ≠ 0) ∧
      (field (0xCE : Byte) 6 2 = 3 ∧ 9 + 6 + 0 ≤ 15) ∧
      tableOperand false false false 1 0 0xFF 0 0 0 0 = (.base 0 (.d8 0xFF), 1) ∧
      (tableOperand false false false 2 0 0x41 0 0 0 0 = (.base 0 (.d32 0x41), 4) ∧ 5 + 6 + 4 ≤ 15) ∧
      tableOperand false false false 0 4 0xC8 0 0 0 0 = (.sib 0 (some ⟨1, 3⟩) .none, 1) := by
  decide +kernel

theorem witness_SaeIgnoresVectorLength :
    (List.replicate 9 (LegacyPrefix.seg .ds)).length ≤ 9 ∧ field (0x02 : Byte) 0 4 = 2 ∧
      (field (0xC2 : Byte) 0 4 = 2 ∧ field (0xC2 : Byte) 6 2 = 3) ∧
      (true = true → (7 : BitVec 3) ≠ 0) := by
  decide +kernel

/-- Row a, then row b by a low bit of vvvv and, in M64, by its top bit; P1 for each mode; the most
prefixes with a memory and with a register source. -/
theorem witness_VexReservedFieldsInvalid :
    (field (0x02 : Byte) 0 5 = 2 ∧ field (0xE2 : Byte) 0 5 = 2 ∧ field (0xE2 : Byte) 6 2 = 3) ∧
      5 ≤ ([0, 0, 0, 0, 0] : List Byte).length ∧
      ((List.replicate 5 LegacyPrefix.addrSize).length ≤
          (if field (0x08 : Byte) 6 2 = 3 then 10 else 5) ∧
        (List.replicate 10 LegacyPrefix.addrSize).length ≤
          (if field (0xCA : Byte) 6 2 = 3 then 10 else 5)) ∧
      (field (0xF9 : Byte) 0 2 = 1 ∧ (0xF9 : Byte).getLsbD 7 = true) ∧
      (field (0x71 : Byte) 0 2 = 1 ∧ field (0x71 : Byte) 3 3 ≠ 7) ∧
      (field (0x39 : Byte) 0 2 = 1 ∧ (0x39 : Byte).getLsbD 6 = false) := by
  decide +kernel

/-- One word for each row a to g: vectors I2, I4, I5, I6, I7, I8, I9, I10, I12, and vvvv by its top bit;
P0 for each mode; the most prefixes with a memory and with a register source. -/
theorem witness_EvexReservedFieldsInvalid :
    (field (0x02 : Byte) 0 2 = 2 ∧ field (0xF2 : Byte) 0 2 = 2 ∧ field (0xF2 : Byte) 6 2 = 3) ∧
      5 ≤ ([0, 0, 0, 0, 0] : List Byte).length ∧
      ((List.replicate 4 LegacyPrefix.addrSize).length ≤
          (if field (0x08 : Byte) 6 2 = 3 then 9 else 4) ∧
        (List.replicate 9 LegacyPrefix.addrSize).length ≤
          (if field (0xCA : Byte) 6 2 = 3 then 9 else 4)) ∧
      (field (0xFD : Byte) 0 2 = 1 ∧ (0xFD : Byte).getLsbD 7 = true) ∧
      (field (0x75 : Byte) 0 2 = 1 ∧ field (0x75 : Byte) 3 3 ≠ 7) ∧
      (field (0x3D : Byte) 0 2 = 1 ∧ (0x3D : Byte).getLsbD 6 = false) ∧
      (field (0x7D : Byte) 0 2 = 1 ∧ (0x00 : Byte).getLsbD 3 = false) ∧
      (field (0x68 : Byte) 5 2 = 3 ∧ (0x68 : Byte).getLsbD 4 = false) ∧
      (field (0x78 : Byte) 5 2 = 3 ∧ field (0x08 : Byte) 6 2 ≠ 3) ∧
      ((0x18 : Byte).getLsbD 4 = true ∧ field (0x08 : Byte) 6 2 ≠ 3) ∧
      ((0x88 : Byte).getLsbD 7 = true ∧ field (0x88 : Byte) 0 3 = 0) ∧
      (field (0xF6 : Byte) 0 2 = 2 ∧ field (0xF6 : Byte) 6 2 = 3 ∧ field (0xF6 : Byte) 2 2 ≠ 0) ∧
      (field (0x79 : Byte) 0 2 = 1 ∧ (0x79 : Byte).getLsbD 2 = false) := by
  decide +kernel

/-- At a length of exactly 15 with it: in the middle of nine legacy prefixes, 67h among them; with a REX
byte at either end of its range. -/
theorem witness_ForbiddenPrefixInvalid :
    let i : Instr := .vcvtph2psVex128 (.addrSize :: List.replicate 8 (.seg .ds)) 1 (.reg 2)
    i.wf .effects .m64 = true ∧ i.wf .effects .m32 = true ∧ 5 ≤ i.pfx.length ∧ 9 ≤ i.pfx.length ∧
      1 + i.len ≤ 15 ∧
      (0x40 ≤ (0x40 : Byte).toNat ∧ (0x4F : Byte).toNat ≤ 0x4F) := by
  decide +kernel

theorem witness_M32LesAndBoundAreNotVcvtph2ps :
    ((0xC4 : Byte) = 0xC4 ∨ (0xC4 : Byte) = 0x62) ∧ field (0xBF : Byte) 6 2 ≠ 3 ∧
      field (0x00 : Byte) 6 2 ≠ 3 := by
  decide +kernel

/-- A repeated 67h, one 67h, and in M32 each extension bit 0. -/
theorem witness_DecisionsRefuse :
    (Instr.wf .effects .m32 (.vcvtph2psVex128 [.addrSize, .addrSize] 1 (.reg 2)) = true ∧
      repeatedPrefix [.addrSize, .addrSize] = true) ∧
      (Instr.wf .effects .m32 (.vcvtph2psVex128 [.addrSize] 1 (.reg 2)) = true ∧
        repeatedPrefix [.addrSize] = false ∧ LegacyPrefix.addrSize ∈ [LegacyPrefix.addrSize]) ∧
      (repeatedPrefix [.seg .fs] = false ∧ LegacyPrefix.addrSize ∉ [LegacyPrefix.seg .fs] ∧
        5 ≤ ([0, 0, 0, 0, 0] : List Byte).length) ∧
      (field (0xC2 : Byte) 6 2 = 3 ∧ field (0xC2 : Byte) 0 5 = 2 ∧ field (0x79 : Byte) 0 2 = 1 ∧
        (0xC2 : Byte).getLsbD 5 = false) ∧
      (field (0xD2 : Byte) 6 2 = 3 ∧ field (0xD2 : Byte) 0 2 = 2 ∧ field (0x7D : Byte) 0 2 = 1 ∧
        (0xD2 : Byte).getLsbD 5 = false) ∧
      (field (0xE2 : Byte) 6 2 = 3 ∧ (0xE2 : Byte).getLsbD 4 = false ∧
        (0x00 : Byte).getLsbD 3 = false) := by
  decide +kernel

/-- An instruction of M32 with B stored 0, under each prefix. -/
theorem witness_IgnoredBitsInM32 :
    (field (0xC2 : Byte) 6 2 = 3 ∧ decode .effects .m32 [0xC4, 0xC2, 0x79, 0x13, 0xCA] =
        .instr (.vcvtph2psVex128 [] 1 (.reg 2))) ∧
      decode .effects .m32 [0x62, 0xC2, 0x7D, 0x08, 0x13, 0xCA] =
        .instr (.vcvtph2psEvex128 [] 1 (.reg 2) ⟨0, false⟩) := by
  decide +kernel

/-! ### Witnesses: the step -/

/-- Vector F1's instruction at `pc`. -/
def running : State := placeAtFetch (withV 2 0x7BFF0001C0003C00) [0xC4, 0xE2, 0x79, 0x13, 0xCA]

theorem witness_StepRunsDecoded :
    decodeAt running = .instr (.vcvtph2psVex128 [] 1 (.reg 2)) ∧ breaksBefore running = false ∧
      trapsAfter running (.vcvtph2psVex128 [] 1 (.reg 2)) = false := by
  decide +kernel

theorem witness_StepRunsStoredInstruction :
    Instr.wf running.plat.policy running.mode (.vcvtph2psVex128 [] 1 (.reg 2)) = true ∧
      Holds running (.vcvtph2psVex128 [] 1 (.reg 2)) ∧ breaksBefore running = false ∧
      trapsAfter running (.vcvtph2psVex128 [] 1 (.reg 2)) = false := by
  unfold Holds
  decide +kernel

/-- Eleven FS prefixes: 16 bytes. -/
def tooLong : Instr := .vcvtph2psVex128 (List.replicate 11 (.seg .fs)) 1 (.reg 2)

theorem witness_TooLongStepFaults :
    let s := placeAtFetch start (encode tooLong)
    s.plat.policy = .effects ∧ tooLong.operandsWf s.mode = true ∧ 15 < tooLong.len ∧
      tooLong.len ≤ 2 ^ 64 ∧ Holds s tooLong ∧ breaksBefore s = false := by
  unfold Holds
  decide +kernel

/-- Vector I3. -/
theorem witness_InvalidEncodingStepFaults :
    decodeAt (placeAtFetch start [0xC4, 0xE2, 0x71, 0x13, 0xCA]) = .invalid ∧
      breaksBefore (placeAtFetch start [0xC4, 0xE2, 0x71, 0x13, 0xCA]) = false := by
  decide +kernel

/-- The instruction of `running` with its last byte on a page of the given answer. -/
def cut (what : Admit) : State :=
  put { start with pc := 0x10FFC, plat := { start.plat with addressMap := [⟨0x11000, 0x1000, what⟩] } }
    0x10FFC [0xC4, 0xE2, 0x79, 0x13]

theorem witness_FetchFaultIsReported :
    let i : Instr := .vcvtph2psVex128 [] 1 (.reg 2)
    let s := cut (.page .notPresent)
    Instr.wf s.plat.policy s.mode i = true ∧ 4 < i.len ∧
      (∀ c < 4, fetchCheck s c = .ok ∧ (encode i)[c]? = some (fetchByte s c)) ∧
      fetchCheck s 4 = .exc (.pf 16 0x11000) := by
  decide +kernel

/-- Seventeen overrides before a NOP, and the two-byte VEX prefix. -/
theorem witness_OtherInstructionRefused :
    (let pre := List.replicate 17 (LegacyPrefix.seg .es)
     let s := placeAtFetch start (pre.map LegacyPrefix.byte ++ [0x90])
     pre.length < 2 ^ 64 ∧
      (∀ c < pre.length + 1, fetchCheck s c = .ok ∧
        (pre.map LegacyPrefix.byte ++ [0x90])[c]? = some (fetchByte s c)) ∧
      isPrefixByte s.mode 0x90 = false ∧ (0x90 : Byte) ≠ 0xC4 ∧ (0x90 : Byte) ≠ 0x62) ∧
      decodeAt (placeAtFetch start [0xC5, 0xF9, 0x13, 0xCA]) = .refused .otherInstruction ∧
      (field (0xE1 : Byte) 0 5 ≠ 2 ∧ field (0x78 : Byte) 0 2 ≠ 1 ∧ field (0xF1 : Byte) 0 2 ≠ 2) := by
  decide +kernel

theorem witness_InstructionBreakpointFaults :
    let s := { running with dr := #v[⟨.off, 0⟩, ⟨.off, 0⟩, ⟨.off, 0⟩, ⟨.exec, 0x1000⟩] }
    s.plat.policy = .effects ∧ decodeAt s = .instr (.vcvtph2psVex128 [] 1 (.reg 2)) ∧
      ∃ d ∈ s.dr.toList, d.kind = .exec ∧ d.addr = linear s .cs (fetchOffset s 0) := by
  decide +kernel

/-- A memory form at `pc` whose operand begins at 10000h, with a read/write breakpoint. -/
def watching (a : Word) : State :=
  { placeAtFetch (setX start 0 0x10000) [0xC4, 0xE2, 0x79, 0x13, 0x08] with
    dr := #v[⟨.readWrite, a⟩, ⟨.off, 0⟩, ⟨.off, 0⟩, ⟨.off, 0⟩] }

/-- Single-step, with an instruction breakpoint on the next instruction; a read/write breakpoint on the
operand's last byte; and, with neither, one on the byte after it. -/
theorem witness_DebugTrapFollowsCompletion :
    (let s := { running with
        rflags := 0x102, dr := #v[⟨.exec, 0x1005⟩, ⟨.off, 0⟩, ⟨.off, 0⟩, ⟨.off, 0⟩] }
     s.plat.policy = .effects ∧ decodeAt s = .instr (.vcvtph2psVex128 [] 1 (.reg 2)) ∧
      (∀ d ∈ s.dr.toList, d.kind = .exec → d.addr ≠ linear s .cs (fetchOffset s 0)) ∧
      (∃ t, exec (.vcvtph2psVex128 [] 1 (.reg 2)) s = .next t) ∧ s.rflags.getLsbD 8 = true) ∧
    (let s := watching 0x10007
     let o : MemOp := .base 0 .none
     let i : Instr := .vcvtph2psVex128 [] 1 (.mem o)
     s.plat.policy = .effects ∧ decodeAt s = .instr i ∧
      (∀ d ∈ s.dr.toList, d.kind = .exec → d.addr ≠ linear s .cs (fetchOffset s 0)) ∧
      (∃ t, exec i s = .next t) ∧
      ∃ d ∈ s.dr.toList, d.kind = .readWrite ∧ i.source = .mem o ∧ 7 < 2 * lanes i ∧
        byteActive i s 7 = true ∧ d.addr = linear s (refOf i o s).seg ((refOf i o s).ea + 7)) ∧
    (let s := watching 0x10008
     let i : Instr := .vcvtph2psVex128 [] 1 (.mem (.base 0 .none))
     decodeAt s = .instr i ∧ s.rflags.getLsbD 8 = false ∧
      ¬ ∃ d ∈ s.dr.toList, d.kind = .readWrite ∧ ∃ o b, i.source = .mem o ∧ b < 2 * lanes i ∧
        byteActive i s b = true ∧ d.addr = linear s (refOf i o s).seg ((refOf i o s).ea + b)) := by
  refine ⟨⟨?_, ?_, ?_, next_of_isSome ?_, ?_⟩, ⟨?_, ?_, ?_, next_of_isSome ?_, ?_⟩, ⟨?_, ?_, ?_⟩⟩
  on_goal 13 =>
    rintro ⟨d, hd, hk, o, b, ho, hb, -, ha⟩
    obtain rfl : MemOp.base 0 .none = o := Operand.mem.inj ho
    have none : ∀ b < 8, ∀ d ∈ (watching 0x10008).dr.toList, d.kind = .readWrite → d.addr ≠
        linear (watching 0x10008)
          (refOf (.vcvtph2psVex128 [] 1 (.mem (.base 0 .none))) (.base 0 .none) (watching 0x10008)).seg
          ((refOf (.vcvtph2psVex128 [] 1 (.mem (.base 0 .none))) (.base 0 .none)
            (watching 0x10008)).ea + b) := by
      decide +kernel
    exact none b hb d hd hk ha
  all_goals decide +kernel

theorem witness_LaunchedWordRuns :
    40 ≤ 120 ∧ decodeTableWord 40 0xCA1379E2C4 = some (.vcvtph2psVex128 [] 1 (.reg 2)) := by
  decide +kernel

/-! ### Witnesses: results -/

/-- A memory operand whose last byte is the last before the page that is not present. -/
def ready : State := setX (put (holed start) 0x10FF8 [0x00, 0x3C, 0x01, 0x7C]) 0 0x10FF8

/-- Nothing is unwritten where no register is marked. -/
theorem allWritten_of_nil {i : Instr} {s : State} (h : s.unwritten = []) : AllWritten i s := by
  simp [AllWritten, OperandWritten, h]

theorem operandWritten_of_nil {i : Instr} {s : State} (h : s.unwritten = []) : OperandWritten i s :=
  (allWritten_of_nil h).1

theorem witness_Vex128Result :
    enabled .vex128 ready = true ∧ ready.ts = false ∧
      OperandReady (.vcvtph2psVex128 [] 1 (.mem (.base 0 .none))) ready ∧
      AllWritten (.vcvtph2psVex128 [] 1 (.mem (.base 0 .none))) ready ∧ ready.im = true := by
  refine ⟨by decide +kernel, by decide +kernel, ?_, allWritten_of_nil rfl, by decide +kernel⟩
  show Fits _ _ _ ∧ ∀ b < 2 * lanes _, byteActive _ _ b = true → byteCheck _ _ _ b = .ok
  unfold Fits
  decide +kernel

theorem witness_Vex256Result :
    let s := { running with mxcsr := 0x1F00 }
    enabled .vex256 s = true ∧ s.ts = false ∧
      OperandReady (.vcvtph2psVex256 [] 1 (.reg 2)) s ∧ AllWritten (.vcvtph2psVex256 [] 1 (.reg 2)) s ∧
      ¬ Signals (.vcvtph2psVex256 [] 1 (.reg 2)) s := by
  refine ⟨by decide +kernel, by decide +kernel, trivial, allWritten_of_nil rfl, ?_⟩
  unfold Signals
  decide +kernel

/-- One memory operand for each form, the last byte just before the page that is not present. -/
theorem witness_EvexResults :
    let src : Operand 5 := .mem (.base 0 .none)
    (enabled .evex128 ready = true ∧ enabled .evex256 ready = true ∧
      enabled .evex512 ready = true ∧ ready.ts = false ∧ ready.im = true) ∧
    (OperandReady (.vcvtph2psEvex128 [] 1 src ⟨0, false⟩) ready ∧
      AllWritten (.vcvtph2psEvex128 [] 1 src ⟨0, false⟩) ready) ∧
    (OperandReady (.vcvtph2psEvex256 [] 1 src ⟨0, false⟩) (setX ready 0 0x10FF0) ∧
      AllWritten (.vcvtph2psEvex256 [] 1 src ⟨0, false⟩) (setX ready 0 0x10FF0)) ∧
    (OperandReady (.vcvtph2psEvex512 [] 1 src ⟨1, true⟩) (setK ready 1 0xF) ∧
      AllWritten (.vcvtph2psEvex512 [] 1 src ⟨1, true⟩) (setK ready 1 0xF)) := by
  refine ⟨by decide +kernel, ⟨?_, allWritten_of_nil rfl⟩, ⟨?_, allWritten_of_nil rfl⟩,
    ⟨?_, allWritten_of_nil rfl⟩⟩ <;>
    (show Fits _ _ _ ∧ ∀ b < 2 * lanes _, byteActive _ _ b = true → byteCheck _ _ _ b = .ok) <;>
    unfold Fits <;> decide +kernel

theorem witness_SaeResult :
    enabled .evex512 running = true ∧ running.ts = false ∧
      AllWritten (.vcvtph2psEvex512Sae [] 1 2 ⟨1, false⟩) running :=
  ⟨by decide +kernel, by decide +kernel, allWritten_of_nil rfl⟩

theorem witness_UpperBitsZeroed : ∃ t, exec (.vcvtph2psVex128 [] 1 (.reg 2)) running = .next t :=
  next_of_isSome (by decide +kernel)

/-! ### Witnesses: the conversion -/

/-- The largest finite input and both zeros (vectors T1 and T2), an infinity. -/
theorem witness_ConversionExact :
    halfExp 0x7BFF ≠ 31 ∧ (halfExp 0x0000 ≠ 31 ∧ vCvtH2s [] 0x0000 = (0x00000000, false)) ∧
      (halfExp 0x8000 ≠ 31 ∧ vCvtH2s [] 0x8000 = (0x80000000, false)) ∧
      (halfExp 0xFC00 = 31 ∧ halfFrac 0xFC00 = 0) ∧ isNaN16 0x7C00 = false := by
  decide +kernel

/-- The quiet NaN of the smallest payload, the signalling NaNs of the smallest and largest payload. -/
theorem witness_NanInputs :
    (isNaN16 0x7E00 = true ∧ (0x7E00 : Half).getLsbD 9 = true) ∧
      (isNaN16 0x7C01 = true ∧ (0x7C01 : Half).getLsbD 9 = false) ∧
      (isNaN16 0xFDFF = true ∧ (0xFDFF : Half).getLsbD 9 = false) ∧
      (vCvtH2s [] 0xFE00).1 = 0xFFC00000 := by
  decide +kernel

theorem witness_ConversionInjective :
    (isNaN16 0x8000 = false ∧ isNaN16 0x7C00 = false) ∧
      (isNaN16 0x7C01 = true ∧ isNaN16 (0x7C01 ^^^ 0x200) = true) := by
  decide +kernel

/-! ### Witnesses: Invalid and the exceptions -/

/-- Vector X2, and with CR4.OSXMMEXCPT = 0 vector X3. -/
def signalling : State := { withV 2 0xFD5540007C013C00 with mxcsr := 0x1F00 }

theorem witness_UnmaskedInvalidFaults :
    Instr.sae (.vcvtph2psVex128 [] 1 (.reg 2)) = false ∧ enabled .vex128 signalling = true ∧
      signalling.ts = false ∧ OperandReady (.vcvtph2psVex128 [] 1 (.reg 2)) signalling ∧
      OperandWritten (.vcvtph2psVex128 [] 1 (.reg 2)) signalling ∧
      Reg.mxcsr ∉ signalling.unwritten ∧
      Signals (.vcvtph2psVex128 [] 1 (.reg 2)) signalling ∧ signalling.mxcsr.getLsbD 7 = false := by
  refine ⟨by decide +kernel, by decide +kernel, by decide +kernel, trivial, operandWritten_of_nil rfl,
    by decide +kernel, ?_, by decide +kernel⟩
  unfold Signals
  decide +kernel

/-- Vector X9's MXCSR against the reset value: the same IM. -/
theorem witness_OnlyMaskBitOfMxcsrRead :
    (0xFFC0 : BitVec 32).getLsbD 7 = running.mxcsr.getLsbD 7 ∧
      ∃ t, exec (.vcvtph2psVex128 [] 1 (.reg 2)) running = .next t :=
  ⟨by decide +kernel, next_of_isSome (by decide +kernel)⟩

/-- The denormals at both ends of their range; a completion and an unmasked Invalid. -/
theorem witness_DenormalInputs :
    (isDenormal16 0x0001 = true ∧ isDenormal16 0x83FF = true) ∧
      (∃ t, exec (.vcvtph2psVex128 [] 1 (.reg 2)) running = .next t) ∧
      ∃ x t, exec (.vcvtph2psVex128 [] 1 (.reg 2)) signalling = .fault (.exception x t) :=
  ⟨by decide +kernel, next_of_isSome (by decide +kernel), fault_of_isSome (by decide +kernel)⟩

/-- Each enabling condition off, one at a time; all on that a VEX form and that
an EVEX form needs, and no other. -/
theorem witness_NotEnabledRaisesInvalidOpcode :
    ({ start with cr0 := start.cr0 &&& ~~~1 } : State).cr0.getLsbD 0 = false ∧
      ({ start with rflags := 0x20002 } : State).rflags.getLsbD 17 = true ∧
      ({ start with cr4 := 0x600 } : State).cr4.getLsbD 18 = false ∧
      ({ start with xcr0 := 3 } : State).xcr0.extractLsb' 1 2 ≠ 3 ∧
      (Form.evex512 ≠ .vex128 ∧ Form.evex512 ≠ .vex256 ∧
        ({ start with xcr0 := 7 } : State).xcr0.extractLsb' 5 3 ≠ 7) ∧
      ({ start with cpuid := ⟨false, true, true⟩ } : State).cpuid.f16c = false ∧
      ({ start with cpuid := ⟨true, false, true⟩ } : State).cpuid.avx512f = false ∧
      ({ start with cpuid := ⟨true, true, false⟩ } : State).cpuid.avx512vl = false ∧
      (let s := { start with xcr0 := 6, cr4 := 0x40000, cpuid := ⟨true, false, false⟩ }
       s.cr0.getLsbD 0 = true ∧ s.rflags.getLsbD 17 = false ∧ s.cr4.getLsbD 18 = true ∧
        s.xcr0.extractLsb' 1 2 = 3 ∧ s.cpuid.f16c = true) ∧
      (let s := { start with xcr0 := 0xE6, cpuid := ⟨false, true, false⟩ }
       s.cr0.getLsbD 0 = true ∧ s.rflags.getLsbD 17 = false ∧ s.cr4.getLsbD 18 = true ∧
        s.xcr0.extractLsb' 1 2 = 3 ∧ (s.xcr0.extractLsb' 5 3 = 7 ∧ s.cpuid.avx512f = true) ∧
        ¬ (Form.evex512 = .evex128 ∨ Form.evex512 = .evex256)) ∧
      start.cpuid.avx512vl = true := by
  decide +kernel

theorem witness_DeviceNotAvailable :
    (enabled .vex128 { start with cr0 := start.cr0 ||| 8 } = true ∧
      ({ start with cr0 := start.cr0 ||| 8 } : State).cr0.getLsbD 3 = true) ∧
      enabled .vex128 State.reset = false ∧ start.cr0.getLsbD 3 = false ∧
      decodeAt (placeAtFetch start [0xC4, 0xE2, 0x71, 0x13, 0xCA]) = .invalid := by
  decide +kernel

/-- A `#UD`, an unmasked Invalid, and a page fault. -/
theorem witness_FaultWriteSet :
    (∃ x t, exec (.vcvtph2psVex128 [] 1 (.reg 2)) State.reset = .fault (.exception x t)) ∧
      (∃ x t, exec (.vcvtph2psVex128 [] 1 (.reg 2)) signalling = .fault (.exception x t)) ∧
      ∃ x t, exec (.vcvtph2psVex128 [] 4 (.mem (.base 0 .none))) edge =
        .fault (.exception x t) :=
  ⟨fault_of_isSome (by decide +kernel), fault_of_isSome (by decide +kernel),
    fault_of_isSome (by decide +kernel)⟩

/-- An operand whose byte 4 is the first non-canonical one: `#GP(0)` in DS, `#SS(0)` in SS. -/
theorem witness_LowestSegmentFaultReported :
    (let i : Instr := .vcvtph2psVex128 [] 4 (.mem (.base 0 .none))
     let s := setX start 0 0x7FFFFFFFFFFC
     i.source = .mem (.base 0 .none) ∧ enabled i.form s = true ∧ s.ts = false ∧ s.unwritten = [] ∧
      Fits i (.base 0 .none) s ∧ 4 < 2 * lanes i ∧ byteActive i s 4 = true ∧
      byteCheck i (.base 0 .none) s 4 = .exc .gp ∧
      ∀ c < 4, byteActive i s c = true → byteCheck i (.base 0 .none) s c = .ok) ∧
    (let i : Instr := .vcvtph2psVex128 [] 4 (.mem (.base 5 (.d8 0)))
     let s := setX start 5 0x7FFFFFFFFFFC
     i.source = .mem (.base 5 (.d8 0)) ∧ enabled i.form s = true ∧ s.ts = false ∧ s.unwritten = [] ∧
      Fits i (.base 5 (.d8 0)) s ∧ 4 < 2 * lanes i ∧ byteActive i s 4 = true ∧
      byteCheck i (.base 5 (.d8 0)) s 4 = .exc .ss ∧
      ∀ c < 4, byteActive i s c = true → byteCheck i (.base 5 (.d8 0)) s c = .ok) := by
  unfold Fits
  decide +kernel

/-- Vector P1f. -/
theorem witness_PageFaultReported :
    let i : Instr := .vcvtph2psVex128 [] 4 (.mem (.base 0 .none))
    i.source = .mem (.base 0 .none) ∧ enabled i.form edge = true ∧ edge.ts = false ∧
      edge.unwritten = [] ∧ Fits i (.base 0 .none) edge ∧ 4 < 2 * lanes i ∧ byteActive i edge 4 = true ∧
      byteCheck i (.base 0 .none) edge 4 = .exc (.pf 0 0x11000) ∧
      ∀ c < 4, byteActive i edge c = true → byteCheck i (.base 0 .none) edge c = .ok := by
  unfold Fits
  decide +kernel

/-- The operand's last byte is the first beyond the offset space. -/
theorem witness_WrappingOperandRefused :
    let i : Instr := .vcvtph2psVex128 [] 4 (.mem (.base 0 .none))
    let s := setX start 0 0xFFFFFFFFFFFFFFF9
    i.source = .mem (.base 0 .none) ∧ enabled i.form s = true ∧ s.ts = false ∧ s.unwritten = [] ∧
      2 ^ addrBits (refOf i (.base 0 .none) s).asz ≤
        (refOf i (.base 0 .none) s).ea + 2 * lanes i - 1 := by
  decide +kernel

/-- The page at 11000h is a device: byte 4 of the operand, and the last byte of the instruction. -/
theorem witness_DeviceByteRefused :
    (let i : Instr := .vcvtph2psVex128 [] 4 (.mem (.base 0 .none))
     let o : MemOp := .base 0 .none
     let s := { edge with plat := { edge.plat with addressMap := [⟨0x11000, 0x1000, .refused⟩] } }
     let a := linear s (refOf i o s).seg ((refOf i o s).ea + 4)
     i.source = .mem o ∧ enabled i.form s = true ∧ s.ts = false ∧ s.unwritten = [] ∧ Fits i o s ∧
      4 < 2 * lanes i ∧ byteActive i s 4 = true ∧
      segmentFault .read s (refOf i o s).seg ((refOf i o s).ea + 4) a = none ∧
      admitAt s.plat.addressMap a = .refused ∧
      ∀ c < 4, byteActive i s c = true → byteCheck i o s c = .ok) ∧
    (let i : Instr := .vcvtph2psVex128 [] 1 (.reg 2)
     let s := cut .refused
     s.plat.policy = .effects ∧ i.wf .effects s.mode = true ∧ 4 < i.len ∧
      (∀ c < 4, fetchCheck s c = .ok ∧ (encode i)[c]? = some (fetchByte s c)) ∧
      segmentFault .fetch s .cs (fetchOffset s 4) (linear s .cs (fetchOffset s 4)) = none ∧
      admitAt s.plat.addressMap (linear s .cs (fetchOffset s 4)) = .refused) := by
  unfold Fits
  decide +kernel

/-- `running` and its likes with one register marked. -/
def marked (s : State) (r : Reg) : State := { s with unwritten := [r] }

/-- Each kind of register that is read before memory is: the last base register, the index, and the
segment base of FS. -/
theorem witness_UnwrittenReadFaults_first :
    (enabled .vex128 (marked start (.vec 2)) = true ∧ (marked start (.vec 2)).ts = false) ∧
      Instr.source (.vcvtph2psVex128 [] 1 (.reg 2)) = .reg 2 ∧
      (Instr.mask (.vcvtph2psEvex128 [] 1 (.reg 2) ⟨7, false⟩)).aaa ≠ 0 ∧
      Instr.source (.vcvtph2psVex128 [] 1 (.mem (.base 15 (.d8 0)))) = .mem (.base 15 (.d8 0)) ∧
      Instr.source (.vcvtph2psVex128 [] 1 (.mem (.sib 4 (some ⟨15, 0⟩) .none))) =
        .mem (.sib 4 (some ⟨15, 0⟩) .none) ∧
      Instr.source (.vcvtph2psVex128 [] 1 (.mem (.index (some ⟨1, 0⟩) 0))) =
        .mem (.index (some ⟨1, 0⟩) 0) ∧
      Instr.source (.vcvtph2psVex128 [.addrSize] 1 (.mem (.a16 7 .none))) = .mem (.a16 7 .none) ∧
      (refOf (.vcvtph2psVex128 [.seg .fs] 1 (.mem (.base 0 .none))) (.base 0 .none) start).seg = .fs := by
  decide +kernel

/-- MXCSR unwritten with Invalid signalled; a destination unwritten with a lane kept. -/
theorem witness_UnwrittenReadFaults_later :
    (let i : Instr := .vcvtph2psVex128 [] 1 (.reg 2)
     let s := marked signalling .mxcsr
     enabled i.form s = true ∧ s.ts = false ∧ OperandReady i s ∧ OperandWritten i s ∧ i.sae = false ∧
      Signals i s ∧ Reg.mxcsr ∈ s.unwritten) ∧
    (let i : Instr := .vcvtph2psEvex128 [] 1 (.reg 2) ⟨1, false⟩
     let s := marked (setK running 1 7) (.vec 1)
     enabled i.form s = true ∧ s.ts = false ∧ OperandReady i s ∧ OperandWritten i s ∧
      (Reg.mxcsr ∉ s.unwritten ∧ s.im = true) ∧ Keeps i s ∧ Reg.vec i.dest ∈ s.unwritten) ∧
    ∃ r, unwrittenOf (exec (.vcvtph2psVex128 [] 1 (.reg 2)) (marked start (.vec 2))) = some r := by
  unfold OperandWritten Signals Keeps
  refine ⟨⟨?_, ?_, trivial, ?_⟩, ⟨?_, ?_, trivial, ?_⟩, ⟨.vec 2, ?_⟩⟩ <;> decide +kernel

/-- Vector P2f against an empty address map. -/
theorem witness_InactiveBytesNotChecked :
    let i : Instr := .vcvtph2psEvex128 [] 4 (.mem (.base 0 .none)) ⟨3, false⟩
    let s := setK edge 3 3
    i.source = .mem (.base 0 .none) ∧
      (∀ b < 2 * lanes i, byteActive i s b = true →
        byteCheck i (.base 0 .none) { s with plat := { s.plat with addressMap := [] } } b =
          byteCheck i (.base 0 .none) s b) ∧
      ∃ t, exec i s = .next t := by
  refine ⟨rfl, ?_, next_of_isSome ?_⟩ <;> decide +kernel

/-- Vector P4f, with mask bits above the lanes set. -/
theorem witness_AllZeroMaskCompletes :
    let i : Instr := .vcvtph2psEvex128 [] 4 (.mem (.base 0 .none)) ⟨3, false⟩
    let s := setK edge 3 0xFFF0
    i.source = .mem (.base 0 .none) ∧ enabled i.form s = true ∧ s.ts = false ∧ s.unwritten = [] ∧
      Fits i (.base 0 .none) s ∧ ∀ j < lanes i, laneActive i s j = false := by
  unfold Fits
  decide +kernel

/-! ### Witnesses: memory and addresses -/

theorem witness_LanesInMemory :
    32 ≤ 32 ∧ 2 * 15 + 1 < 32 ∧
      (match memRead ⟨.ds, 0x10FE0, .a64⟩ 32 (fun _ => true) edge with
       | .next _ => true
       | .fault _ => false
       | .refused _ => false) = true := by
  decide +kernel

/-- Each shape, with a disp8 of -1 scaled by 32, and 67h in M64. -/
theorem witness_EffectiveAddressAtWideSizes :
    let i (pfx : List LegacyPrefix) (o : MemOp) : Instr := .vcvtph2psEvex512 pfx 1 (.mem o) ⟨0, false⟩
    let s := setX start 0 0xFFFFFFFF00010000
    (s.mode = .m32 → LegacyPrefix.addrSize ∉ (i [.addrSize] (.base 0 (.d8 0xFF))).pfx) ∧
      (refOf (i [.addrSize] (.base 0 (.d8 0xFF))) (.base 0 (.d8 0xFF)) s).ea = 0xFFE0 ∧
      (refOf (i [] (.sib 0 none (.d8 1))) (.sib 0 none (.d8 1)) s).ea = 0xFFFFFFFF00010020 ∧
      (refOf (i [] (.index (some ⟨0, 3⟩) 8)) (.index (some ⟨0, 3⟩) 8) s).ea = 0xFFFFFFF800080008 := by
  decide +kernel

/-- RIP-relative with 67h, and absolute. -/
theorem witness_EffectiveAddressOfDisp32 :
    let i : Instr := .vcvtph2psVex128 [.addrSize] 1 (.mem (.disp32 0xFFFFFFFF))
    let j : Instr := .vcvtph2psVex128 [] 1 (.mem (.disp32 0xFFFFFFFF))
    (i.source = .mem (.disp32 0xFFFFFFFF) ∧ start.mode = .m64 ∧ LegacyPrefix.addrSize ∈ i.pfx) ∧
      (j.source = .mem (.disp32 0xFFFFFFFF) ∧ State.reset.mode = .m32 ∧
        LegacyPrefix.addrSize ∉ j.pfx) := by
  decide +kernel

/-- BP + DI with a disp8 of -1 under VEX, and a disp16 alone. -/
theorem witness_EffectiveAddressAtSize16 :
    let i (o : MemOp) : Instr := .vcvtph2psVex128 [.addrSize] 1 (.mem o)
    let s := setX (setX State.reset 5 0xFFFF) 7 2
    (s.mode = .m32 ∧ LegacyPrefix.addrSize ∈ (i (.abs16 0xFFFF)).pfx) ∧
      (refOf (i (.a16 3 (.d8 0xFF))) (.a16 3 (.d8 0xFF)) s).ea = 0 ∧
      (refOf (i (.abs16 0xFFFF)) (.abs16 0xFFFF) s).ea = 0xFFFF := by
  decide +kernel

/-- FS with a base in M64, DS without; a sum that wraps in M32. -/
theorem witness_LinearAddress :
    let s := { start with segs := { start.segs with
      fs := { start.segs.fs with base := 0x100000000 }, ds := { start.segs.ds with base := 0x50 } } }
    s.mode = .m64 ∧ linear s .fs 1 = 0x100000001 ∧ linear s .ds 1 = 1 ∧
      State.reset.mode = .m32 ∧ linear State.reset .cs 0x10000 = 0 := by
  decide +kernel

/-- GS, then 67h and in M64 a DS override that does not count; ES after CS in M32. -/
theorem witness_LastOverrideWins :
    let i (pfx : List LegacyPrefix) : Instr := .vcvtph2psVex128 pfx 1 (.mem (.base 0 .none))
    ((i [.seg .fs, .seg .gs, .addrSize, .seg .ds]).pfx =
        [.seg .fs] ++ .seg .gs :: [.addrSize, .seg .ds] ∧ (Seg.gs = .fs ∨ Seg.gs = .gs) ∧
      ∀ h, LegacyPrefix.seg h ∈ [LegacyPrefix.addrSize, .seg .ds] →
        start.mode = .m64 ∧ h ≠ .fs ∧ h ≠ .gs) ∧
    ((i [.seg .cs, .seg .es]).pfx = [.seg .cs] ++ .seg .es :: [] ∧ State.reset.mode = .m32) := by
  refine ⟨⟨rfl, by decide, ?_⟩, rfl, rfl⟩
  intro h hm
  cases h <;> revert hm <;> decide

/-- A DS override in M64, and no override. -/
theorem witness_DefaultSegment :
    (∀ h, LegacyPrefix.seg h ∈ (Instr.vcvtph2psVex128 [.seg .ds] 1 (.mem (.base 5 (.d8 0)))).pfx →
        start.mode = .m64 ∧ h ≠ .fs ∧ h ≠ .gs) ∧
      ∀ h, LegacyPrefix.seg h ∉ (Instr.vcvtph2psVex128 [.addrSize] 1 (.mem (.a16 6 (.d8 0)))).pfx := by
  constructor
  · intro h hm
    cases h <;> revert hm <;> decide
  · intro h
    cases h <;> decide

/-- Vector P7f: the first non-canonical address, and the last; the last canonical one below; and the
same with 57-bit linear addresses. -/
theorem witness_NonCanonicalFaults :
    let la := { start with plat := { start.plat with la57 := true } }
    (start.mode = .m64 ∧ start.plat.la57 = false) ∧
      (linear start .ds 0x800000000000).getLsbD 47 ≠ (linear start .ds 0x800000000000).getLsbD 63 ∧
      (linear start .ds 0xFFFF7FFFFFFFFFFF).getLsbD 47 ≠
        (linear start .ds 0xFFFF7FFFFFFFFFFF).getLsbD 63 ∧
      (∀ n < 63, 47 ≤ n → (linear start .ds 0x7FFFFFFFFFFF).getLsbD n =
        (linear start .ds 0x7FFFFFFFFFFF).getLsbD 63) ∧
      (la.mode = .m64 ∧ la.plat.la57 = true) ∧
      (linear la .ds 0x100000000000000).getLsbD 56 ≠ (linear la .ds 0x100000000000000).getLsbD 63 ∧
      (∀ n < 63, 56 ≤ n → (linear la .ds 0xFFFFFFFFFFFFFF).getLsbD n =
        (linear la .ds 0xFFFFFFFFFFFFFF).getLsbD 63) := by
  decide +kernel

/-- M32 with the limit FFFFh: the first offset beyond it and the last inside; a null DS, a null SS. -/
theorem witness_SegmentChecksInM32 :
    let r := State.reset
    let n := { r with segs := { r.segs with
      ds := { r.segs.ds with null := true }, ss := { r.segs.ss with readable := false } } }
    r.mode = .m32 ∧ ((r.segs.get .ds).readable = true ∧ (r.segs.get .ds).null = false) ∧
      (r.segs.get .ds).limit.toNat < 0x10000 ∧ 0xFFFF ≤ (r.segs.get .ds).limit.toNat ∧
      (r.segs.get .cs).limit.toNat < 0x10000 ∧ 0xFFFF ≤ (r.segs.get .cs).limit.toNat ∧
      (n.mode = .m32 ∧ (n.segs.get .ds).null = true ∧ (n.segs.get .ss).readable = false) := by
  decide +kernel

/-- The machine at CPL 3 with this answer for the page at 11000h. -/
def pageOf (what : Admit) : State :=
  { start with cpl := 3, plat := { start.plat with addressMap := [⟨0x11000, 0x1000, what⟩] } }

/-- Every answer at the page's first and last byte; a supervisor page below CPL 3; a fetch. -/
theorem witness_MapAnswers :
    segmentFault .read (pageOf .ok) .ds 0x11000 (linear (pageOf .ok) .ds 0x11000) = none ∧
      segmentFault .fetch (pageOf .ok) .cs 0x11FFF (linear (pageOf .ok) .cs 0x11FFF) = none ∧
      (∀ what ∈ [Admit.ok, .fault .ss, .fault .gp, .fault (.pf 4), .page .notPresent,
          .page .supervisor, .page .reservedBit],
        admitAt (pageOf what).plat.addressMap (linear (pageOf what) .ds 0x11000) = what ∧
          admitAt (pageOf what).plat.addressMap (linear (pageOf what) .cs 0x11FFF) = what) ∧
      (pageOf .ok).cpl = 3 ∧ start.cpl ≠ 3 ∧
      checkByte .read (pageOf (.page .reservedBit)) .ds 0x11000 = .exc (.pf 13 0x11000) ∧
      checkByte .fetch (pageOf (.page .supervisor)) .cs 0x11FFF = .exc (.pf 21 0x11FFF) := by
  decide +kernel

/-! ### Witnesses: what is not read, and the invariants -/

theorem witness_RegisterFormReadsNoMemory :
    Instr.source (.vcvtph2psVex128 [] 1 (.reg 2)) = .reg 2 ∧
      State.reset.plat.nanConv = running.plat.nanConv ∧
      ∃ t, exec (.vcvtph2psVex128 [] 1 (.reg 2)) running = .next t :=
  ⟨by decide +kernel, by decide +kernel, next_of_isSome (by decide +kernel)⟩

theorem witness_HighMaskBitsNotRead :
    let i : Instr := .vcvtph2psEvex128 [] 1 (.reg 2) ⟨2, false⟩
    let s := setK running 2 5
    (∀ j < lanes i, laneActive i { s with k := #v[1, 2, 0xFFF5, 4, 5, 6, 7, 8] } j =
      laneActive i s j) ∧ ∃ t, exec i s = .next t := by
  refine ⟨?_, next_of_isSome ?_⟩ <;> decide +kernel

theorem witness_StepWriteSet : ∃ t, step running = .next t := next_of_isSome (by decide +kernel)

theorem witness_StepKeepsInvariant : running.Inv ∧ ∃ t, step running = .next t := by
  refine ⟨⟨?_, ?_, ?_, ?_, ?_, ?_⟩, next_of_isSome ?_⟩ <;> decide +kernel

end Sys2Proof.Tests
end

section
/-!
PROOFS. The scope of the model (00_scope.md): a form that is not enabled raises `#UD` and is enabled
otherwise (R4, R101), and bytes that are not VCVTPH2PS are refused (R3, R64).
-/

namespace Sys2Proof.Proofs

open Sys2Proof.Machine

/-! ### Enabling (R19, R101 d to h) -/

theorem isEvex_iff (f : Form) : isEvex f = true ↔ f ≠ .vex128 ∧ f ≠ .vex256 := by
  cases f <;> simp [isEvex]

/-- The feature flags of a form, as R101 h lists them by kind of form. -/
theorem hasFeature_iff (c : CpuId) (f : Form) :
    hasFeature c f = true ↔
      (f = .vex128 ∨ f = .vex256 → c.f16c = true) ∧
      (f ≠ .vex128 ∧ f ≠ .vex256 → c.avx512f = true) ∧
      (f = .evex128 ∨ f = .evex256 → c.avx512vl = true) := by
  cases f <;> simp [hasFeature]

/-- A form is enabled exactly when none of the conditions d to h of R101 holds. -/
theorem enabled_iff (f : Form) (s : State) :
    enabled f s = true ↔
      s.cr0.getLsbD 0 = true ∧ s.rflags.getLsbD 17 = false ∧ s.cr4.getLsbD 18 = true ∧
      s.xcr0.extractLsb' 1 2 = 3 ∧
      (f ≠ .vex128 ∧ f ≠ .vex256 → s.xcr0.extractLsb' 5 3 = 7) ∧
      (f = .vex128 ∨ f = .vex256 → s.cpuid.f16c = true) ∧
      (f ≠ .vex128 ∧ f ≠ .vex256 → s.cpuid.avx512f = true) ∧
      (f = .evex128 ∨ f = .evex256 → s.cpuid.avx512vl = true) := by
  have zmm : (!isEvex f || s.zmmState) = true ↔
      (f ≠ .vex128 ∧ f ≠ .vex256 → s.xcr0.extractLsb' 5 3 = 7) := by
    rw [← isEvex_iff, State.zmmState]
    cases isEvex f <;> simp
  simp only [enabled, Bool.and_eq_true, zmm, hasFeature_iff, Bool.not_eq_true', and_assoc,
    State.pe, State.vm, State.osxsave, State.avxState, beq_iff_eq]

/-- A form that is not enabled raises `#UD`, before any operand is read. -/
theorem exec_of_not_enabled {i : Instr} {s : State} (h : enabled i.form s = false) :
    exec i s = .fault (.exception .ud s) := by
  have hr : recognised i.form s = some .ud := by simp [recognised, h]
  rw [exec_eq_execForm, execForm, hr]
  rfl

/-- Settles O31: the conditions of R101 are the negation of `enabled_iff`. -/
theorem notEnabledRaisesInvalidOpcode : Obligations.NotEnabledRaisesInvalidOpcode := by
  unfold Obligations.NotEnabledRaisesInvalidOpcode
  refine ⟨fun i s hoff => exec_of_not_enabled ?_, ?_⟩
  · rw [Bool.eq_false_iff, ne_eq, enabled_iff]
    rintro ⟨hpe, hvm, hosx, havx, hzmm, hf16c, hf, hvl⟩
    rcases hoff with h | h | h | h | ⟨hv, hw, h⟩ | ⟨hform, h⟩ | ⟨hv, hw, h⟩ | ⟨hform, h⟩
    · exact Bool.false_ne_true (h.symm.trans hpe)
    · exact Bool.false_ne_true (hvm.symm.trans h)
    · exact Bool.false_ne_true (h.symm.trans hosx)
    · exact h havx
    · exact h (hzmm ⟨hv, hw⟩)
    · exact Bool.false_ne_true (h.symm.trans (hf16c hform))
    · exact Bool.false_ne_true (h.symm.trans (hf ⟨hv, hw⟩))
    · exact Bool.false_ne_true (h.symm.trans (hvl hform))
  · intro f s hpe hvm hosx havx hevex hf16c hvl
    exact (enabled_iff f s).mpr ⟨hpe, hvm, hosx, havx, fun h => (hevex h.1 h.2).1, hf16c,
      fun h => (hevex h.1 h.2).2, hvl⟩

/-! ### Bytes that are not VCVTPH2PS (R3, R64) -/

/-- Legacy prefixes read back leave the decision to the byte after them (R64 step 1). -/
theorem decode_map_append (po : Policy) (m : Mode) (pre : List LegacyPrefix) {b : Byte}
    (rest : List Byte) (hb : isPrefixByte m b = false) :
    decode po m (pre.map LegacyPrefix.byte ++ b :: rest) =
      if b = 0xC4 then decodeVex po m (pre.map LegacyPrefix.byte) rest
      else if b = 0x62 then decodeEvex po m (pre.map LegacyPrefix.byte) rest
      else .refused .otherInstruction := by
  rw [decode, splitPrefixes_map m pre b rest hb]

/-- After C4h, another map, pp or opcode is another instruction (R64 step 2). -/
theorem decodeVex_of_other (po : Policy) (m : Mode) (raw : List Byte) {p1 p2 op : Byte}
    (rest : List Byte) (h : field p1 0 5 ≠ 2 ∨ field p2 0 2 ≠ 1 ∨ op ≠ 0x13) :
    decodeVex po m raw (p1 :: p2 :: op :: rest) = .refused .otherInstruction := by
  simp only [decodeVex, opcodeByte, Bool.or_eq_true, bne_iff_ne]
  split_ifs with hmap hpp hop
  · rfl
  · rfl
  · rfl
  · rcases h with h | h | h
    · exact absurd (.inr h) hmap
    · exact absurd h hpp
    · exact absurd h hop

/-- After 62h, another map, pp or opcode is another instruction (R64 step 3). -/
theorem decodeEvex_of_other (po : Policy) (m : Mode) (raw : List Byte) {p0 p1 op : Byte} (p2 : Byte)
    (rest : List Byte) (h : field p0 0 2 ≠ 2 ∨ field p1 0 2 ≠ 1 ∨ op ≠ 0x13) :
    decodeEvex po m raw (p0 :: p1 :: p2 :: op :: rest) = .refused .otherInstruction := by
  simp only [decodeEvex, opcodeByte, Bool.or_eq_true, bne_iff_ne]
  split_ifs with hmap hpp hop
  · rfl
  · rfl
  · rfl
  · rcases h with h | h | h
    · exact absurd (.inr h) hmap
    · exact absurd h hpp
    · exact absurd h hop

/-- What the decoder refuses the step refuses: no `#DB` comes before (assumption log 35). -/
theorem step_of_refused {s : State} {r : DecodeRefusal} (h : decodeAt s = .refused r) :
    step s = .refused (.encoding r) := by
  rw [step, h]

/-- Where legacy prefixes and then a byte that is none stand at `pc`, the fetch gives them all. -/
theorem fetchBytes_of_prefixes {s : State} {pre : List LegacyPrefix} {b : Byte}
    (hn : pre.length ≤ offsetCount) (hst : Stored s 0 (pre.map LegacyPrefix.byte ++ [b]))
    (hb : isPrefixByte s.mode b = false) :
    ∃ rest, fetchBytes s = pre.map LegacyPrefix.byte ++ b :: rest := by
  have hpre : ∀ y ∈ pre.map LegacyPrefix.byte, isPrefixByte s.mode y = true := by
    intro y hy
    obtain ⟨p, _, rfl⟩ := List.mem_map.mp hy
    exact isPrefixByte_byte _ p
  have hfetch := fetchBytes_of_stored hst hpre hb (by simpa using hn) (by simp [maxBody])
  exact ⟨_, by rw [hfetch, List.append_assoc, List.singleton_append]⟩

/-- Settles O60: the fetch reads past all legacy prefixes, and the decoder decides on the byte after them
and, behind C4h and 62h, on map, pp and opcode. -/
theorem otherInstructionRefused : Obligations.OtherInstructionRefused := by
  unfold Obligations.OtherInstructionRefused
  refine ⟨fun s r => step_of_refused, ?_, ?_⟩
  · intro s pre b hlen hst hb hvex hevex
    have hstored : Stored s 0 (pre.map LegacyPrefix.byte ++ [b]) := by
      intro c hc
      rw [Nat.zero_add]
      exact hst c (by simpa using hc)
    obtain ⟨rest, hfetch⟩ := fetchBytes_of_prefixes (le_of_lt hlen) hstored hb
    apply step_of_refused
    rw [decodeAt, hfetch, decode_map_append _ _ _ _ hb, if_neg hvex, if_neg hevex]
  · intro po m pre p0 p1 p2 op rest
    constructor
    · intro h
      rw [decode_map_append _ _ _ _ (isPrefixByte_vex m), if_pos rfl, decodeVex_of_other _ _ _ _ h]
    · intro h
      rw [decode_map_append _ _ _ _ (isPrefixByte_evex m), if_neg (by decide), if_pos rfl,
        decodeEvex_of_other _ _ _ _ _ h]

end Sys2Proof.Proofs
end

section
/-!
PROOFS. The state (10_state.md). A stored instruction is decoded from its encoding and runs (R21, R64);
a completion stays within its frame (R15, R17, R95) and keeps the invariant of the registers and of
memory (R10 to R14, R21); it reads of MXCSR the bit IM only and of the opmask registers the activity of
the lanes only (R13, R85); and linear addresses, default segments and the reset values (R20, R23).
-/

namespace Sys2Proof.Proofs

open Sys2Proof.Machine

/-! ### Fields of the bytes P0, P1 and P2 (R52, R54) -/

/-- The byte P1 of a VEX encoding: R, X and B inverted, map 0F38. -/
theorem vexP1_fields (r x b : Bool) :
    let p1 : Byte := BitVec.ofBool (!r) ++ BitVec.ofBool (!x) ++ BitVec.ofBool (!b) ++ (2 : BitVec 5)
    p1.getLsbD 7 = !r ∧ p1.getLsbD 6 = !x ∧ p1.getLsbD 5 = !b ∧ field p1 0 5 = 2 := by
  revert r x b; decide

/-- The byte P2 of a VEX encoding: W = 0, vvvv = 1111b, L, pp = 01b. -/
theorem vexP2_fields (l : Bool) :
    let p2 : Byte := (0xF : BitVec 5) ++ BitVec.ofBool l ++ (1 : BitVec 2)
    p2.getLsbD 7 = false ∧ field p2 3 4 = 0xF ∧ field p2 0 2 = 1 ∧ p2.getLsbD 2 = l := by
  revert l; decide

/-- The byte P0 of an EVEX encoding: R, X, B and R' inverted, map 0F38. -/
theorem evexP0_fields (r x b r' : Bool) :
    let p0 : Byte := BitVec.ofBool (!r) ++ BitVec.ofBool (!x) ++ BitVec.ofBool (!b)
      ++ BitVec.ofBool (!r') ++ (2 : BitVec 4)
    p0.getLsbD 7 = !r ∧ p0.getLsbD 6 = !x ∧ p0.getLsbD 5 = !b ∧ p0.getLsbD 4 = !r' ∧
      field p0 0 2 = 2 ∧ field p0 2 2 = 0 := by
  revert r x b r'; decide

/-- The byte P2 of an EVEX encoding: z, L'L, b, V' = 1 and aaa. -/
theorem evexP2_fields (z b : Bool) (ll : BitVec 2) (aaa : BitVec 3) :
    let p2 : Byte := BitVec.ofBool z ++ ll ++ BitVec.ofBool b ++ (1 : BitVec 1) ++ aaa
    p2.getLsbD 7 = z ∧ field p2 5 2 = ll ∧ p2.getLsbD 4 = b ∧ p2.getLsbD 3 = true ∧
      field p2 0 3 = aaa := by
  revert z b ll aaa; decide

theorem field_top_eq_three {p : Byte} (h7 : p.getLsbD 7 = true) (h6 : p.getLsbD 6 = true) :
    field p 6 2 = 3 := by
  revert p; decide

/-! ### Extension bits (R12, R66) -/

/-- An extension bit stored inverted reads back, where M32 has none. -/
theorem extBit_of_inverted {m : Mode} {p : Byte} {n : Nat} {x : Bool} (h : p.getLsbD n = !x)
    (hm : m = .m32 → x = false) : extBit m p n = x := by
  cases m with
  | m64 => simp [extBit, h]
  | m32 => simp [extBit, hm rfl]

/-- C4h or 62h begins VEX or EVEX in M64, and in M32 where the bits R and X that follow are not set. -/
theorem prefixInMode_of_inverted {m : Mode} {p : Byte} {r x : Bool} (hr : p.getLsbD 7 = !r)
    (hx : p.getLsbD 6 = !x) (hm : m = .m32 → r = false ∧ x = false) : prefixInMode m p = true := by
  cases m with
  | m64 => rfl
  | m32 =>
    obtain ⟨rfl, rfl⟩ := hm rfl
    simp [prefixInMode, field_top_eq_three hr hx]

theorem indexBits_m32 {ix : Option Index} (h : indexWf .m32 ix = true) :
    (indexBits ix).2.2 = false := by
  cases ix with
  | none => rfl
  | some ix =>
    simp only [indexWf, Bool.and_eq_true] at h
    exact (regNamed_m32 h.2).1

theorem memOp_tail_m32 {a : AddrSize} {o : MemOp} (h : o.wf .m32 a = true) :
    o.tail.x = false ∧ o.tail.b = false := by
  cases o with
  | base b d =>
    simp only [MemOp.wf, Bool.and_eq_true] at h
    obtain ⟨⟨⟨_, hb⟩, _⟩, _⟩ := h
    exact ⟨rfl, (regNamed_m32 hb).1⟩
  | sib b ix d =>
    simp only [MemOp.wf, Bool.and_eq_true] at h
    obtain ⟨⟨⟨_, hb⟩, hix⟩, _⟩ := h
    exact ⟨indexBits_m32 hix, (regNamed_m32 hb).1⟩
  | index ix d =>
    simp only [MemOp.wf, Bool.and_eq_true] at h
    exact ⟨indexBits_m32 h.2, rfl⟩
  | disp32 d | a16 rm d | abs16 d => exact ⟨rfl, rfl⟩

/-- An operand of M32 has no extension bits. -/
theorem operand_tail_m32 {m : Mode} {w : Nat} {a : AddrSize} {src : Operand w}
    (h : src.wf m a = true) (hm : m = .m32) : src.tail.x = false ∧ src.tail.b = false := by
  subst hm
  cases src with
  | reg n => exact (regNamed_m32 h).symm
  | mem o => exact memOp_tail_m32 h

/-! ### The operand read back (R55 to R62) -/

theorem readOperandVex_tail {m : Mode} {a : AddrSize} {src : Operand 4} (h : src.wf m a = true)
    (reg : BitVec 3) (rest : List Byte) :
    readOperandVex a src.tail.x src.tail.b (src.tail.mod ++ reg ++ src.tail.rm)
      (src.tail.rest ++ rest) = some src := by
  rw [readOperandVex, field_modrm_mod, field_modrm_rm]
  cases src with
  | reg n => exact congrArg (some ∘ Operand.reg) (extend3_low3 n)
  | mem o => exact (if_neg o.mod_ne_three).trans (congrArg _ (readMem_tail h rest))

theorem readOperandEvex_tail {m : Mode} {a : AddrSize} {src : Operand 5} (h : src.wf m a = true)
    (reg : BitVec 3) (rest : List Byte) :
    readOperandEvex a src.tail.x src.tail.b (src.tail.mod ++ reg ++ src.tail.rm)
      (src.tail.rest ++ rest) = some src := by
  rw [readOperandEvex, field_modrm_mod, field_modrm_rm]
  cases src with
  | reg n => exact congrArg (some ∘ Operand.reg) (extend4_low3 n)
  | mem o => exact (if_neg o.mod_ne_three).trans (congrArg _ (readMem_tail h rest))

/-! ### An encoding is decoded as its instruction (R50, R64) -/

/-- The policy admits these legacy prefixes: all, or under `Policy.decisions` what D3 leaves. -/
def PrefixesAdmitted (po : Policy) (m : Mode) (pfx : List LegacyPrefix) : Prop :=
  po = .decisions → repeatedPrefix pfx = false ∧ addrSize m pfx ≠ .a16

theorem wf_iff {po : Policy} {m : Mode} {i : Instr} :
    i.wf po m = true ↔
      i.operandsWf m = true ∧ i.len ≤ maxLength ∧ PrefixesAdmitted po m i.pfx := by
  unfold Instr.wf PrefixesAdmitted Instr.plainPrefixes
  cases po <;> simp [and_assoc]

/-- The last checks pass a valid encoding of at most 15 bytes after admitted prefixes. -/
theorem checked_of_valid {po : Policy} {m : Mode} {pfx : List LegacyPrefix} {len : Nat}
    {ext bad : Bool} {i : Instr} (hpfx : PrefixesAdmitted po m pfx) (hext : m = .m32 → ext = false)
    (hlen : pfx.length + len ≤ maxLength) (hbad : bad = false) :
    checked po m (pfx.map LegacyPrefix.byte) len ext bad i = .instr i := by
  rw [checked, filterMap_legacyOf, any_isBadPrefix, hbad, List.length_map, if_neg, if_neg, if_neg,
    if_neg (Nat.not_lt.mpr hlen)]
  · rfl
  · rintro ⟨_, hm, he⟩
    exact Bool.false_ne_true ((hext hm).symm.trans he)
  · rintro ⟨hpo, ha⟩
    exact (hpfx hpo).2 ha
  · rintro ⟨hpo, hr⟩
    exact Bool.false_ne_true ((hpfx hpo).1.symm.trans hr)

/-- Bytes after C4h whose fields are those of a well-formed VEX instruction (R52, R64 step 2). -/
theorem decodeVex_of_fields {po : Policy} {m : Mode} {pfx : List LegacyPrefix} {dst : BitVec 4}
    {src : Operand 4} {p1 p2 : Byte} (rest : List Byte)
    (hdst : regNamed m dst = true) (hsrc : src.wf m (addrSize m pfx) = true)
    (hlen : vexLen pfx src ≤ maxLength) (hpfx : PrefixesAdmitted po m pfx)
    (hr : p1.getLsbD 7 = !dst.getLsbD 3) (hx : p1.getLsbD 6 = !src.tail.x)
    (hb : p1.getLsbD 5 = !src.tail.b) (hmap : field p1 0 5 = 2)
    (hw : p2.getLsbD 7 = false) (hvvvv : field p2 3 4 = 0xF) (hpp : field p2 0 2 = 1) :
    decodeVex po m (pfx.map LegacyPrefix.byte)
        (p1 :: p2 :: opcodeByte :: modrmByte dst src.tail :: (src.tail.rest ++ rest)) =
      .instr (if p2.getLsbD 2 then .vcvtph2psVex256 pfx dst src else .vcvtph2psVex128 pfx dst src) := by
  have hdst32 : m = .m32 → dst.getLsbD 3 = false := fun hm => (regNamed_m32 (hm ▸ hdst)).1
  have hsrc32 := operand_tail_m32 hsrc
  have hmode := prefixInMode_of_inverted hr hx fun hm => ⟨hdst32 hm, (hsrc32 hm).1⟩
  have hR := extBit_of_inverted hr hdst32
  have hX := extBit_of_inverted hx fun hm => (hsrc32 hm).1
  have hB := extBit_of_inverted hb fun hm => (hsrc32 hm).2
  simp only [decodeVex, hmode, hmap, hpp, bne_self_eq_false, Bool.not_true, Bool.or_self,
    Bool.false_eq_true, if_false, vexBody, filterMap_legacyOf, hR, hX, hB, modrmByte,
    readOperandVex_tail hsrc, field_modrm_reg, extend3_low3]
  refine checked_of_valid hpfx (fun hm => ?_) ?_ ?_
  · rw [hb, (hsrc32 hm).2]; rfl
  · simpa [vexLen, Nat.add_assoc] using hlen
  · rw [hw, hvvvv]; rfl

/-- What `encodeVex` writes is decoded as the row of L. -/
theorem decode_encodeVex {po : Policy} {m : Mode} (l : Bool) {pfx : List LegacyPrefix}
    {dst : BitVec 4} {src : Operand 4} (rest : List Byte)
    (hops : (regNamed m dst && src.wf m (addrSize m pfx)) = true)
    (hlen : vexLen pfx src ≤ maxLength) (hpfx : PrefixesAdmitted po m pfx) :
    decode po m (encodeVex l pfx dst src.tail ++ rest) =
      .instr (if l then .vcvtph2psVex256 pfx dst src else .vcvtph2psVex128 pfx dst src) := by
  obtain ⟨hdst, hsrc⟩ := Bool.and_eq_true_iff.mp hops
  obtain ⟨hr, hx, hb, hmap⟩ := vexP1_fields (dst.getLsbD 3) src.tail.x src.tail.b
  obtain ⟨hw, hvvvv, hpp, hl⟩ := vexP2_fields l
  have hfields := decodeVex_of_fields rest hdst hsrc hlen hpfx hr hx hb hmap hw hvvvv hpp
  rw [hl] at hfields
  rw [encodeVex, List.append_assoc, List.append_assoc, List.cons_append,
    decode_map_append _ _ _ _ (isPrefixByte_vex m), if_pos rfl]
  exact hfields

/-- The fields of a well-formed EVEX instruction avoid the rows a to g of R65. -/
theorem evexInvalid_of_fields {m : Mode} {p0 p2 modrm : Byte} (hmap : field p0 2 2 = 0)
    (hv : p2.getLsbD 3 = true) (hll : field p2 5 2 ≠ 3)
    (hb : p2.getLsbD 4 = true → field modrm 6 2 = 3)
    (hz : p2.getLsbD 7 = true → field p2 0 3 ≠ 0) :
    evexInvalid m p0 0x7D p2 modrm = false := by
  have hb' : (p2.getLsbD 4 && field modrm 6 2 != 3) = false := by
    simpa using hb
  have hz' : (p2.getLsbD 7 && field p2 0 3 == 0) = false := by
    simpa using hz
  have hp1 : (0x7D : Byte).getLsbD 7 = false ∧ (field 0x7D 3 4 != 0xF) = false ∧
      (0x7D : Byte).getLsbD 2 = true := by decide
  obtain ⟨hw, hvvvv, hreserved⟩ := hp1
  rw [evexInvalid, hw, hvvvv, hreserved, hv, hb', hz', hmap, beq_eq_false_iff_ne.mpr hll]
  rfl

/-- Bytes after 62h whose fields are those of a well-formed EVEX instruction (R54, R64 step 3). -/
theorem decodeEvex_of_fields {po : Policy} {m : Mode} {pfx : List LegacyPrefix} {dst : BitVec 5}
    {src : Operand 5} {p0 p2 : Byte} (rest : List Byte)
    (hdst : regNamed m dst = true) (hsrc : src.wf m (addrSize m pfx) = true)
    (hlen : evexLen pfx src ≤ maxLength) (hpfx : PrefixesAdmitted po m pfx)
    (hr : p0.getLsbD 7 = !dst.getLsbD 3) (hx : p0.getLsbD 6 = !src.tail.x)
    (hb : p0.getLsbD 5 = !src.tail.b) (hr' : p0.getLsbD 4 = !dst.getLsbD 4)
    (hmap : field p0 0 2 = 2) (hreserved : field p0 2 2 = 0) (hv : p2.getLsbD 3 = true)
    (hll : field p2 5 2 ≠ 3) (hsae : p2.getLsbD 4 = true → src.tail.mod = 3)
    (hz : p2.getLsbD 7 = true → field p2 0 3 ≠ 0) :
    decodeEvex po m (pfx.map LegacyPrefix.byte)
        (p0 :: 0x7D :: p2 :: opcodeByte :: modrmByte dst src.tail :: (src.tail.rest ++ rest)) =
      .instr (evexInstr pfx dst src ⟨field p2 0 3, p2.getLsbD 7⟩ (p2.getLsbD 4) (field p2 5 2)) := by
  have hdst32 : m = .m32 → dst.getLsbD 3 = false ∧ dst.getLsbD 4 = false := fun hm =>
    regNamed_m32 (hm ▸ hdst)
  have hsrc32 := operand_tail_m32 hsrc
  have hmode := prefixInMode_of_inverted hr hx fun hm => ⟨(hdst32 hm).1, (hsrc32 hm).1⟩
  have hR := extBit_of_inverted hr fun hm => (hdst32 hm).1
  have hX := extBit_of_inverted hx fun hm => (hsrc32 hm).1
  have hB := extBit_of_inverted hb fun hm => (hsrc32 hm).2
  have hR' := extBit_of_inverted hr' fun hm => (hdst32 hm).2
  have hpp : field 0x7D 0 2 = 1 := by decide
  simp only [decodeEvex, hmode, hmap, hpp, bne_self_eq_false, Bool.not_true, Bool.or_self,
    Bool.false_eq_true, if_false, evexBody, filterMap_legacyOf, hR, hX, hB, hR', modrmByte,
    readOperandEvex_tail hsrc, field_modrm_reg, extend4_low3]
  refine checked_of_valid hpfx (fun hm => ?_) ?_ (evexInvalid_of_fields hreserved hv hll ?_ hz)
  · rw [hb, hr', hv, (hsrc32 hm).2, (hdst32 hm).2]; rfl
  · simpa [evexLen, Nat.add_assoc] using hlen
  · rw [field_modrm_mod]
    exact hsae

/-- What `encodeEvex` writes is decoded as the row of L'L and b. -/
theorem decode_encodeEvex {po : Policy} {m : Mode} {ll : BitVec 2} {b : Bool}
    {pfx : List LegacyPrefix} {dst : BitVec 5} {src : Operand 5} {mask : Mask} (rest : List Byte)
    (hops : (regNamed m dst && src.wf m (addrSize m pfx) && mask.wf) = true)
    (hlen : evexLen pfx src ≤ maxLength) (hpfx : PrefixesAdmitted po m pfx) (hll : ll ≠ 3)
    (hsae : b = true → src.tail.mod = 3) :
    decode po m (encodeEvex ll b pfx dst src.tail mask ++ rest) =
      .instr (evexInstr pfx dst src mask b ll) := by
  simp only [Bool.and_eq_true] at hops
  obtain ⟨⟨hdst, hsrc⟩, hmask⟩ := hops
  obtain ⟨hr, hx, hb, hr', hmap, hreserved⟩ :=
    evexP0_fields (dst.getLsbD 3) src.tail.x src.tail.b (dst.getLsbD 4)
  obtain ⟨hz, hL, hB, hv, haaa⟩ := evexP2_fields mask.z b ll mask.aaa
  have hzero : mask.z = true → mask.aaa ≠ 0 := by
    simpa [Mask.wf, or_iff_not_imp_left] using hmask
  have hfields := decodeEvex_of_fields rest hdst hsrc hlen hpfx hr hx hb hr' hmap hreserved hv
    (by rwa [hL]) (by rwa [hB]) (by rwa [hz, haaa])
  rw [hz, hL, hB, haaa] at hfields
  rw [encodeEvex, List.append_assoc, List.append_assoc, List.cons_append,
    decode_map_append _ _ _ _ (isPrefixByte_evex m), if_neg (by decide), if_pos rfl]
  exact hfields

/-- Without suppression what `encodeEvex` writes is decoded as the row of L'L. -/
theorem decode_encodeEvex_row {po : Policy} {m : Mode} {ll : BitVec 2} {pfx : List LegacyPrefix}
    {dst : BitVec 5} {src : Operand 5} {mask : Mask} (rest : List Byte)
    (hops : (regNamed m dst && src.wf m (addrSize m pfx) && mask.wf) = true)
    (hlen : evexLen pfx src ≤ maxLength) (hpfx : PrefixesAdmitted po m pfx) (hll : ll ≠ 3) :
    decode po m (encodeEvex ll false pfx dst src.tail mask ++ rest) =
      .instr (if ll = 0 then .vcvtph2psEvex128 pfx dst src mask
        else if ll = 1 then .vcvtph2psEvex256 pfx dst src mask
        else .vcvtph2psEvex512 pfx dst src mask) := by
  rw [decode_encodeEvex rest hops hlen hpfx hll (by simp)]
  cases src <;> rfl

/-- Decoding the bytes of a well-formed instruction gives it back, whatever follows them. -/
theorem decode_encode {po : Policy} {m : Mode} {i : Instr} (h : i.wf po m = true) (rest : List Byte) :
    decode po m (encode i ++ rest) = .instr i := by
  obtain ⟨hops, hlen, hpfx⟩ := wf_iff.mp h
  cases i with
  | vcvtph2psVex128 pfx dst src =>
    exact decode_encodeVex false rest hops hlen hpfx
  | vcvtph2psVex256 pfx dst src =>
    exact decode_encodeVex true rest hops hlen hpfx
  | vcvtph2psEvex128 pfx dst src mask =>
    exact decode_encodeEvex_row (ll := 0) rest hops hlen hpfx (by decide)
  | vcvtph2psEvex256 pfx dst src mask =>
    exact decode_encodeEvex_row (ll := 1) rest hops hlen hpfx (by decide)
  | vcvtph2psEvex512 pfx dst src mask =>
    exact decode_encodeEvex_row (ll := 2) rest hops hlen hpfx (by decide)
  | vcvtph2psEvex512Sae pfx dst src mask =>
    exact decode_encodeEvex (src := .reg src) rest hops hlen hpfx (by decide) fun _ => rfl

/-! ### A stored instruction runs (R21, R64) -/

theorem decodeAt_of_holds {s : State} {i : Instr} (hwf : i.wf s.plat.policy s.mode = true)
    (h : Holds s i) : decodeAt s = .instr i := by
  obtain ⟨_, hlen, _⟩ := wf_iff.mp hwf
  obtain ⟨rest, hfetch⟩ := fetchBytes_of_holds h (hlen.trans (by decide))
  rw [decodeAt, hfetch, decode_encode hwf]

theorem debugTrap_of_not {s : State} {i : Instr} (h : trapsAfter s i = false)
    (o : Host.Outcome State Fault Refusal) : debugTrap s i o = o := by
  cases o <;> simp [debugTrap, h]

/-- Where no debug exception is due the step is the execution of the decoded instruction. -/
theorem step_of_decodeAt {s : State} {i : Instr} (hi : decodeAt s = .instr i)
    (hbefore : breaksBefore s = false) (hafter : trapsAfter s i = false) : step s = exec i s := by
  rw [step, hi]
  simp only [breakFirst_of_not hbefore, debugTrap_of_not hafter]

/-- Settles O14: the fetch gives the stored encoding, which decodes to the instruction. -/
theorem stepRunsStoredInstruction : Obligations.StepRunsStoredInstruction := by
  unfold Obligations.StepRunsStoredInstruction
  intro s i hwf hholds
  exact step_of_decodeAt (decodeAt_of_holds hwf hholds)

/-! ### The source's lanes (R31, R92) -/

theorem fieldAt_sixteen_eq_append {n : Nat} (v : BitVec n) (j : Nat) :
    fieldAt 16 v j = (fieldAt 8 v (2 * j + 1) ++ fieldAt 8 v (2 * j) : BitVec 16) := by
  apply BitVec.eq_of_getLsbD_eq
  intro i hi
  simp only [fieldAt, BitVec.getLsbD_append, BitVec.getLsbD_extractLsb']
  by_cases hlow : i < 8
  · simp [hlow, hi, show 16 * j + i = 8 * (2 * j) + i by omega]
  · simp [hlow, hi, show i - 8 < 8 by omega, show 16 * j + i = 8 * (2 * j + 1) + (i - 8) by omega]

/-- KL is at most 16, so a packed source holds every lane (R92). -/
theorem laneCount_le (f : Form) : laneCount f ≤ 16 := by cases f <;> decide

/-- The lane of a packed source is the operand's own datum, where the lane is active (R31, R92). -/
theorem srcLane_eq_sourceHalf {i : Instr} {s : State} {bits : Packed} {j : Nat}
    (hb : readSource i.form i.len i.pfx i.source i.mask s = .next bits) (hj : j < lanes i)
    (ha : laneActive i s j = true) : srcLane bits j = sourceHalf i s j := by
  have hl := laneCount_le i.form
  unfold lanes at hj
  unfold sourceHalf
  cases hsrc : i.source with
  | reg n =>
    simp only [hsrc, readSource, Host.Outcome.next.injEq] at hb
    rw [← hb, srcLane, lowHalves, fieldAt_packFields 16 (by decide) _ hj (by omega)]
  | mem o =>
    rw [hsrc] at hb
    obtain ⟨_, _, rfl⟩ := memRead_eq_next.mp hb
    have hact (b : Nat) (hb : b / 2 = j) : active s i.mask (b / 2) = true := hb ▸ ha
    rw [srcLane, fieldAt_sixteen_eq_append,
      fieldAt_packFields 8 (by decide) _ (by rw [memBytes]; omega) (by rw [memBytes]; omega),
      fieldAt_packFields 8 (by decide) _ (by rw [memBytes]; omega) (by rw [memBytes]; omega),
      if_pos (hact _ (by omega)), if_pos (hact _ (by omega))]
    rfl

/-- Step 4 of R86 finds an Invalid exactly where R105 says that one is signalled. -/
theorem anyInvalid_iff_signals {i : Instr} {s : State} {bits : Packed}
    (hb : readSource i.form i.len i.pfx i.source i.mask s = .next bits) :
    anyInvalid i.form i.mask bits s = true ↔ Signals i s := by
  simp only [anyInvalid, Signals, List.any_eq_true, List.mem_range, Bool.and_eq_true]
  refine exists_congr fun j => and_congr_right fun hj => and_congr_right fun ha => ?_
  rw [← srcLane_eq_sourceHalf hb hj ha]
  rfl

/-! ### Completion -/

theorem recognised_eq_none {f : Form} {s : State} :
    recognised f s = none ↔ enabled f s = true ∧ s.ts = false := by
  unfold recognised
  cases enabled f s <;> cases s.ts <;> simp

/-- Everything an instruction can do when it completes, in the terms of the claims. -/
theorem exec_eq_next {i : Instr} {s t : State} (h : exec i s = .next t) :
    enabled i.form s = true ∧ ∃ bits,
      (Signals i s ∧ i.sae = false ∧ t = complete i.form i.len i.dest i.mask bits s.setIE) ∨
      ((i.sae = true ∨ ¬ Signals i s) ∧ t = complete i.form i.len i.dest i.mask bits s) := by
  rw [exec_eq_execForm] at h
  obtain ⟨hrec, _, bits, hb, _, hdone⟩ := execForm_eq_next h
  refine ⟨(recognised_eq_none.mp hrec).1, bits, ?_⟩
  rw [← anyInvalid_iff_signals hb]
  rcases hdone with ⟨hinv, _, rfl⟩ | ⟨hinv, rfl⟩
  · exact .inl (by simpa using hinv)
  · refine .inr ⟨?_, rfl⟩
    cases hsae : i.sae with
    | true => exact .inl rfl
    | false => exact .inr (by simpa [hsae] using hinv)

@[simp] theorem complete_vreg_dest (f : Form) (len : Nat) (dst : BitVec 5) (mask : Mask)
    (bits : Packed) (s : State) :
    (complete f len dst mask bits s).vreg dst = destValue f mask bits (s.vreg dst) s := by
  rw [complete, advance_vreg, vreg_setVreg_self]

theorem complete_vreg_ne (f : Form) (len : Nat) {dst r : BitVec 5} (mask : Mask) (bits : Packed)
    (s : State) (h : r ≠ dst) : (complete f len dst mask bits s).vreg r = s.vreg r := by
  rw [complete, advance_vreg, vreg_setVreg_ne _ _ h]

/-- The advance of `pc` wraps at 2^64, in M32 at 2^32 (R17, D9). -/
theorem advance_pc_toNat (s : State) (i : Instr) : (s.advance i.len).pc.toNat = nextPc s i := by
  unfold State.advance nextPc
  cases s.mode with
  | m64 => simp
  | m32 =>
    simp only [BitVec.toNat_setWidth, BitVec.toNat_add, BitVec.toNat_ofNat]
    omega

/-- Every completion stays within the frame of R86 and R95. -/
theorem exec_frame {i : Instr} {s t : State} (h : exec i s = .next t) : Frame i s t := by
  obtain ⟨_, bits, ⟨hsig, hsae, rfl⟩ | ⟨hquiet, rfl⟩⟩ := exec_eq_next h
  · refine ⟨fun r hr => complete_vreg_ne _ _ _ _ _ hr, fun _ _ => rfl, ?_,
      advance_pc_toNat s i, fun _ => rfl, rfl, rfl⟩
    rintro (h | h)
    · exact absurd (hsae.symm.trans h) (by decide)
    · exact absurd hsig h
  · refine ⟨fun r hr => complete_vreg_ne _ _ _ _ _ hr, fun hsae hsig => ?_, fun _ => rfl,
      advance_pc_toNat s i, fun _ => rfl, rfl, rfl⟩
    rcases hquiet with h | h
    · exact absurd (hsae.symm.trans h) (by decide)
    · exact absurd hsig h

/-- Within the frame MXCSR is kept, or has IE set by an Invalid that is not suppressed (R15). -/
theorem mxcsr_of_frame {i : Instr} {s t : State} (h : Frame i s t) :
    t.mxcsr = s.mxcsr ∨ (t.mxcsr = s.mxcsr ||| 1 ∧ Signals i s ∧ i.sae = false) := by
  obtain ⟨-, hset, hkeep, -⟩ := h
  by_cases hquiet : i.sae = true ∨ ¬ Signals i s
  · exact .inl (hkeep hquiet)
  · obtain ⟨hsae, hsig⟩ := not_or.mp hquiet
    have hsae := Bool.eq_false_iff.mpr hsae
    have hsig := not_not.mp hsig
    exact .inr ⟨hset hsae hsig, hsig, hsae⟩

/-- Settles O48: a step that goes on is a completion of the decoded instruction, whose frame says the
rest. -/
theorem stepWriteSet : Obligations.StepWriteSet := by
  unfold Obligations.StepWriteSet
  intro s t h
  obtain ⟨i, hi, hexec⟩ := step_eq_next h
  obtain ⟨hvec, -, -, hpc, hmem, hmark, hrest⟩ := exec_frame hexec
  exact ⟨i, hi, hvec, mxcsr_of_frame (exec_frame hexec), hpc, hmem, hmark, hrest⟩

/-! ### The invariant -/

/-- Above the lanes of the form the destination is 0 after a completion (R94). -/
theorem exec_dest_lt {i : Instr} {s t : State} (h : exec i s = .next t) :
    (t.vreg i.dest).toNat < 2 ^ vectorLength i.form := by
  obtain ⟨_, bits, ⟨_, _, rfl⟩ | ⟨_, rfl⟩⟩ := exec_eq_next h <;>
    rw [complete_vreg_dest] <;> exact packFields_lt 32 (by decide) _ _

/-- An enabled form fits the vector registers (R4, R101 h). -/
theorem vectorLength_le_maxVL {f : Form} {s : State} (h : enabled f s = true) :
    vectorLength f ≤ s.maxVL := by
  obtain ⟨-, -, -, -, -, -, havx512f, -⟩ := (enabled_iff f s).mp h
  unfold State.maxVL
  cases f with
  | evex512 => simp [vectorLength, laneCount, havx512f]
  | vex128 | vex256 | evex128 | evex256 => split <;> decide

/-- Without AVX512F an enabled instruction is a VEX form, which names registers 0 to 15 only (R12). -/
theorem dest_lt_of_not_avx512f {i : Instr} {s : State} (h : enabled i.form s = true)
    (hoff : s.cpuid.avx512f = false) : i.dest.toNat < 16 := by
  obtain ⟨-, -, -, -, -, -, havx512f, -⟩ := (enabled_iff i.form s).mp h
  have hvex : ¬ (i.form ≠ .vex128 ∧ i.form ≠ .vex256) := fun hev =>
    Bool.false_ne_true (hoff.symm.trans (havx512f hev))
  cases i with
  | vcvtph2psVex128 pfx dst src | vcvtph2psVex256 pfx dst src =>
    simpa [Instr.dest] using by omega
  | vcvtph2psEvex128 | vcvtph2psEvex256 | vcvtph2psEvex512 | vcvtph2psEvex512Sae =>
    exact absurd (by simp [Instr.form]) hvex

/-- Setting IE leaves the reserved bits of MXCSR (R14, R15). -/
theorem extractLsb'_or_one (m : BitVec 32) :
    (m ||| 1).extractLsb' 16 16 = m.extractLsb' 16 16 := by
  rw [BitVec.extractLsb'_or]
  simp

/-- A completion keeps the invariant. -/
theorem exec_keeps_inv {i : Instr} {s t : State} (hs : s.Inv) (h : exec i s = .next t) : t.Inv := by
  have hen := (exec_eq_next h).1
  have hdest := exec_dest_lt h
  have hmxcsr := mxcsr_of_frame (exec_frame h)
  obtain ⟨hvec, -, -, hpc, -, -, hrest⟩ := exec_frame h
  have hmode : t.mode = s.mode := by rw [hrest]
  have hcpuid : t.cpuid = s.cpuid := by rw [hrest]
  have hplat : t.plat = s.plat := by rw [hrest]
  have hk : t.k = s.k := by rw [hrest]
  have hmem : t.mem = s.mem := by rw [hrest]
  have hmaxVL : t.maxVL = s.maxVL := by rw [State.maxVL, State.maxVL, hcpuid]
  refine ⟨hmem ▸ hs.memory, fun hm => ?_, ?_, fun r => ?_, fun hoff r hr => ?_, fun r => ?_⟩
  · rw [hpc, nextPc, ← hmode, hm]
    exact Nat.mod_lt _ (by decide)
  · rcases hmxcsr with hm | ⟨hm, -⟩
    · rw [hm]
      exact hs.mxcsrReserved
    · rw [hm, extractLsb'_or_one]
      exact hs.mxcsrReserved
  · rw [hmaxVL]
    by_cases hr : r = i.dest
    · rw [hr]
      exact hdest.trans_le (Nat.pow_le_pow_right (by decide) (vectorLength_le_maxVL hen))
    · rw [hvec r hr]
      exact hs.vectorWidth r
  · rw [hcpuid] at hoff
    have hlt := dest_lt_of_not_avx512f hen hoff
    rw [hvec r (by rintro rfl; omega)]
    exact hs.vectorCount hoff r hr
  · rw [State.opmask, hk, State.kw, hplat]
    exact hs.opmaskWidth r

/-- Settles O49: the step is a completion, and that keeps the invariant. -/
theorem stepKeepsInvariant : Obligations.StepKeepsInvariant := by
  unfold Obligations.StepKeepsInvariant
  intro s t hs h
  obtain ⟨i, -, hexec⟩ := step_eq_next h
  exact exec_keeps_inv hs hexec

/-! ### What a completion depends on (R84, R85, R93) -/

/-- The lanes of the form are active in `s'` where they are in `s`, and NaNs convert alike. -/
structure LanesAlike (f : Form) (mask : Mask) (s s' : State) : Prop where
  active_eq : ∀ j < laneCount f, active s' mask j = active s mask j
  nanConv_eq : s'.plat.nanConv = s.plat.nanConv

/-- All that the execution of `i` asks of a state has the same answer in `s'` as in `s`. -/
structure AnswersAlike (i : Instr) (s s' : State) : Prop where
  lanesAlike : LanesAlike i.form i.mask s s'
  recognised_eq : recognised i.form s' = recognised i.form s
  mode_eq : s'.mode = s.mode
  unwritten_eq : s'.unwritten = s.unwritten
  im_eq : s'.im = s.im
  readSource_eq : ∀ bits, readSource i.form i.len i.pfx i.source i.mask s = .next bits →
    readSource i.form i.len i.pfx i.source i.mask s' = .next bits

theorem any_range_congr {n : Nat} {p q : Nat → Bool} (h : ∀ j < n, p j = q j) :
    (List.range n).any p = (List.range n).any q := by
  rw [Bool.eq_iff_iff, List.any_eq_true, List.any_eq_true]
  simp only [List.mem_range]
  exact exists_congr fun j => and_congr_right fun hj => by rw [h j hj]

section
variable {f : Form} {mask : Mask} {s s' : State}

theorem anyInvalid_congr (h : LanesAlike f mask s s') (bits : Packed) :
    anyInvalid f mask bits s' = anyInvalid f mask bits s := by
  unfold anyInvalid
  rw [h.nanConv_eq]
  exact any_range_congr fun j hj => by rw [h.active_eq j hj]

theorem keptRegs_congr (h : LanesAlike f mask s s') (dst : BitVec 5) :
    keptRegs f dst mask s' = keptRegs f dst mask s := by
  unfold keptRegs
  rw [any_range_congr fun j hj => by rw [h.active_eq j hj]]

theorem resultRegs_congr (h : LanesAlike f mask s s') (him : s'.im = s.im) (dst : BitVec 5)
    (sae : Bool) (bits : Packed) :
    resultRegs f dst mask sae bits s' = resultRegs f dst mask sae bits s := by
  unfold resultRegs
  rw [anyInvalid_congr h, keptRegs_congr h, him]

theorem destValue_congr (h : LanesAlike f mask s s') (bits : Packed) (old : VWord) :
    destValue f mask bits old s' = destValue f mask bits old s := by
  refine packFields_congr 32 _ fun j hj => ?_
  unfold destLane
  rw [h.active_eq j hj, h.nanConv_eq]

end

/-- Once the form is recognised and all that is read is written, an execution is the conversion of its
lanes. -/
theorem execForm_eq_convertLanes {f : Form} {len : Nat} {pfx : List LegacyPrefix} {dst : BitVec 5}
    {src : Operand 5} {mask : Mask} {sae : Bool} {s : State} {bits : Packed}
    (hrec : recognised f s = none)
    (hoperand : ∀ r ∈ maskRegs mask ++ sourceRegs s.mode pfx src, r ∉ s.unwritten)
    (hb : readSource f len pfx src mask s = .next bits)
    (hresult : ∀ r ∈ resultRegs f dst mask sae bits s, r ∉ s.unwritten) :
    execForm f len pfx dst src mask sae s = convertLanes f len dst mask sae bits s := by
  rw [execForm, hrec]
  simp only [(requireWritten_eq_next (u := ())).mpr hoperand, andThen_next, hb,
    (requireWritten_eq_next (u := ())).mpr hresult]

/-- A completion carries over to every state that answers alike: there the same lanes are converted, and
IE is set if it was. -/
theorem exec_of_answersAlike {i : Instr} {s s' t : State} (h : AnswersAlike i s s')
    (ht : exec i s = .next t) :
    ∃ bits, (t = complete i.form i.len i.dest i.mask bits s.setIE ∧
        exec i s' = .next (complete i.form i.len i.dest i.mask bits s'.setIE)) ∨
      (t = complete i.form i.len i.dest i.mask bits s ∧
        exec i s' = .next (complete i.form i.len i.dest i.mask bits s')) := by
  rw [exec_eq_execForm] at ht ⊢
  obtain ⟨hrec, hoperand, bits, hb, hresult, hdone⟩ := execForm_eq_next ht
  have hexec := execForm_eq_convertLanes (s := s') (dst := i.dest) (sae := i.sae)
    (h.recognised_eq.trans hrec) (by rw [h.mode_eq, h.unwritten_eq]; exact hoperand)
    (h.readSource_eq bits hb)
    (by rw [resultRegs_congr h.lanesAlike h.im_eq, h.unwritten_eq]; exact hresult)
  rw [convertLanes, anyInvalid_congr h.lanesAlike, h.im_eq] at hexec
  refine ⟨bits, ?_⟩
  rcases hdone with ⟨hinv, him, rfl⟩ | ⟨hinv, rfl⟩
  · rw [if_pos hinv, if_pos him] at hexec
    exact .inl ⟨rfl, hexec⟩
  · rw [if_neg (Bool.eq_false_iff.mp hinv)] at hexec
    exact .inr ⟨rfl, hexec⟩

/-- No check and no byte of a memory operand depends on MXCSR. -/
theorem readSource_mxcsr {f : Form} {len : Nat} {pfx : List LegacyPrefix} {src : Operand 5}
    {mask : Mask} {s : State} {bits : Packed} (m : BitVec 32)
    (h : readSource f len pfx src mask s = .next bits) :
    readSource f len pfx src mask { s with mxcsr := m } = .next bits := by
  cases src with
  | reg n => exact h
  | mem o =>
    obtain ⟨hwraps, hchecks, hbits⟩ := memRead_eq_next.mp h
    exact memRead_eq_next.mpr ⟨hwraps, hchecks, hbits⟩

theorem answersAlike_mxcsr (i : Instr) {s : State} {m : BitVec 32}
    (hm : m.getLsbD 7 = s.mxcsr.getLsbD 7) : AnswersAlike i s { s with mxcsr := m } where
  lanesAlike := ⟨fun _ _ => rfl, rfl⟩
  recognised_eq := rfl
  mode_eq := rfl
  unwritten_eq := rfl
  im_eq := hm
  readSource_eq _ := readSource_mxcsr m

/-- Settles O30: a state with the same IM answers alike, and the completion there differs in MXCSR
only. -/
theorem onlyMaskBitOfMxcsrRead : Obligations.OnlyMaskBitOfMxcsrRead := by
  unfold Obligations.OnlyMaskBitOfMxcsrRead
  intro i s t m hm ht
  obtain ⟨bits, ⟨rfl, hexec⟩ | ⟨rfl, hexec⟩⟩ := exec_of_answersAlike (answersAlike_mxcsr i hm) ht
  · exact ⟨m ||| 1, hexec, .inr rfl⟩
  · exact ⟨m, hexec, .inl rfl⟩

/-- Of the opmask registers a source read depends on the activity of the lanes alone. -/
theorem readSource_opmask {f : Form} {len : Nat} {pfx : List LegacyPrefix} {src : Operand 5}
    {mask : Mask} {s : State} {bits : Packed} {k : Vector Word 8}
    (hk : ∀ j < laneCount f, active { s with k := k } mask j = active s mask j)
    (h : readSource f len pfx src mask s = .next bits) :
    readSource f len pfx src mask { s with k := k } = .next bits := by
  have hbyte : ∀ b < memBytes f, active { s with k := k } mask (b / 2) = active s mask (b / 2) :=
    fun b hb => hk _ (by rw [memBytes] at hb; omega)
  cases src with
  | reg n => exact h
  | mem o =>
    obtain ⟨hwraps, hchecks, rfl⟩ := memRead_eq_next.mp h
    refine memRead_eq_next.mpr ⟨hwraps, fun b hb ha => hchecks b hb (hbyte b hb ▸ ha), ?_⟩
    exact packFields_congr 8 _ fun b hb => by rw [hbyte b hb]; rfl

theorem answersAlike_opmask {i : Instr} {s : State} {k : Vector Word 8}
    (hk : ∀ j < lanes i, laneActive i { s with k := k } j = laneActive i s j) :
    AnswersAlike i s { s with k := k } where
  lanesAlike := ⟨hk, rfl⟩
  recognised_eq := rfl
  mode_eq := rfl
  unwritten_eq := rfl
  im_eq := rfl
  readSource_eq _ := readSource_opmask hk

/-- A completion does not touch the opmask registers, and its new destination depends on the activity of
the lanes alone. -/
theorem complete_opmask {i : Instr} {s : State} {k : Vector Word 8} (bits : Packed)
    (hk : ∀ j < lanes i, laneActive i { s with k := k } j = laneActive i s j) :
    complete i.form i.len i.dest i.mask bits { s with k := k } =
      { complete i.form i.len i.dest i.mask bits s with k := k } := by
  have hl : LanesAlike i.form i.mask s { s with k := k } := ⟨hk, rfl⟩
  rw [complete_eq, complete_eq, destValue_congr hl]
  rfl

/-- Settles O47: opmask registers with the same active lanes answer alike, and a completion keeps
them. -/
theorem highMaskBitsNotRead : Obligations.HighMaskBitsNotRead := by
  unfold Obligations.HighMaskBitsNotRead
  intro i s t k hk ht
  obtain ⟨bits, ⟨rfl, hexec⟩ | ⟨rfl, hexec⟩⟩ := exec_of_answersAlike (answersAlike_opmask hk) ht
  · exact hexec.trans (congrArg _ (complete_opmask (s := s.setIE) bits hk))
  · exact hexec.trans (congrArg _ (complete_opmask bits hk))

/-! ### Addresses and segments (R20, R35, R63) -/

theorem linear_toNat_m64 {s : State} (h : s.mode = .m64) (seg : Seg) (off : Nat) :
    (linear s seg off).toNat = ((segBase s seg).toNat + off) % 2 ^ 64 := by
  simp [linear, h]

theorem linear_toNat_m32 {s : State} (h : s.mode = .m32) (seg : Seg) (off : Nat) :
    (linear s seg off).toNat = ((segBase s seg).toNat + off) % 2 ^ 32 := by
  simp only [linear, h, BitVec.toNat_setWidth, BitVec.toNat_add, BitVec.toNat_ofNat]
  omega

theorem segBase_m64 {s : State} (h : s.mode = .m64) (seg : Seg) :
    segBase s seg = if seg = .fs ∨ seg = .gs then (s.segs.get seg).base else 0 := by
  simp [segBase, h]

theorem segBase_toNat_m32 {s : State} (h : s.mode = .m32) (seg : Seg) :
    (segBase s seg).toNat = (s.segs.get seg).base.toNat % 2 ^ 32 := by
  simp only [segBase, h, BitVec.toNat_setWidth]
  omega

/-- Settles O52: the linear address over the base that each segment contributes. -/
theorem linearAddress : Obligations.LinearAddress := by
  unfold Obligations.LinearAddress
  intro s seg off
  constructor
  · intro h
    rw [linear_toNat_m64 h, segBase_m64 h]
    cases seg <;> simp [SegFile.get]
  · intro h
    rw [linear_toNat_m32 h, segBase_toNat_m32 h]
    cases seg <;> rfl

/-- With no override that counts an operand has its default segment (R63). -/
theorem operandSeg_of_not_overridden {m : Mode} {pfx : List LegacyPrefix} (o : MemOp)
    (h : ∀ g, .seg g ∈ pfx → m = .m64 ∧ g ≠ .fs ∧ g ≠ .gs) : operandSeg m pfx o = defaultSeg o := by
  have hnone : pfx.filterMap (overrideOf m) = [] := by
    refine List.filterMap_eq_nil_iff.mpr fun p hp => ?_
    cases p with
    | addrSize => rfl
    | seg g => exact if_pos (h g hp)
  rw [operandSeg, hnone]
  rfl

/-- Settles O54: the operand has its default segment, which each shape of operand says. -/
theorem defaultSegment : Obligations.DefaultSegment := by
  unfold Obligations.DefaultSegment
  intro i s o hpfx
  have hseg : (refOf i o s).seg = defaultSeg o := operandSeg_of_not_overridden o hpfx
  rw [hseg]
  refine ⟨?_, ?_, ?_, ?_, ?_, ?_⟩
  · rintro b d rfl; rfl
  · rintro b ix d rfl; rfl
  · rintro ix d rfl; rfl
  · rintro d rfl; rfl
  · rintro rm d rfl; rfl
  · rintro d rfl; rfl

/-! ### The state after reset (R23) -/

theorem reset_vreg (r : BitVec 5) : State.reset.vreg r = 0 := by
  simp only [State.vreg, State.reset, Vector.getElem_replicate,
    BitVec.zero_eq, BitVec.ofNat_eq_ofNat]

theorem reset_opmask (r : BitVec 3) : State.reset.opmask r = 0 := by
  simp only [State.opmask, State.reset, Vector.getElem_replicate]

theorem reset_not_enabled (f : Form) : enabled f State.reset = false := by cases f <;> decide

/-- Settles O50: all registers are 0 after reset, and MXCSR is 1F80h. -/
theorem resetMeetsInvariant : Obligations.ResetMeetsInvariant where
  memory := reset_mem_wf
  eip _ := by decide
  mxcsrReserved := by decide
  vectorWidth r := by
    rw [reset_vreg, BitVec.ofNat_eq_ofNat, BitVec.toNat_zero]
    exact Nat.two_pow_pos _
  vectorCount _ r _ := reset_vreg r
  opmaskWidth r := by
    rw [reset_opmask, BitVec.ofNat_eq_ofNat, BitVec.toNat_zero]
    exact Nat.two_pow_pos _

/-- Settles O51: the values stand in `State.reset`; CR0.PE and CR4.OSXSAVE are 0, so no form is
enabled. -/
theorem resetValues : Obligations.ResetValues := by
  unfold Obligations.ResetValues
  exact ⟨reset_vreg, reset_opmask, rfl, by decide, by decide, rfl, rfl, rfl, rfl, reset_not_enabled,
    fun i => exec_of_not_enabled (reset_not_enabled i.form)⟩

end Sys2Proof.Proofs
end

section
/-!
PROOFS. Decoding of bytes that end early (30_encoding.md R64): what the decoder answers on some bytes it
answers on every continuation of them, and the instruction it answers lies within them. So the bytes of an
instruction that are cut are answered `short`, and the fetch of the next one decides (20_memory.md R38).
-/

namespace Sys2Proof.Proofs

open Sys2Proof.Machine

/-! ### Operands: the bytes read, and that no later byte is looked at (R55 to R62) -/

theorem readD32_within {l : List Byte} {d : BitVec 32} (h : readD32 l = some d) :
    4 ≤ l.length ∧ ∀ r, readD32 (l ++ r) = some d := by
  match l, h with
  | b0 :: b1 :: b2 :: b3 :: t, h => exact ⟨by simp, fun r => h⟩

theorem readD16_within {l : List Byte} {d : BitVec 16} (h : readD16 l = some d) :
    2 ≤ l.length ∧ ∀ r, readD16 (l ++ r) = some d := by
  match l, h with
  | b0 :: b1 :: t, h => exact ⟨by simp, fun r => h⟩

theorem head?_within {l : List Byte} {b : Byte} (h : l.head? = some b) :
    1 ≤ l.length ∧ ∀ r, (l ++ r).head? = some b := by
  match l, h with
  | b0 :: t, h => exact ⟨by simp, fun r => h⟩

/-- A reader's answer under a constructor: it lies within the bytes as the reader's own answer does. -/
theorem map_within {α β : Type} {read : List Byte → Option α} {f : α → β} (size : β → Nat)
    {l : List Byte} {n : Nat} {y : β}
    (hread : ∀ {a}, read l = some a → size (f a) ≤ n ∧ ∀ r, read (l ++ r) = some a)
    (h : (read l).map f = some y) : size y ≤ n ∧ ∀ r, (read (l ++ r)).map f = some y := by
  obtain ⟨a, ha, rfl⟩ := Option.map_eq_some_iff.mp h
  obtain ⟨hlen, happ⟩ := hread ha
  exact ⟨hlen, fun r => by rw [happ, Option.map_some]⟩

theorem readDisp_within {md : BitVec 2} {l : List Byte} {d : Disp} (h : readDisp md l = some d) :
    d.bytes.length ≤ l.length ∧ ∀ r, readDisp md (l ++ r) = some d := by
  unfold readDisp at h ⊢
  split_ifs at h ⊢
  · cases h
    exact ⟨Nat.zero_le _, fun r => rfl⟩
  · exact map_within (·.bytes.length) head?_within h
  · exact map_within (·.bytes.length) readD32_within h

theorem readDisp16_within {md : BitVec 2} {l : List Byte} {d : Disp16}
    (h : readDisp16 md l = some d) :
    d.bytes.length ≤ l.length ∧ ∀ r, readDisp16 md (l ++ r) = some d := by
  unfold readDisp16 at h ⊢
  split_ifs at h ⊢
  · cases h
    exact ⟨Nat.zero_le _, fun r => rfl⟩
  · exact map_within (·.bytes.length) head?_within h
  · exact map_within (·.bytes.length) readD16_within h

/-- The SIB byte itself is counted with the operand's bytes. -/
theorem readSib_within {x b : Bool} {md : BitVec 2} {sib : Byte} {l : List Byte} {o : MemOp}
    (h : readSib x b md sib l = some o) :
    o.tail.rest.length ≤ l.length + 1 ∧ ∀ r, readSib x b md sib (l ++ r) = some o := by
  unfold readSib at h ⊢
  split_ifs at h ⊢
  · exact map_within (·.tail.rest.length)
      (fun ha => (readD32_within ha).imp_left Nat.succ_le_succ) h
  · exact map_within (·.tail.rest.length)
      (fun ha => (readDisp_within ha).imp_left Nat.succ_le_succ) h

/-- At address size 32 or 64. -/
theorem readMem_a64_within {x b : Bool} {md : BitVec 2} {rm : BitVec 3} {l : List Byte} {o : MemOp}
    (h : readMem .a64 x b md rm l = some o) :
    o.tail.rest.length ≤ l.length ∧ ∀ r, readMem .a64 x b md rm (l ++ r) = some o := by
  simp only [readMem] at h ⊢
  split_ifs at h ⊢
  · match l, h with
    | sib :: bs, h => exact readSib_within h
  · exact map_within (·.tail.rest.length) readD32_within h
  · exact map_within (·.tail.rest.length) readDisp_within h

theorem readMem_within {a : AddrSize} {x b : Bool} {md : BitVec 2} {rm : BitVec 3} {l : List Byte}
    {o : MemOp} (h : readMem a x b md rm l = some o) :
    o.tail.rest.length ≤ l.length ∧ ∀ r, readMem a x b md rm (l ++ r) = some o := by
  cases a with
  | a64 => exact readMem_a64_within h
  | a32 => exact readMem_a64_within h
  | a16 =>
    simp only [readMem] at h ⊢
    split_ifs at h ⊢
    · exact map_within (·.tail.rest.length) readD16_within h
    · exact map_within (·.tail.rest.length) readDisp16_within h

theorem readOperandVex_within {a : AddrSize} {x b : Bool} {modrm : Byte} {l : List Byte}
    {src : Operand 4} (h : readOperandVex a x b modrm l = some src) :
    src.tail.rest.length ≤ l.length ∧ ∀ r, readOperandVex a x b modrm (l ++ r) = some src := by
  unfold readOperandVex at h ⊢
  split_ifs at h ⊢
  · cases h
    exact ⟨Nat.zero_le _, fun r => rfl⟩
  · exact map_within (·.tail.rest.length) readMem_within h

theorem readOperandEvex_within {a : AddrSize} {x b : Bool} {modrm : Byte} {l : List Byte}
    {src : Operand 5} (h : readOperandEvex a x b modrm l = some src) :
    src.tail.rest.length ≤ l.length ∧ ∀ r, readOperandEvex a x b modrm (l ++ r) = some src := by
  unfold readOperandEvex at h ⊢
  split_ifs at h ⊢
  · cases h
    exact ⟨Nat.zero_le _, fun r => rfl⟩
  · exact map_within (·.tail.rest.length) readMem_within h

/-! ### The body after the prefixes (R64 steps 2 and 3) -/

/-- The last checks answer no instruction but the one they were given. -/
theorem checked_eq_instr {po : Policy} {m : Mode} {raw : List Byte} {len : Nat} {ext bad : Bool}
    {i j : Instr} (h : checked po m raw len ext bad i = .instr j) : j = i := by
  unfold checked at h
  split_ifs at h
  exact (Decoded.instr.inj h).symm

theorem evexInstr_len (pfx : List LegacyPrefix) (dst : BitVec 5) (src : Operand 5) (mask : Mask)
    (b : Bool) (ll : BitVec 2) : (evexInstr pfx dst src mask b ll).len = evexLen pfx src := by
  unfold evexInstr
  split
  · rfl
  · split_ifs <;> rfl

section
variable {po : Policy} {m : Mode} {raw l : List Byte}

theorem vexBody_append {p1 p2 modrm : Byte} (h : vexBody po m raw p1 p2 modrm l ≠ .short)
    (r : List Byte) : vexBody po m raw p1 p2 modrm (l ++ r) = vexBody po m raw p1 p2 modrm l := by
  unfold vexBody at h ⊢
  cases hsrc : readOperandVex (addrSize m (raw.filterMap legacyOf)) (extBit m p1 6) (extBit m p1 5)
      modrm l with
  | none => simp [hsrc] at h
  | some src => simp only [hsrc, (readOperandVex_within hsrc).2 r]

theorem vexBody_len {p1 p2 modrm : Byte} {i : Instr}
    (h : vexBody po m raw p1 p2 modrm l = .instr i) : i.len ≤ raw.length + 5 + l.length := by
  unfold vexBody at h
  cases hsrc : readOperandVex (addrSize m (raw.filterMap legacyOf)) (extBit m p1 6) (extBit m p1 5)
      modrm l with
  | none => simp [hsrc] at h
  | some src =>
    simp only [hsrc] at h
    have hrest := (readOperandVex_within hsrc).1
    have hpfx := List.length_filterMap_le legacyOf raw
    have hlen : i.len = vexLen (raw.filterMap legacyOf) src := by
      rw [checked_eq_instr h]
      split_ifs <;> rfl
    rw [hlen, vexLen]
    omega

theorem evexBody_append {p0 p1 p2 modrm : Byte} (h : evexBody po m raw p0 p1 p2 modrm l ≠ .short)
    (r : List Byte) :
    evexBody po m raw p0 p1 p2 modrm (l ++ r) = evexBody po m raw p0 p1 p2 modrm l := by
  unfold evexBody at h ⊢
  cases hsrc : readOperandEvex (addrSize m (raw.filterMap legacyOf)) (extBit m p0 6) (extBit m p0 5)
      modrm l with
  | none => simp [hsrc] at h
  | some src => simp only [hsrc, (readOperandEvex_within hsrc).2 r]

theorem evexBody_len {p0 p1 p2 modrm : Byte} {i : Instr}
    (h : evexBody po m raw p0 p1 p2 modrm l = .instr i) : i.len ≤ raw.length + 6 + l.length := by
  unfold evexBody at h
  cases hsrc : readOperandEvex (addrSize m (raw.filterMap legacyOf)) (extBit m p0 6) (extBit m p0 5)
      modrm l with
  | none => simp [hsrc] at h
  | some src =>
    simp only [hsrc] at h
    have hrest := (readOperandEvex_within hsrc).1
    have hpfx := List.length_filterMap_le legacyOf raw
    rw [checked_eq_instr h, evexInstr_len, evexLen]
    omega

/-- A test of the bytes so far comes out the same with more bytes after them, so only the branch that goes
on needs an argument. -/
theorem ite_refused_append {c : Prop} [Decidable c] {d e e' : Decoded}
    (h : (if c then d else e) ≠ .short) (he : e ≠ .short → e' = e) :
    (if c then d else e') = if c then d else e := by
  split_ifs at h ⊢
  · rfl
  · exact he h

theorem decodeVex_append (h : decodeVex po m raw l ≠ .short) (r : List Byte) :
    decodeVex po m raw (l ++ r) = decodeVex po m raw l := by
  rcases l with _ | ⟨p1, _ | ⟨p2, _ | ⟨op, _ | ⟨modrm, rest⟩⟩⟩⟩
  · exact absurd rfl h
  · exact ite_refused_append h fun h => absurd rfl h
  · exact ite_refused_append h fun h => ite_refused_append h fun h => absurd rfl h
  · exact ite_refused_append h fun h => ite_refused_append h fun h =>
      ite_refused_append h fun h => absurd rfl h
  · exact ite_refused_append h fun h => ite_refused_append h fun h =>
      ite_refused_append h fun h => vexBody_append h r

theorem decodeEvex_append (h : decodeEvex po m raw l ≠ .short) (r : List Byte) :
    decodeEvex po m raw (l ++ r) = decodeEvex po m raw l := by
  rcases l with _ | ⟨p0, _ | ⟨p1, _ | ⟨p2, _ | ⟨op, _ | ⟨modrm, rest⟩⟩⟩⟩⟩
  · exact absurd rfl h
  · exact ite_refused_append h fun h => absurd rfl h
  · exact ite_refused_append h fun h => ite_refused_append h fun h => absurd rfl h
  · exact ite_refused_append h fun h => ite_refused_append h fun h => absurd rfl h
  · exact ite_refused_append h fun h => ite_refused_append h fun h =>
      ite_refused_append h fun h => absurd rfl h
  · exact ite_refused_append h fun h => ite_refused_append h fun h =>
      ite_refused_append h fun h => evexBody_append h r

theorem instr_of_ite_refused {c : Prop} [Decidable c] {q : DecodeRefusal} {e : Decoded} {i : Instr}
    (h : (if c then .refused q else e) = .instr i) : e = .instr i := by
  split_ifs at h
  exact h

theorem decodeVex_len {i : Instr} (h : decodeVex po m raw l = .instr i) :
    i.len ≤ raw.length + 1 + l.length := by
  rcases l with _ | ⟨p1, _ | ⟨p2, _ | ⟨op, _ | ⟨modrm, rest⟩⟩⟩⟩
  · exact nomatch (show Decoded.short = .instr i from h)
  · exact nomatch (instr_of_ite_refused h : Decoded.short = .instr i)
  · exact nomatch (instr_of_ite_refused (instr_of_ite_refused h) : Decoded.short = .instr i)
  · exact nomatch (instr_of_ite_refused (instr_of_ite_refused (instr_of_ite_refused h)) :
      Decoded.short = .instr i)
  · have hlen := vexBody_len (instr_of_ite_refused (instr_of_ite_refused (instr_of_ite_refused h)))
    simp only [List.length_cons]
    omega

theorem decodeEvex_len {i : Instr} (h : decodeEvex po m raw l = .instr i) :
    i.len ≤ raw.length + 1 + l.length := by
  rcases l with _ | ⟨p0, _ | ⟨p1, _ | ⟨p2, _ | ⟨op, _ | ⟨modrm, rest⟩⟩⟩⟩⟩
  · exact nomatch (show Decoded.short = .instr i from h)
  · exact nomatch (instr_of_ite_refused h : Decoded.short = .instr i)
  · exact nomatch (instr_of_ite_refused (instr_of_ite_refused h) : Decoded.short = .instr i)
  · exact nomatch (instr_of_ite_refused (instr_of_ite_refused h) : Decoded.short = .instr i)
  · exact nomatch (instr_of_ite_refused (instr_of_ite_refused (instr_of_ite_refused h)) :
      Decoded.short = .instr i)
  · have hlen := evexBody_len (instr_of_ite_refused (instr_of_ite_refused (instr_of_ite_refused h)))
    simp only [List.length_cons]
    omega

end

/-! ### Prefixes and the whole decoder (R64) -/

theorem splitPrefixes_length (m : Mode) (l : List Byte) :
    (splitPrefixes m l).1.length + (splitPrefixes m l).2.length = l.length := by
  induction l with
  | nil => rfl
  | cons b bs ih =>
    rw [splitPrefixes]
    split_ifs
    · simp only [List.length_cons]
      omega
    · exact Nat.zero_add _

/-- Once a byte that is none of the prefixes has come, later bytes change nothing about them. -/
theorem splitPrefixes_append {m : Mode} {l t : List Byte} {b : Byte}
    (h : (splitPrefixes m l).2 = b :: t) (r : List Byte) :
    splitPrefixes m (l ++ r) = ((splitPrefixes m l).1, b :: (t ++ r)) := by
  induction l with
  | nil => simp [splitPrefixes] at h
  | cons c cs ih =>
    rw [List.cons_append, splitPrefixes]
    rw [splitPrefixes] at h ⊢
    split_ifs at h ⊢
    · rw [ih h]
    · obtain ⟨rfl, rfl⟩ := List.cons.inj h
      rfl

/-- What the decoder answers on some bytes it answers on every continuation of them. -/
theorem decode_append {po : Policy} {m : Mode} {l : List Byte} (h : decode po m l ≠ .short)
    (r : List Byte) : decode po m (l ++ r) = decode po m l := by
  unfold decode at h ⊢
  cases hsplit : (splitPrefixes m l).2 with
  | nil => simp [hsplit] at h
  | cons b t =>
    simp only [hsplit, splitPrefixes_append hsplit r] at h ⊢
    split_ifs at h ⊢
    · exact decodeVex_append h r
    · exact decodeEvex_append h r
    · rfl

/-- A decoded instruction lies within the bytes given. -/
theorem decode_len {po : Policy} {m : Mode} {l : List Byte} {i : Instr}
    (h : decode po m l = .instr i) : i.len ≤ l.length := by
  have hlen := splitPrefixes_length m l
  unfold decode at h
  cases hsplit : (splitPrefixes m l).2 with
  | nil => simp [hsplit] at h
  | cons b t =>
    rw [hsplit, List.length_cons] at hlen
    simp only [hsplit] at h
    split_ifs at h
    · have := decodeVex_len h
      omega
    · have := decodeEvex_len h
      omega

/-- An encoding that is cut is too short: an answer on it would be the instruction itself, which is
longer. -/
theorem decode_take_encode {po : Policy} {m : Mode} {i : Instr} {b : Nat} (h : i.wf po m = true)
    (hb : b < i.len) : decode po m ((encode i).take b) = .short := by
  by_contra hshort
  have hwhole := decode_append hshort ((encode i).drop b)
  rw [List.take_append_drop, ← List.append_nil (encode i), decode_encode h, List.append_nil] at hwhole
  have hlen := decode_len hwhole.symm
  rw [List.length_take] at hlen
  omega

/-! ### A byte of an instruction that cannot be fetched (R38) -/

/-- The first `b` bytes of an instruction stand at `pc` and can be fetched. -/
def HoldsUpTo (s : State) (i : Instr) (b : Nat) : Prop :=
  ∀ c < b, fetchCheck s c = .ok ∧ (encode i)[c]? = some (fetchByte s c)

theorem stored_take_of_holdsUpTo {s : State} {i : Instr} {b : Nat} (h : HoldsUpTo s i b) :
    Stored s 0 ((encode i).take b) := by
  intro c hc
  rw [List.length_take] at hc
  have hcb : c < b := by omega
  rw [Nat.zero_add, List.getElem?_take_of_lt hcb]
  exact h c hcb

/-- Where byte `b` of an instruction cannot be fetched, the fetch gives the bytes before it. -/
theorem fetchBytes_of_holdsUpTo {s : State} {i : Instr} {b : Nat} (hb : b < i.len)
    (hlen : i.len ≤ offsetCount) (h : HoldsUpTo s i b) (hfail : fetchCheck s b ≠ .ok) :
    fetchBytes s = (encode i).take b := by
  obtain ⟨x, body, henc, hx, hbody⟩ := encode_split i
  have hst := stored_take_of_holdsUpTo h
  have htake : ((encode i).take b).length = b := by
    rw [List.length_take, encode_length]
    omega
  have hi := encode_length i
  rw [henc, List.take_append] at hst htake ⊢
  rw [henc, List.length_append] at hi
  have hnx : isPrefixByte s.mode x = false := by
    rcases hx with rfl | rfl
    · exact isPrefixByte_vex _
    · exact isPrefixByte_evex _
  refine fetchBytes_of_missing hst (fun y hy => ?_) (fun y hy => ?_) ?_ ?_ (by rwa [htake])
  · obtain ⟨p, _, rfl⟩ := List.mem_map.mp (List.mem_of_mem_take hy)
    exact isPrefixByte_byte _ p
  · cases hn : b - (i.pfx.map LegacyPrefix.byte).length with
    | zero =>
      rw [hn] at hy
      cases hy
    | succ n =>
      rw [hn] at hy
      cases hy
      exact hnx
  · rw [List.length_take]
    omega
  · rw [List.length_take, List.length_cons, maxBody]
    omega

/-- Where byte `b` of an instruction cannot be fetched, the step is what that byte's fetch gives,
whatever breakpoint is set (assumption log 35). -/
theorem step_of_holdsUpTo {s : State} {i : Instr} {b : Nat}
    (hwf : i.wf s.plat.policy s.mode = true) (hb : b < i.len) (h : HoldsUpTo s i b)
    (hfail : fetchCheck s b ≠ .ok) : step s = fetchFails s ∧ (fetchBytes s).length = b := by
  obtain ⟨_, hlen, _⟩ := wf_iff.mp hwf
  have hfetch := fetchBytes_of_holdsUpTo hb (hlen.trans (by decide)) h hfail
  have hshort : decodeAt s = .short := by rw [decodeAt, hfetch, decode_take_encode hwf hb]
  refine ⟨by rw [step, hshort], ?_⟩
  rw [hfetch, List.length_take, encode_length]
  omega

/-- Settles O17: the bytes before the faulting one are too short for the decoder, and the step is that
byte's fetch. -/
theorem fetchFaultIsReported : Obligations.FetchFaultIsReported := by
  unfold Obligations.FetchFaultIsReported
  intro s i b x hwf hb hbefore hfault
  obtain ⟨hstep, hlen⟩ := step_of_holdsUpTo hwf hb hbefore (by rw [hfault]; exact Check.noConfusion)
  rw [hstep, fetchFails, hlen, hfault]
  rfl

end Sys2Proof.Proofs
end

section
/-!
PROOFS. Memory (20_memory.md): the checks of one byte, which segment, canonical form and the platform's map
decide (R36 to R38); what an operand's first refused byte, or one that wraps, does (R33, R35); that inactive
lanes are not checked (R41); the lanes of an operand (R30, R31); and that no step raises `#AC` (R34).
-/

namespace Sys2Proof.Proofs

open Sys2Proof.Machine

/-! ### A byte's segment (R37 items 1 and 2, R38) -/

section
variable {acc : Access} {s : State} {seg : Seg} {off : Nat}

theorem checkByte_of_segmentFault {x : Exception}
    (h : segmentFault acc s seg off (linear s seg off) = some x) :
    checkByte acc s seg off = .exc x := by
  rw [checkByte, h]

/-- Inside its segment a byte is the platform's map's to decide. -/
theorem checkByte_of_inside (h : segmentFault acc s seg off (linear s seg off) = none) :
    checkByte acc s seg off = admitCheck acc s (linear s seg off) := by
  rw [checkByte, h]

theorem segmentFault_m64 (h : s.mode = .m64) (lin : Word) :
    segmentFault acc s seg off lin =
      if canonical s.plat.la57 lin then none else some (segException seg) := by
  rw [segmentFault, h]

/-- In M32 a fetch, and a read of a usable segment, are checked against the limit alone. -/
theorem segmentFault_m32_usable (h : s.mode = .m32)
    (hu : acc = .fetch ∨ ((s.segs.get seg).readable = true ∧ (s.segs.get seg).null = false))
    (lin : Word) :
    segmentFault acc s seg off lin =
      if (s.segs.get seg).limit.toNat < off then some (segException seg) else none := by
  rw [segmentFault, h]
  refine if_neg ?_
  rintro ⟨rfl, hbad⟩
  obtain h | ⟨hread, hnull⟩ := hu
  · exact Access.noConfusion h
  · simp [hread, hnull] at hbad

theorem segmentFault_m32_unusable (h : s.mode = .m32)
    (hu : (s.segs.get seg).readable = false ∨ (s.segs.get seg).null = true) (lin : Word) :
    segmentFault .read s seg off lin =
      some (selectorException seg (decide ((s.segs.get seg).limit.toNat < off))) := by
  rw [segmentFault, h]
  exact if_pos ⟨rfl, hu⟩

theorem selectorException_of_ne {outside : Bool} (h : seg ≠ .ss) :
    selectorException seg outside = .gp := if_neg fun hss => h hss.1

theorem segException_cases (seg : Seg) : segException seg = .ss ∨ segException seg = .gp := by
  unfold segException
  split_ifs <;> simp

theorem selectorException_cases (seg : Seg) (outside : Bool) :
    selectorException seg outside = .ss ∨ selectorException seg outside = .gp := by
  unfold selectorException
  split_ifs <;> simp

/-- A segment gives `#SS` or `#GP` only (R37). -/
theorem segmentFault_eq_some {lin : Word} {x : Exception}
    (h : segmentFault acc s seg off lin = some x) : x = .ss ∨ x = .gp := by
  unfold segmentFault at h
  split at h
  · split_ifs at h
    exact Option.some.inj h ▸ segException_cases seg
  · split_ifs at h
    · exact Option.some.inj h ▸ selectorException_cases seg _
    · exact Option.some.inj h ▸ segException_cases seg

/-- A word is the sign extension of its bits `w` to 0 exactly when its bits from `w` up are equal. -/
theorem signExtend_setWidth_beq_iff {w : Nat} (hw : w < 63) (a : Word) :
    ((a.setWidth (w + 1)).signExtend 64 == a) = true ↔
      ∀ n, w ≤ n → n < 63 → a.getLsbD n = a.getLsbD 63 := by
  have hbit : ∀ n < 64, ((a.setWidth (w + 1)).signExtend 64).getLsbD n =
      if n < w + 1 then a.getLsbD n else a.getLsbD w := by
    intro n hn
    simp only [BitVec.getLsbD_signExtend, hn, decide_true, Bool.true_and, BitVec.getLsbD_setWidth,
      BitVec.msb_setWidth]
    split_ifs with hlow
    · simp [hlow]
    · simp
  rw [beq_iff_eq]
  constructor
  · intro heq n hwn hn
    have htop : ∀ k, w ≤ k → k < 64 → a.getLsbD k = a.getLsbD w := by
      intro k hwk hk
      have := hbit k hk
      rw [heq] at this
      split_ifs at this with hlow
      · rw [show k = w by omega]
      · exact this
    rw [htop n hwn (by omega), htop 63 (by omega) (by omega)]
  · intro hall
    refine BitVec.eq_of_getLsbD_eq fun n hn => ?_
    rw [hbit n hn]
    split_ifs with hlow
    · rfl
    · rw [hall w le_rfl hw]
      by_cases hn63 : n < 63
      · rw [hall n (by omega) hn63]
      · rw [show n = 63 by omega]

/-- The canonical check of R37 item 1 for both widths of linear addresses. -/
theorem canonical_iff (la57 : Bool) (a : Word) :
    canonical la57 a = true ↔
      ∀ n, (if la57 then 56 else 47) ≤ n → n < 63 → a.getLsbD n = a.getLsbD 63 := by
  unfold canonical
  cases la57 with
  | true => exact signExtend_setWidth_beq_iff (w := 56) (by decide) a
  | false => exact signExtend_setWidth_beq_iff (w := 47) (by decide) a

end

/-- Settles O44: in M64 a segment asks for the canonical form alone. -/
theorem nonCanonicalFaults : Obligations.NonCanonicalFaults := by
  unfold Obligations.NonCanonicalFaults
  intro acc s seg off hm low a
  constructor
  · rintro ⟨n, hlow, hn, hne⟩
    have hcanon : ¬ canonical s.plat.la57 a = true := fun hc =>
      hne ((canonical_iff _ _).mp hc n hlow hn)
    exact checkByte_of_segmentFault ((segmentFault_m64 hm a).trans (if_neg hcanon))
  · intro hall
    have hcanon : canonical s.plat.la57 a = true := (canonical_iff _ _).mpr hall
    exact checkByte_of_inside ((segmentFault_m64 hm a).trans (if_pos hcanon))

/-- Settles O55: a usable segment and a fetch have the limit check, an unusable segment the exception of a
selector. -/
theorem segmentChecksInM32 : Obligations.SegmentChecksInM32 := by
  unfold Obligations.SegmentChecksInM32
  intro s seg off hm g
  refine ⟨fun hu hlim => ?_, fun hu hss => ?_, fun hu _ => ?_, fun hu hlim => ?_,
    fun hcs hlim => ?_, fun _ hlim => ?_⟩
  · exact checkByte_of_segmentFault ((segmentFault_m32_usable hm (.inr hu) _).trans (if_pos hlim))
  · rw [checkByte_of_segmentFault (segmentFault_m32_unusable hm hu _), selectorException_of_ne hss]
  · rw [checkByte_of_segmentFault (segmentFault_m32_unusable hm hu _)]
    exact (selectorException_cases seg _).imp (congrArg Check.exc) (congrArg Check.exc)
  · exact checkByte_of_inside
      ((segmentFault_m32_usable hm (.inr hu) _).trans (if_neg (Nat.not_lt.mpr hlim)))
  · subst hcs
    exact checkByte_of_segmentFault ((segmentFault_m32_usable hm (.inl rfl) _).trans (if_pos hlim))
  · exact checkByte_of_inside
      ((segmentFault_m32_usable hm (.inl rfl) _).trans (if_neg (Nat.not_lt.mpr hlim)))

/-! ### The platform's map (R36, R37 item 3, R104) -/

/-- The bits P and RSVD of the error code that R104 gives a page. -/
def pageBits : PageWhy → BitVec 32
  | .notPresent => 0
  | .supervisor => 1
  | .reservedBit => 9

/-- A page refuses an access, but a supervisor page below CPL 3 does not (R37 item 3, R104). -/
theorem admitCheck_page {acc : Access} {s : State} {lin : Word} {why : PageWhy}
    (h : admitAt s.plat.addressMap lin = .page why) :
    admitCheck acc s lin =
      if why = .supervisor ∧ s.cpl ≠ 3 then .ok
      else .exc (.pf (accessCode acc s ||| pageBits why) lin) := by
  rw [admitCheck, h]
  cases why with
  | notPresent => simp [pageBits]
  | reservedBit => simp [pageBits]
  | supervisor => by_cases hcpl : s.cpl = 3 <;> simp [hcpl, pageBits]

/-- The error code bit by bit (R104, and R38 for I/D). -/
theorem accessCode_or_pageBits (acc : Access) (s : State) (why : PageWhy) :
    let code := accessCode acc s ||| pageBits why
    code.getLsbD 0 = (why != .notPresent) ∧ code.getLsbD 1 = false ∧
      code.getLsbD 2 = (s.cpl == 3) ∧ code.getLsbD 3 = (why == .reservedBit) ∧
      code.getLsbD 4 = (acc == .fetch) ∧ code.extractLsb' 5 27 = 0 := by
  have haccess : accessCode acc s =
      (if (s.cpl == 3) = true then 4 else 0) ||| (if acc = .fetch then 16 else 0) := by
    simp only [accessCode, beq_iff_eq]
  rw [haccess]
  generalize (s.cpl == 3) = user
  revert user
  cases acc <;> cases why <;> decide

/-- The map gives the exceptions of R100 for memory only. -/
theorem admitCheck_eq_exc {acc : Access} {s : State} {lin : Word} {x : Exception}
    (h : admitCheck acc s lin = .exc x) : x = .ss ∨ x = .gp ∨ ∃ code addr, x = .pf code addr := by
  cases hadmit : admitAt s.plat.addressMap lin with
  | ok | refused => simp [admitCheck, hadmit] at h
  | page why =>
    rw [admitCheck_page hadmit] at h
    split_ifs at h
    exact .inr (.inr ⟨_, _, (Check.exc.inj h).symm⟩)
  | fault y =>
    simp only [admitCheck, hadmit, Check.exc.injEq] at h
    subst h
    cases y with
    | ss => cases acc <;> simp [mapException]
    | gp => exact .inr (.inl rfl)
    | pf code => exact .inr (.inr ⟨_, _, rfl⟩)

/-- The check of a byte gives `#SS`, `#GP` or `#PF` only (R35, R37). -/
theorem checkByte_eq_exc {acc : Access} {s : State} {seg : Seg} {off : Nat} {x : Exception}
    (h : checkByte acc s seg off = .exc x) : x = .ss ∨ x = .gp ∨ ∃ code addr, x = .pf code addr := by
  cases hseg : segmentFault acc s seg off (linear s seg off) with
  | none => exact admitCheck_eq_exc (checkByte_of_inside hseg ▸ h)
  | some y =>
    rw [checkByte_of_segmentFault hseg] at h
    cases h
    exact (segmentFault_eq_some hseg).imp_right .inl

/-- Settles O45: each answer of the map, and the error code of a page. -/
theorem mapAnswers : Obligations.MapAnswers := by
  unfold Obligations.MapAnswers
  intro acc s seg off hinside a
  rw [checkByte_of_inside hinside]
  refine ⟨fun hadmit => ?_, ?_, fun why hadmit => ⟨fun hwhy hcpl => ?_, fun hcpl => ?_⟩⟩
  · rw [admitCheck, hadmit]
  · rintro rfl
    refine ⟨fun hadmit => ?_, fun hadmit => ?_, fun code hadmit => ?_⟩
    · rw [admitCheck, hadmit]; rfl
    · rw [admitCheck, hadmit]; rfl
    · rw [admitCheck, hadmit]; simp [mapException, a]
  · rw [admitCheck_page hadmit, if_pos ⟨hwhy, hcpl⟩]
  · rw [admitCheck_page hadmit, if_neg fun h => h.2 (hcpl h.1)]
    exact ⟨_, rfl, accessCode_or_pageBits acc s why⟩

/-! ### No `#AC` (R34, R106) -/

/-- Where the exception of an execution comes from. -/
theorem exec_eq_fault {i : Instr} {s t : State} {x : Exception}
    (h : exec i s = .fault (.exception x t)) :
    recognised i.form s = some x ∨
      (∃ o b, i.source = .mem o ∧ b < 2 * lanes i ∧ byteActive i s b = true ∧
        byteCheck i o s b = .exc x) ∨
      x = invalidException s := by
  rw [exec_eq_execForm] at h
  rcases execForm_eq_fault h with ⟨hrec, _⟩ | ⟨_, hread | ⟨_, _, _, _, hx, _⟩⟩
  · exact .inl hrec
  · obtain ⟨o, hsrc, ⟨b, hb, hact, hcheck⟩, _⟩ := readSource_eq_fault hread
    exact .inr (.inl ⟨o, b, hsrc, hb, hact, hcheck⟩)
  · exact .inr (.inr hx)

/-- A debug trap adds `#DB` to the exceptions of an execution, and no other. -/
theorem debugTrap_eq_fault {s t : State} {i : Instr} {o : Host.Outcome State Fault Refusal}
    {x : Exception} (h : debugTrap s i o = .fault (.exception x t)) :
    x = .db ∨ o = .fault (.exception x t) := by
  cases o with
  | next u =>
    simp only [debugTrap, raise] at h
    split_ifs at h
    cases h
    exact .inl rfl
  | fault r => exact .inr h
  | refused r => exact .inr h

/-- Where the exception of a step comes from. -/
theorem step_eq_fault {s t : State} {x : Exception} (h : step s = .fault (.exception x t)) :
    x = .db ∨ (∃ i, decodeAt s = .instr i ∧ exec i s = .fault (.exception x t)) ∨
      (decodeAt s = .invalid ∧ x = .ud) ∨ (decodeAt s = .tooLong ∧ x = .gp) ∨
      (decodeAt s = .short ∧ ∃ b, fetchCheck s b = .exc x) := by
  have first : ∀ {o : Host.Outcome State Fault Refusal},
      breakFirst s o = .fault (.exception x t) → x = .db ∨ o = .fault (.exception x t) := by
    intro o ho
    rcases breakFirst_cases s o with ⟨_, h'⟩ | ⟨_, h'⟩
    · cases h' ▸ ho
      exact .inl rfl
    · exact .inr (h' ▸ ho)
  rcases step_cases s with ⟨i, hi, h'⟩ | ⟨hi, h'⟩ | ⟨hi, h'⟩ | ⟨_, _, h'⟩ | ⟨hi, h'⟩ <;> rw [h'] at h
  · rcases first h with hx | htrap
    · exact .inl hx
    · exact (debugTrap_eq_fault htrap).imp_right fun hexec => .inl ⟨i, hi, hexec⟩
  · refine (first h).imp_right fun hx => .inr (.inl ⟨hi, ?_⟩)
    cases hx; rfl
  · refine (first h).imp_right fun hx => .inr (.inr (.inl ⟨hi, ?_⟩))
    cases hx; rfl
  · cases h
  · refine .inr (.inr (.inr (.inr ⟨hi, ?_⟩)))
    rcases fetchFails_cases s with ⟨y, hy, h''⟩ | ⟨_, h''⟩ | ⟨_, h''⟩ <;> rw [h''] at h <;> cases h
    exact ⟨_, hy⟩

theorem recognised_ne_ac {f : Form} {s : State} : recognised f s ≠ some .ac := by
  unfold recognised
  split_ifs <;> simp

theorem invalidException_ne_ac {s : State} : invalidException s ≠ .ac := by
  unfold invalidException
  split_ifs <;> simp

/-- No alignment is checked (R34). -/
theorem checkByte_ne_ac {acc : Access} {s : State} {seg : Seg} {off : Nat} :
    checkByte acc s seg off ≠ .exc .ac := by
  intro h
  rcases checkByte_eq_exc h with hx | hx | ⟨_, _, hx⟩ <;> cases hx

theorem fetchCheck_ne_ac {s : State} {b : Nat} : fetchCheck s b ≠ .exc .ac := by
  unfold fetchCheck
  split
  · exact checkByte_ne_ac
  · exact Check.noConfusion

theorem exec_ne_ac {i : Instr} {s t : State} : exec i s ≠ .fault (.exception .ac t) := by
  intro h
  rcases exec_eq_fault h with hrec | ⟨_, _, _, _, _, hcheck⟩ | hinv
  · exact recognised_ne_ac hrec
  · exact checkByte_ne_ac hcheck
  · exact invalidException_ne_ac hinv.symm

/-- Settles O33: none of the places an exception comes from gives `#AC`. -/
theorem alignmentCheckNeverRaised : Obligations.AlignmentCheckNeverRaised := by
  unfold Obligations.AlignmentCheckNeverRaised
  intro s t h
  rcases step_eq_fault h with hx | ⟨_, _, hexec⟩ | ⟨_, hx⟩ | ⟨_, hx⟩ | ⟨_, _, hcheck⟩
  · cases hx
  · exact exec_ne_ac hexec
  · cases hx
  · cases hx
  · exact fetchCheck_ne_ac hcheck

/-! ### The operand as a whole (R33, R35) -/

/-- Once its form is recognised and what it reads before memory is written, an instruction does what its
source read does. -/
theorem exec_eq_andThen_readSource {i : Instr} {s : State} (hen : enabled i.form s = true)
    (hts : s.ts = false) (hw : OperandWritten i s) :
    exec i s =
      andThen (readSource i.form i.len i.pfx i.source i.mask s) fun bits =>
      andThen (requireWritten (resultRegs i.form i.dest i.mask i.sae bits s) s) fun _ =>
      convertLanes i.form i.len i.dest i.mask i.sae bits s := by
  rw [exec_eq_execForm, execForm, recognised_eq_none.mpr ⟨hen, hts⟩]
  simp only [(requireWritten_eq_next (u := ())).mpr hw, andThen_next]

/-- The source read of a memory operand in the terms of the claims. -/
theorem readSource_mem {i : Instr} {o : MemOp} (s : State) (hsrc : i.source = .mem o) :
    readSource i.form i.len i.pfx i.source i.mask s =
      memRead (refOf i o s) (2 * lanes i) (laneActive i s) s := by
  rw [hsrc]
  rfl

theorem lanes_pos (i : Instr) : 0 < lanes i := by
  unfold lanes
  cases i.form <;> decide

/-- An operand fits the offset space exactly when it does not wrap (R35). -/
theorem wraps_eq_false_iff {i : Instr} {o : MemOp} {s : State} :
    wraps (refOf i o s) (2 * lanes i) = false ↔ Fits i o s := by
  have hpos := lanes_pos i
  rw [wraps, decide_eq_false_iff_not, Fits]
  omega

/-- Settles O37: the read refuses a wrapping operand, and no register it needs stops it before. -/
theorem wrappingOperandRefused : Obligations.WrappingOperandRefused := by
  unfold Obligations.WrappingOperandRefused
  intro i s o hsrc hen hts hw hwraps
  have hread : memRead (refOf i o s) (2 * lanes i) (laneActive i s) s = .refused .operandWraps :=
    if_pos (decide_eq_true hwraps)
  rw [exec_eq_andThen_readSource hen hts hw, readSource_mem s hsrc, hread]
  rfl

/-- The first checked byte that is not admitted is the one that a report looks at (R107 item 5). -/
theorem find?_operandChecks {r : MemRef} {n b : Nat} {act : Nat → Bool} {s : State} (hb : b < n)
    (hact : act (b / 2) = true) (hfail : checkByte .read s r.seg (r.ea + b) ≠ .ok)
    (hbefore : ∀ c < b, act (c / 2) = true → checkByte .read s r.seg (r.ea + c) = .ok) :
    (operandChecks r n act s).find? (· != .ok) = some (checkByte .read s r.seg (r.ea + b)) := by
  have hfirst : (List.range n).find?
      (fun c => decide (act (c / 2) = true ∧
        (checkByte .read s r.seg (r.ea + c) != .ok) = true)) = some b := by
    rw [List.find?_range_eq_some]
    refine ⟨by simp [hact, hfail], List.mem_range.mpr hb, fun c hc => ?_⟩
    by_cases hactc : act (c / 2) = true
    · simp [hbefore c hc hactc]
    · simp [hactc]
  rw [operandChecks, checkedBytes, List.find?_map, List.find?_filter]
  simp only [Function.comp_def, hfirst, Option.map_some]

/-- A byte that the map refuses is refused, once the bytes before it pass (R33, R36). -/
theorem memRead_of_refuse {r : MemRef} {n b : Nat} {act : Nat → Bool} {s : State}
    (hwraps : wraps r n = false) (hb : b < n) (hact : act (b / 2) = true)
    (hrefuse : checkByte .read s r.seg (r.ea + b) = .refuse)
    (hbefore : ∀ c < b, act (c / 2) = true → checkByte .read s r.seg (r.ea + c) = .ok) :
    memRead r n act s = .refused .deviceOperand := by
  have hfind := find?_operandChecks hb hact (by rw [hrefuse]; exact Check.noConfusion) hbefore
  have hreport : report (operandChecks r n act s) s = .refused .deviceOperand := by
    rw [report, hfind, hrefuse]
  rw [memRead, hwraps, hreport]
  rfl

/-- A byte inside its segment that the map refuses. -/
theorem checkByte_of_refused {acc : Access} {s : State} {seg : Seg} {off : Nat}
    (hinside : segmentFault acc s seg off (linear s seg off) = none)
    (hadmit : admitAt s.plat.addressMap (linear s seg off) = .refused) :
    checkByte acc s seg off = .refuse := by
  rw [checkByte_of_inside hinside, admitCheck, hadmit]

/-- Settles O58: the refused byte is the first that is not admitted of the operand, or the one that the
decoder needs and the fetch does not give. -/
theorem deviceByteRefused : Obligations.DeviceByteRefused := by
  unfold Obligations.DeviceByteRefused
  constructor
  · intro i s o b hsrc hen hts hw hfits hb hact hinside hadmit hbefore
    have hread := memRead_of_refuse (wraps_eq_false_iff.mpr hfits) hb hact
      (checkByte_of_refused hinside hadmit) hbefore
    rw [exec_eq_andThen_readSource hen hts hw, readSource_mem s hsrc, hread]
    rfl
  · intro i s b hpo hwf hb hbefore hinside hadmit
    have hrefuse : fetchCheck s b = .refuse := by
      rw [fetchCheck, hpo]
      exact checkByte_of_refused hinside hadmit
    obtain ⟨hstep, hlen⟩ := step_of_holdsUpTo (by rw [hpo]; exact hwf) hb hbefore
      (by rw [hrefuse]; exact Check.noConfusion)
    rw [hstep, fetchFails, hlen, hrefuse]

/-! ### Inactive lanes (R41) -/

/-- Another platform with the same answers for the bytes of active lanes gives the same source. -/
theorem readSource_plat {i : Instr} {s : State} {o : MemOp} {p : Platform} {bits : Packed}
    (hsrc : i.source = .mem o)
    (hcheck : ∀ b < 2 * lanes i, byteActive i s b = true →
      byteCheck i o { s with plat := p } b = byteCheck i o s b)
    (h : readSource i.form i.len i.pfx i.source i.mask s = .next bits) :
    readSource i.form i.len i.pfx i.source i.mask { s with plat := p } = .next bits := by
  rw [readSource_mem _ hsrc] at h ⊢
  obtain ⟨hwraps, hchecks, hbits⟩ := memRead_eq_next.mp h
  exact memRead_eq_next.mpr
    ⟨hwraps, fun b hb hact => (hcheck b hb hact).trans (hchecks b hb hact), hbits⟩

theorem answersAlike_plat {i : Instr} {s : State} {o : MemOp} {p : Platform}
    (hsrc : i.source = .mem o) (hp : p.nanConv = s.plat.nanConv)
    (hcheck : ∀ b < 2 * lanes i, byteActive i s b = true →
      byteCheck i o { s with plat := p } b = byteCheck i o s b) :
    AnswersAlike i s { s with plat := p } where
  lanesAlike := ⟨fun _ _ => rfl, hp⟩
  recognised_eq := rfl
  mode_eq := rfl
  unwritten_eq := rfl
  im_eq := rfl
  readSource_eq _ := readSource_plat hsrc hcheck

/-- Of the platform a completion reads `nanConv` only, and keeps it all. -/
theorem complete_plat {i : Instr} {s : State} {p : Platform} (bits : Packed)
    (hp : p.nanConv = s.plat.nanConv) :
    complete i.form i.len i.dest i.mask bits { s with plat := p } =
      { complete i.form i.len i.dest i.mask bits s with plat := p } := by
  have hl : LanesAlike i.form i.mask s { s with plat := p } := ⟨fun _ _ => rfl, hp⟩
  rw [complete_eq, complete_eq, destValue_congr hl]
  rfl

/-- Settles O38: the other map answers alike, and the completion keeps it. -/
theorem inactiveBytesNotChecked : Obligations.InactiveBytesNotChecked := by
  unfold Obligations.InactiveBytesNotChecked
  intro i s t o rs hsrc hcheck ht
  obtain ⟨bits, ⟨rfl, hexec⟩ | ⟨rfl, hexec⟩⟩ := exec_of_answersAlike
    (answersAlike_plat hsrc (by rfl) hcheck) ht
  · exact hexec.trans (congrArg _ (complete_plat (s := s.setIE) bits rfl))
  · exact hexec.trans (congrArg _ (complete_plat bits rfl))

/-- The old destination is read exactly where a lane is kept (R93, R121). -/
theorem mem_keptRegs_iff {i : Instr} {s : State} {r : Reg} :
    r ∈ keptRegs i.form i.dest i.mask s ↔ Keeps i s ∧ r = .vec i.dest := by
  have hkeeps : (!i.mask.z && (List.range (laneCount i.form)).any fun j => !active s i.mask j) = true ↔
      Keeps i s := by
    simp only [Bool.and_eq_true, Bool.not_eq_true', List.any_eq_true, List.mem_range]
    rfl
  unfold keptRegs
  split_ifs with h
  · simp [hkeeps.mp h]
  · simp [mt hkeeps.mpr h]

/-- An instruction that signals no Invalid, all of whose registers are written, completes. -/
theorem exec_of_not_signals {i : Instr} {s : State} {bits : Packed} (hen : enabled i.form s = true)
    (hts : s.ts = false) (hw : AllWritten i s)
    (hb : readSource i.form i.len i.pfx i.source i.mask s = .next bits) (hquiet : ¬ Signals i s) :
    exec i s = .next (complete i.form i.len i.dest i.mask bits s) := by
  obtain ⟨hoperand, -, hkept⟩ := hw
  have hinv : ¬ (anyInvalid i.form i.mask bits s && !i.sae) = true := fun h =>
    hquiet ((anyInvalid_iff_signals hb).mp (Bool.and_eq_true_iff.mp h).1)
  have hresult : ∀ r ∈ resultRegs i.form i.dest i.mask i.sae bits s, r ∉ s.unwritten := by
    rw [resultRegs, if_neg hinv]
    intro r hr
    obtain ⟨hkeeps, rfl⟩ := mem_keptRegs_iff.mp hr
    exact hkept hkeeps
  rw [exec_eq_execForm, execForm_eq_convertLanes (recognised_eq_none.mpr ⟨hen, hts⟩) hoperand hb hresult,
    convertLanes, if_neg hinv]

/-- A destination lane of a completion (R86 step 6). -/
theorem complete_lane {i : Instr} (s : State) (bits : Packed) {j : Nat} (hj : j < lanes i) :
    fieldAt 32 ((complete i.form i.len i.dest i.mask bits s).vreg i.dest) j =
      destLane i.mask bits (s.vreg i.dest) s j := by
  have hl := laneCount_le i.form
  rw [complete_vreg_dest]
  exact fieldAt_packFields 32 (by decide) _ hj (by omega)

/-- Settles O39: with no active lane no byte is checked and no lane can signal, and each lane is kept or
zeroed. -/
theorem allZeroMaskCompletes : Obligations.AllZeroMaskCompletes := by
  unfold Obligations.AllZeroMaskCompletes
  intro i s o hsrc hen hts hw hfits hoff
  have hread : ∃ bits, readSource i.form i.len i.pfx i.source i.mask s = .next bits := by
    refine ⟨_, (readSource_mem s hsrc).trans
      (memRead_eq_next.mpr ⟨wraps_eq_false_iff.mpr hfits, fun b hb hact => ?_, rfl⟩)⟩
    exact absurd (hact.symm.trans (hoff (b / 2) (by omega))) (by decide)
  obtain ⟨bits, hbits⟩ := hread
  have hquiet : ¬ Signals i s := by
    rintro ⟨j, hj, hact, -⟩
    exact absurd (hact.symm.trans (hoff j hj)) (by decide)
  refine ⟨_, exec_of_not_signals hen hts hw hbits hquiet, rfl, fun j hj => ?_⟩
  have hinactive : active s i.mask j = false := hoff j hj
  refine (complete_lane s bits hj).trans ?_
  rw [destLane, hinactive]
  rfl

/-! ### The lanes of a memory operand (R30, R31) -/

/-- Settles O40: each byte is packed into its field, and a lane is two fields. -/
theorem lanesInMemory : Obligations.LanesInMemory := by
  unfold Obligations.LanesInMemory
  intro r n s bits hn hread
  obtain ⟨-, -, rfl⟩ := memRead_eq_next.mp hread
  have hbyte : ∀ b < n,
      fieldAt 8 (packFields 8 n fun b => if true then operandByte r s b else 0 : Packed) b =
        operandByte r s b := fun b hb => fieldAt_packFields 8 (by decide) _ hb (by omega)
  refine ⟨hbyte, fun j hj => ?_⟩
  refine (fieldAt_sixteen_eq_append _ j).trans ?_
  rw [hbyte _ hj, hbyte _ (by omega)]
  rfl

end Sys2Proof.Proofs
end

section
/-!
PROOFS. From bytes to instructions (30_encoding.md). Behind C4h or 62h, map 0F38, pp = 01b and opcode 13h lead
to operand 2, which is what the tables of R55 to R62 print, and then to the last checks: the rows of R68,
the reserved fields of R65, and what M32 ignores (R66).
-/

namespace Sys2Proof.Proofs

open Sys2Proof.Machine

/-! ### The bytes of the pattern (R64 steps 1 to 3) -/

/-- Prefix bytes of any kind are split off, up to the first byte that is none. -/
theorem splitPrefixes_of_prefixes {m : Mode} {raw : List Byte} {x : Byte} (rest : List Byte)
    (hraw : ∀ y ∈ raw, isPrefixByte m y = true) (hx : isPrefixByte m x = false) :
    splitPrefixes m (raw ++ x :: rest) = (raw, x :: rest) := by
  induction raw with
  | nil => simp [splitPrefixes, hx]
  | cons y ys ih =>
    have hys := ih fun z hz => hraw z (List.mem_cons_of_mem _ hz)
    simp [splitPrefixes, hraw y List.mem_cons_self, hys]

section
variable {po : Policy} {m : Mode} {raw : List Byte}

theorem decode_vex (hraw : ∀ y ∈ raw, isPrefixByte m y = true) (l : List Byte) :
    decode po m (raw ++ 0xC4 :: l) = decodeVex po m raw l := by
  simp only [decode, splitPrefixes_of_prefixes l hraw (isPrefixByte_vex m), if_true]

theorem decode_evex (hraw : ∀ y ∈ raw, isPrefixByte m y = true) (l : List Byte) :
    decode po m (raw ++ 0x62 :: l) = decodeEvex po m raw l := by
  simp only [decode, splitPrefixes_of_prefixes l hraw (isPrefixByte_evex m), if_true]
  exact if_neg (by decide)

theorem isPrefixByte_of_mem_map (m : Mode) {pre : List LegacyPrefix} :
    ∀ y ∈ pre.map LegacyPrefix.byte, isPrefixByte m y = true := by
  intro y hy
  obtain ⟨p, _, rfl⟩ := List.mem_map.mp hy
  exact isPrefixByte_byte m p

theorem prefixInMode_iff {p : Byte} : prefixInMode m p = true ↔ (m = .m32 → field p 6 2 = 3) := by
  cases m <;> simp [prefixInMode]

/-- After C4h, map 0F38, pp = 01b and opcode 13h lead to the body. -/
theorem decodeVex_of_pattern {p1 p2 : Byte} (modrm : Byte) (rest : List Byte)
    (hmode : m = .m32 → field p1 6 2 = 3) (hmap : field p1 0 5 = 2) (hpp : field p2 0 2 = 1) :
    decodeVex po m raw (p1 :: p2 :: opcodeByte :: modrm :: rest) =
      vexBody po m raw p1 p2 modrm rest := by
  simp [decodeVex, prefixInMode_iff.mpr hmode, hmap, hpp]

/-- After 62h, map 0F38, pp = 01b and opcode 13h lead to the body. -/
theorem decodeEvex_of_pattern {p0 p1 : Byte} (p2 modrm : Byte) (rest : List Byte)
    (hmode : m = .m32 → field p0 6 2 = 3) (hmap : field p0 0 2 = 2) (hpp : field p1 0 2 = 1) :
    decodeEvex po m raw (p0 :: p1 :: p2 :: opcodeByte :: modrm :: rest) =
      evexBody po m raw p0 p1 p2 modrm rest := by
  simp [decodeEvex, prefixInMode_iff.mpr hmode, hmap, hpp]

/-- Once operand 2 is read the last checks decide. -/
theorem vexBody_of_read {p1 p2 modrm : Byte} {rest : List Byte} {src : Operand 4}
    (h : readOperandVex (addrSize m (raw.filterMap legacyOf)) (extBit m p1 6) (extBit m p1 5) modrm
      rest = some src) :
    vexBody po m raw p1 p2 modrm rest =
      checked po m raw (vexLen [] src) (!p1.getLsbD 5) (p2.getLsbD 7 || field p2 3 4 != 0xF)
        ((if p2.getLsbD 2 then Instr.vcvtph2psVex256 else Instr.vcvtph2psVex128)
          (raw.filterMap legacyOf) (extend3 (extBit m p1 7) (field modrm 3 3)) src) := by
  simp only [vexBody, h]
  split <;> rfl

/-- Once operand 2 is read the last checks decide. -/
theorem evexBody_of_read {p0 p1 p2 modrm : Byte} {rest : List Byte} {src : Operand 5}
    (h : readOperandEvex (addrSize m (raw.filterMap legacyOf)) (extBit m p0 6) (extBit m p0 5) modrm
      rest = some src) :
    evexBody po m raw p0 p1 p2 modrm rest =
      checked po m raw (evexLen [] src) (!p0.getLsbD 5 || !p0.getLsbD 4 || !p2.getLsbD 3)
        (evexInvalid m p0 p1 p2 modrm)
        (evexInstr (raw.filterMap legacyOf)
          (BitVec.ofBool (extBit m p0 4) ++ extend3 (extBit m p0 7) (field modrm 3 3)) src
          ⟨field p2 0 3, p2.getLsbD 7⟩ (p2.getLsbD 4) (field p2 5 2)) := by
  simp only [evexBody, h]

/-! ### The last checks (R50, R63, R65, R107) -/

/-- An instruction is answered only where every one of the last checks passes. -/
theorem checks_of_checked_eq_instr {len : Nat} {ext bad : Bool} {i j : Instr}
    (h : checked po m raw len ext bad i = .instr j) :
    raw.length + len ≤ maxLength ∧ bad = false ∧ raw.any (isBadPrefix m) = false ∧
      PrefixesAdmitted po m (raw.filterMap legacyOf) := by
  unfold checked at h
  split_ifs at h with hrep h16 hext hlen hbad
  obtain ⟨hbad, hany⟩ := Bool.or_eq_false_iff.mp (Bool.eq_false_iff.mpr hbad)
  exact ⟨Nat.not_lt.mp hlen, hbad, hany, fun hpo =>
    ⟨Bool.eq_false_iff.mpr fun hr => hrep ⟨hpo, hr⟩, fun ha => h16 ⟨hpo, ha⟩⟩⟩

/-- Under `Policy.effects` the length and the rows of R65 decide. -/
theorem checked_effects (len : Nat) (ext bad : Bool) (i : Instr) :
    checked .effects m raw len ext bad i =
      if maxLength < raw.length + len then .tooLong
      else if bad || raw.any (isBadPrefix m) then .invalid
      else .instr i := by
  simp [checked]

theorem checked_of_invalid {len : Nat} {ext bad : Bool} (i : Instr)
    (hlen : raw.length + len ≤ maxLength) (hbad : (bad || raw.any (isBadPrefix m)) = true) :
    checked .effects m raw len ext bad i = .invalid := by
  rw [checked_effects, if_neg (Nat.not_lt.mpr hlen), if_pos hbad]

end

/-- The rows a to g of R65. -/
theorem evexInvalid_iff {m : Mode} {p0 p1 p2 modrm : Byte} :
    evexInvalid m p0 p1 p2 modrm = true ↔
      p1.getLsbD 7 = true ∨ field p1 3 4 ≠ 0xF ∨
      (p2.getLsbD 3 = false ∧ ¬(m = .m32 ∧ Config.m32IgnoresVPrime = true)) ∨
      (field p2 5 2 = 3 ∧ ¬(p2.getLsbD 4 = true ∧ field modrm 6 2 = 3)) ∨
      (p2.getLsbD 4 = true ∧ field modrm 6 2 ≠ 3) ∨
      (p2.getLsbD 7 = true ∧ field p2 0 3 = 0) ∨ field p0 2 2 ≠ 0 ∨ p1.getLsbD 2 = false := by
  simp only [evexInvalid, Bool.or_eq_true, Bool.and_eq_true, Bool.not_eq_true', bne_iff_ne,
    beq_iff_eq, ← Bool.not_eq_true (_ && _), or_assoc]

/-! ### Operand 2 as the tables print it (R55 to R62) -/

theorem extend3_eq_four_iff (x : Bool) (r : BitVec 3) : extend3 x r = 4 ↔ x = false ∧ r = 4 := by
  revert x r; decide

/-- The index of a SIB byte is the one that the tables print. -/
theorem readIndex_eq_table (x : Bool) (sib : Byte) :
    readIndex x sib = if x = false ∧ field sib 3 3 = 4 then none
      else some ⟨BitVec.ofBool x ++ field sib 3 3, field sib 6 2⟩ := by
  simp only [readIndex, extend3_eq_four_iff]
  rfl

section
variable (x b : Bool) (md : BitVec 2) (rm : BitVec 3) (b0 b1 b2 b3 b4 : Byte)

/-- A SIB byte and four bytes after it (R56, R60). -/
theorem readSib_eq_table (rest : List Byte) :
    readSib x b md b0 (b1 :: b2 :: b3 :: b4 :: rest) =
      some (tableOperand false x b md 4 b0 b1 b2 b3 b4).1 := by
  simp only [readSib, readDisp, readD32, tableOperand, readIndex_eq_table, ite_and,
    Bool.false_eq_true, if_false]
  split_ifs <;> rfl

/-- With five bytes to read, the memory operand is the one that the tables print. -/
theorem readMem_eq_table (a : AddrSize) (rest : List Byte) :
    readMem a x b md rm (b0 :: b1 :: b2 :: b3 :: b4 :: rest) =
      some (tableOperand (a == .a16) x b md rm b0 b1 b2 b3 b4).1 := by
  have wide : readMem .a64 x b md rm (b0 :: b1 :: b2 :: b3 :: b4 :: rest) =
      some (tableOperand false x b md rm b0 b1 b2 b3 b4).1 := by
    by_cases h4 : rm = 4
    · subst h4
      exact readSib_eq_table x b md b0 b1 b2 b3 b4 rest
    · simp only [readMem, readDisp, readD32, tableOperand, if_neg h4, ite_and, Bool.false_eq_true,
        if_false]
      split_ifs <;> rfl
  cases a with
  | a64 => exact wide
  | a32 => exact wide
  | a16 =>
    simp only [readMem, readDisp16, readD16, tableOperand, ite_and, beq_self_eq_true, if_true]
    split_ifs <;> rfl

/-- The tables print as many bytes after ModRM as the operand is written with. -/
theorem tableOperand_length (small : Bool) :
    (tableOperand small x b md rm b0 b1 b2 b3 b4).1.tail.rest.length =
      (tableOperand small x b md rm b0 b1 b2 b3 b4).2 := by
  unfold tableOperand
  split_ifs <;> rfl

end

/-- Operand 2 of a VEX encoding as the tables print it, with the number of bytes after ModRM. -/
def vexTable (small x b : Bool) (modrm b0 b1 b2 b3 b4 : Byte) : Operand 4 × Nat :=
  if field modrm 6 2 = 3 then (.reg (BitVec.ofBool b ++ field modrm 0 3), 0)
  else
    (.mem (tableOperand small x b (field modrm 6 2) (field modrm 0 3) b0 b1 b2 b3 b4).1,
      (tableOperand small x b (field modrm 6 2) (field modrm 0 3) b0 b1 b2 b3 b4).2)

/-- Operand 2 of an EVEX encoding as the tables print it, with the number of bytes after ModRM. -/
def evexTable (small x b : Bool) (modrm b0 b1 b2 b3 b4 : Byte) : Operand 5 × Nat :=
  if field modrm 6 2 = 3 then
    (.reg (BitVec.ofBool x ++ BitVec.ofBool b ++ field modrm 0 3), 0)
  else
    (.mem (tableOperand small x b (field modrm 6 2) (field modrm 0 3) b0 b1 b2 b3 b4).1,
      (tableOperand small x b (field modrm 6 2) (field modrm 0 3) b0 b1 b2 b3 b4).2)

/-- A 5-bit register number: its two extension bits one by one, or the second with the low bits. -/
theorem ofBool_append_extend3 (x b : Bool) (r : BitVec 3) :
    BitVec.ofBool x ++ extend3 b r = BitVec.ofBool x ++ BitVec.ofBool b ++ r := by
  revert x b r; decide

section
variable (a : AddrSize) (x b : Bool) (modrm b0 b1 b2 b3 b4 : Byte) (rest : List Byte)

theorem readOperandVex_eq_table :
    readOperandVex a x b modrm (b0 :: b1 :: b2 :: b3 :: b4 :: rest) =
      some (vexTable (a == .a16) x b modrm b0 b1 b2 b3 b4).1 := by
  rw [readOperandVex, vexTable]
  split_ifs
  · rfl
  · rw [readMem_eq_table, Option.map_some]

theorem readOperandEvex_eq_table :
    readOperandEvex a x b modrm (b0 :: b1 :: b2 :: b3 :: b4 :: rest) =
      some (evexTable (a == .a16) x b modrm b0 b1 b2 b3 b4).1 := by
  rw [readOperandEvex, evexTable]
  split_ifs
  · rw [ofBool_append_extend3]
  · rw [readMem_eq_table, Option.map_some]

theorem vexTable_length (small : Bool) :
    (vexTable small x b modrm b0 b1 b2 b3 b4).1.tail.rest.length =
      (vexTable small x b modrm b0 b1 b2 b3 b4).2 := by
  unfold vexTable
  split_ifs
  · rfl
  · exact tableOperand_length x b _ _ b0 b1 b2 b3 b4 small

theorem evexTable_length (small : Bool) :
    (evexTable small x b modrm b0 b1 b2 b3 b4).1.tail.rest.length =
      (evexTable small x b modrm b0 b1 b2 b3 b4).2 := by
  unfold evexTable
  split_ifs
  · rfl
  · exact tableOperand_length x b _ _ b0 b1 b2 b3 b4 small

end

theorem addrSize_beq_a16 (m : Mode) (pre : List LegacyPrefix) :
    (addrSize m pre == .a16) = (m == .m32 && pre.contains .addrSize) := by
  unfold addrSize
  cases m <;> cases pre.contains .addrSize <;> rfl

/-- Where VEX or EVEX begins, R and X are what is stored, inverted: M32 has them stored 1 (R66). -/
theorem extBit_top {m : Mode} {p : Byte} (h : m = .m32 → field p 6 2 = 3) :
    extBit m p 7 = !p.getLsbD 7 ∧ extBit m p 6 = !p.getLsbD 6 := by
  cases m with
  | m64 => exact ⟨rfl, rfl⟩
  | m32 =>
    have htop : ∀ q : Byte, field q 6 2 = 3 → q.getLsbD 7 = true ∧ q.getLsbD 6 = true := by decide
    obtain ⟨h7, h6⟩ := htop p (h rfl)
    rw [h7, h6]
    exact ⟨rfl, rfl⟩

/-! ### The rows of the opcode table (R68) -/

/-- Under `Policy.effects` a valid encoding of at most 15 bytes passes the last checks, whatever its
extension bits are (R66). -/
theorem checked_effects_of_valid {m : Mode} {pre : List LegacyPrefix} {len : Nat} {ext bad : Bool}
    {i : Instr} (hlen : pre.length + len ≤ maxLength) (hbad : bad = false) :
    checked .effects m (pre.map LegacyPrefix.byte) len ext bad i = .instr i := by
  rw [checked_effects, any_isBadPrefix, hbad, List.length_map, if_neg (Nat.not_lt.mpr hlen)]
  rfl

/-- The byte P2 of a VEX encoding as R68 writes it. -/
theorem vexP2_eq (l : Bool) :
    (0xF : BitVec 5) ++ BitVec.ofBool l ++ (1 : BitVec 2) = if l then 0x7D else (0x79 : Byte) := by
  cases l <;> rfl

/-- Settles O3: operand 2 is read as the tables print it, and the fields of P1 and P2 pass the last
checks. -/
theorem vexRowsDecode : Obligations.VexRowsDecode := by
  unfold Obligations.VexRowsDecode
  intro m pre p1 modrm l b0 b1 b2 b3 b4 rest hmap hmode r x b memory src i
  have hsrc : src = vexTable (m == .m32 && pre.contains .addrSize) x b modrm b0 b1 b2 b3 b4 := rfl
  have hsize : src.1.tail.rest.length = src.2 := by rw [hsrc, vexTable_length]
  obtain ⟨hw, hvvvv, hpp, hl⟩ := vexP2_fields l
  rw [vexP2_eq] at hw hvvvv hpp hl
  obtain ⟨hr, hx⟩ := extBit_top hmode
  have hi : i.len = pre.length + 5 + src.2 := by
    rw [← hsize]
    cases l <;> rfl
  refine ⟨hi, fun hlen => ?_⟩
  have hread : readOperandVex (addrSize m pre) (extBit m p1 6) (extBit m p1 5) modrm
      (b0 :: b1 :: b2 :: b3 :: b4 :: rest) = some src.1 := by
    rw [hx, readOperandVex_eq_table, addrSize_beq_a16, hsrc]
    rfl
  rw [← filterMap_legacyOf pre] at hread
  rw [decode_vex (isPrefixByte_of_mem_map m), ← opcodeByte, decodeVex_of_pattern _ _ hmode hmap hpp,
    vexBody_of_read hread, checked_effects_of_valid, filterMap_legacyOf, hl, hr]
  · rfl
  · rw [vexLen, hsize]
    simpa [maxLength, Nat.add_assoc] using hlen
  · rw [hw, hvvvv]
    rfl

/-- The byte P0 of the pattern: map 0F38 and no reserved bit. -/
theorem evexP0_map {p0 : Byte} (h : field p0 0 4 = 2) : field p0 0 2 = 2 ∧ field p0 2 2 = 0 := by
  revert p0; decide

/-- The byte P2 of an EVEX encoding, with b and V' side by side. -/
theorem evexP2_pair_fields (z : Bool) (ll c : BitVec 2) (aaa : BitVec 3) :
    let p2 : Byte := BitVec.ofBool z ++ ll ++ c ++ aaa
    p2.getLsbD 7 = z ∧ field p2 5 2 = ll ∧ p2.getLsbD 4 = c.getLsbD 1 ∧
      p2.getLsbD 3 = c.getLsbD 0 ∧ field p2 0 3 = aaa := by
  revert z ll c aaa; decide

/-- A valid EVEX encoding whose operand 2 is read, after legacy prefixes and under `Policy.effects`. -/
theorem decode_evex_of_read {m : Mode} {pre : List LegacyPrefix} {p0 p2 modrm : Byte}
    {rest : List Byte} {src : Operand 5} (hmap : field p0 0 4 = 2)
    (hmode : m = .m32 → field p0 6 2 = 3)
    (hread : readOperandEvex (addrSize m pre) (!p0.getLsbD 6) (extBit m p0 5) modrm rest = some src)
    (hlen : evexLen pre src ≤ 15) (hbad : evexInvalid m p0 0x7D p2 modrm = false) :
    decode .effects m (pre.map LegacyPrefix.byte ++ 0x62 :: p0 :: 0x7D :: p2 :: 0x13 :: modrm :: rest)
      = .instr (evexInstr pre
          (BitVec.ofBool (extBit m p0 4) ++ BitVec.ofBool (!p0.getLsbD 7) ++ field modrm 3 3) src
          ⟨field p2 0 3, p2.getLsbD 7⟩ (p2.getLsbD 4) (field p2 5 2)) := by
  obtain ⟨hr, hx⟩ := extBit_top hmode
  rw [← filterMap_legacyOf pre, ← hx] at hread
  rw [decode_evex (isPrefixByte_of_mem_map m), ← opcodeByte,
    decodeEvex_of_pattern _ _ _ hmode (evexP0_map hmap).1 (by decide), evexBody_of_read hread,
    checked_effects_of_valid _ hbad, filterMap_legacyOf, hr, ofBool_append_extend3]
  simpa [evexLen, maxLength, Nat.add_assoc] using hlen

/-- Without b the row is that of L'L. -/
theorem evexInstr_eq_row (pfx : List LegacyPrefix) (dst : BitVec 5) (src : Operand 5) (mask : Mask)
    (ll : BitVec 2) : evexInstr pfx dst src mask false ll =
      (if ll = 0 then Instr.vcvtph2psEvex128 else if ll = 1 then Instr.vcvtph2psEvex256
        else Instr.vcvtph2psEvex512) pfx dst src mask := by
  have hite : evexInstr pfx dst src mask false ll =
      if ll = 0 then .vcvtph2psEvex128 pfx dst src mask
      else if ll = 1 then .vcvtph2psEvex256 pfx dst src mask
      else .vcvtph2psEvex512 pfx dst src mask := by
    cases src <;> rfl
  rw [hite]
  split_ifs <;> rfl

/-- Settles O4: operand 2 is read as the tables print it, no row a to g of R65 holds, and L'L selects the
row. -/
theorem evexRowsDecode : Obligations.EvexRowsDecode := by
  unfold Obligations.EvexRowsDecode
  intro m pre p0 modrm z ll aaa b0 b1 b2 b3 b4 rest hmap hmode hll hz r' r x b memory src i
  have hsrc : src = evexTable (m == .m32 && pre.contains .addrSize) x b modrm b0 b1 b2 b3 b4 := rfl
  have hsize : src.1.tail.rest.length = src.2 := by rw [hsrc, evexTable_length]
  have hi : i.len = pre.length + 6 + src.2 := by
    rw [← hsize, show i = _ from (evexInstr_eq_row ..).symm, evexInstr_len]
    rfl
  refine ⟨hi, fun hlen => ?_⟩
  have hread : readOperandEvex (addrSize m pre) (!p0.getLsbD 6) (extBit m p0 5) modrm
      (b0 :: b1 :: b2 :: b3 :: b4 :: rest) = some src.1 := by
    rw [readOperandEvex_eq_table, addrSize_beq_a16, hsrc]
    rfl
  obtain ⟨hP2z, hP2ll, hP2b, hP2v, hP2aaa⟩ := evexP2_pair_fields z ll 1 aaa
  rw [decode_evex_of_read hmap hmode hread, hP2z, hP2ll, hP2b, hP2aaa]
  · exact congrArg _ (evexInstr_eq_row ..)
  · rw [evexLen, hsize]
    exact hlen
  · refine evexInvalid_of_fields (evexP0_map hmap).2 hP2v (by rwa [hP2ll]) ?_ ?_
    · rw [hP2b]
      exact fun h => absurd h (by decide)
    · rwa [hP2z, hP2aaa]

/-- Settles O5: with a register source and b = 1 neither `evexInvalid` nor `evexInstr` consults L'L. -/
theorem saeIgnoresVectorLength : Obligations.SaeIgnoresVectorLength := by
  unfold Obligations.SaeIgnoresVectorLength
  intro m pre p0 reg rm z ll aaa rest hpre hmap hmode hz
  obtain ⟨hP2z, hP2ll, hP2b, hP2v, hP2aaa⟩ := evexP2_pair_fields z ll 3 aaa
  have hmod := field_modrm_mod 3 reg rm
  have hread : readOperandEvex (addrSize m pre) (!p0.getLsbD 6) (extBit m p0 5)
      ((3 : BitVec 2) ++ reg ++ rm) rest =
      some (.reg (BitVec.ofBool (!p0.getLsbD 6) ++ BitVec.ofBool (extBit m p0 5) ++ rm)) := by
    rw [readOperandEvex, if_pos hmod, field_modrm_rm, ofBool_append_extend3]
  rw [decode_evex_of_read hmap hmode hread, hP2z, hP2b, hP2aaa, field_modrm_reg]
  · rfl
  · exact Nat.add_le_add_right hpre 6
  · rw [← Bool.not_eq_true, evexInvalid_iff, hP2z, hP2b, hP2v, hP2aaa, hmod, (evexP0_map hmap).2]
    rintro (h | h | ⟨h, _⟩ | ⟨_, h⟩ | ⟨_, h⟩ | ⟨h, haaa⟩ | h | h)
    · exact absurd h (by decide)
    · exact absurd h (by decide)
    · exact absurd h (by decide)
    · exact h (by decide)
    · exact h rfl
    · exact hz h haaa
    · exact h rfl
    · exact absurd h (by decide)

/-! ### Reserved fields (R65 rows a to g) -/

section
variable {po : Policy} {m : Mode} {raw : List Byte} {modrm : Byte} {rest : List Byte}

/-- With five bytes after ModRM operand 2 can be read, so the last checks decide; a register source needs
none of the five. -/
theorem vexBody_of_five_bytes (p1 p2 : Byte) (h : 5 ≤ rest.length) : ∃ len i,
    len ≤ (if field modrm 6 2 = 3 then 5 else 10) ∧
      vexBody po m raw p1 p2 modrm rest =
        checked po m raw len (!p1.getLsbD 5) (p2.getLsbD 7 || field p2 3 4 != 0xF) i := by
  match rest, h with
  | b0 :: b1 :: b2 :: b3 :: b4 :: rest, _ =>
    refine ⟨_, _, ?_, vexBody_of_read (readOperandVex_eq_table _ _ _ _ _ _ _ _ _ _)⟩
    rw [vexLen, vexTable]
    split_ifs
    · exact le_rfl
    · exact Nat.add_le_add_left (Operand.rest_length _) 5

/-- With five bytes after ModRM operand 2 can be read, so the last checks decide; a register source needs
none of the five. -/
theorem evexBody_of_five_bytes (p0 p1 p2 : Byte) (h : 5 ≤ rest.length) : ∃ len i,
    len ≤ (if field modrm 6 2 = 3 then 6 else 11) ∧
      evexBody po m raw p0 p1 p2 modrm rest =
        checked po m raw len (!p0.getLsbD 5 || !p0.getLsbD 4 || !p2.getLsbD 3)
          (evexInvalid m p0 p1 p2 modrm) i := by
  match rest, h with
  | b0 :: b1 :: b2 :: b3 :: b4 :: rest, _ =>
    refine ⟨_, _, ?_, evexBody_of_read (readOperandEvex_eq_table _ _ _ _ _ _ _ _ _ _)⟩
    rw [evexLen, evexTable]
    split_ifs
    · exact le_rfl
    · exact Nat.add_le_add_left (Operand.rest_length _) 6

end

/-- Settles O6: such an encoding has at most 15 bytes, and the last checks find W or vvvv. -/
theorem vexReservedFieldsInvalid : Obligations.VexReservedFieldsInvalid := by
  unfold Obligations.VexReservedFieldsInvalid
  intro m pre p1 p2 modrm rest hmap hpp hmode hrest hpre hreserved
  obtain ⟨len, i, hlen, hbody⟩ := vexBody_of_five_bytes p1 p2 hrest
  have hvvvv : ∀ p : Byte, p.getLsbD 7 = true ∨ field p 3 3 ≠ 7 ∨ p.getLsbD 6 = false →
      (p.getLsbD 7 || field p 3 4 != 0xF) = true := by decide
  rw [decode_vex (isPrefixByte_of_mem_map m), ← opcodeByte, decodeVex_of_pattern _ _ hmode hmap hpp,
    hbody, checked_of_invalid]
  · rw [List.length_map, maxLength]
    split_ifs at hpre hlen <;> omega
  · rw [hvvvv p2 (hreserved.imp_right (.imp_right And.right)), Bool.true_or]

/-- Settles O7: such an encoding has at most 15 bytes, and the last checks find a row of R65. -/
theorem evexReservedFieldsInvalid : Obligations.EvexReservedFieldsInvalid := by
  unfold Obligations.EvexReservedFieldsInvalid
  intro m pre p0 p1 p2 modrm rest hmap hpp hmode hrest hpre hreserved
  obtain ⟨len, i, hlen, hbody⟩ := evexBody_of_five_bytes p0 p1 p2 hrest
  have hvvvv : ∀ p : Byte, field p 3 3 ≠ 7 ∨ p.getLsbD 6 = false → field p 3 4 ≠ 0xF := by decide
  have hbad : evexInvalid m p0 p1 p2 modrm = true := by
    refine evexInvalid_iff.mpr (hreserved.imp_right (.imp ?_ (.imp ?_ (.imp_left ?_))))
    · exact fun h => hvvvv p1 (h.imp_right And.right)
    · rintro ⟨rfl, hv⟩
      exact ⟨hv, fun h => nomatch h.1⟩
    · rintro ⟨hll, h⟩
      exact ⟨hll, fun hsae => h.elim (fun hb => Bool.false_ne_true (hb.symm.trans hsae.1))
        (fun hmod => hmod hsae.2)⟩
  rw [decode_evex (isPrefixByte_of_mem_map m), ← opcodeByte,
    decodeEvex_of_pattern _ _ _ hmode hmap hpp, hbody, checked_of_invalid]
  · rw [List.length_map, maxLength]
    split_ifs at hpre hlen <;> omega
  · rw [hbad, Bool.true_or]

/-! ### C5h, LES and BOUND (R53, R66) -/

/-- Settles O9: C5h is neither one of the bytes split off in front, nor C4h nor 62h. -/
theorem twoByteVexIsNotVcvtph2ps : Obligations.TwoByteVexIsNotVcvtph2ps := by
  unfold Obligations.TwoByteVexIsNotVcvtph2ps
  intro po m pre rest
  rw [decode_map_append po m pre rest (by cases m <;> decide), if_neg (by decide),
    if_neg (by decide)]

/-- Settles O10: C4h or 62h does not begin VEX or EVEX there. -/
theorem m32LesAndBoundAreNotVcvtph2ps : Obligations.M32LesAndBoundAreNotVcvtph2ps := by
  unfold Obligations.M32LesAndBoundAreNotVcvtph2ps
  intro po pre e p rest he htop
  have hmode : prefixInMode .m32 p = false := by
    rw [← Bool.not_eq_true, prefixInMode_iff]
    exact fun h => htop (h rfl)
  rcases he with rfl | rfl
  · rw [decode_vex (isPrefixByte_of_mem_map _)]
    simp only [decodeVex, hmode, Bool.not_false, Bool.true_or, if_true]
  · rw [decode_evex (isPrefixByte_of_mem_map _)]
    simp only [decodeEvex, hmode, Bool.not_false, Bool.true_or, if_true]

/-! ### Bits that M32 ignores (R66) -/

section
variable {raw : List Byte} {p q : Byte}

/-- Of the byte after C4h, M32 reads the two top bits and the map. -/
theorem decodeVex_m32_congr (htop : field p 6 2 = field q 6 2) (hmap : field p 0 5 = field q 0 5)
    (l : List Byte) :
    decodeVex .effects .m32 raw (p :: l) = decodeVex .effects .m32 raw (q :: l) := by
  have hbody : ∀ p2 modrm rest, vexBody .effects .m32 raw p p2 modrm rest =
      vexBody .effects .m32 raw q p2 modrm rest := by
    intro p2 modrm rest
    simp only [vexBody, checked_effects]
    rfl
  have hmode : prefixInMode .m32 p = prefixInMode .m32 q := by rw [prefixInMode, prefixInMode, htop]
  rcases l with _ | ⟨p2, _ | ⟨op, _ | ⟨modrm, rest⟩⟩⟩ <;>
    simp only [decodeVex, hmode, hmap, hbody]

/-- Of the byte after 62h, M32 reads the two top bits, the map and the reserved bits. -/
theorem decodeEvex_m32_congr (htop : field p 6 2 = field q 6 2) (hmap : field p 0 2 = field q 0 2)
    (hreserved : field p 2 2 = field q 2 2) (l : List Byte) :
    decodeEvex .effects .m32 raw (p :: l) = decodeEvex .effects .m32 raw (q :: l) := by
  have hbody : ∀ p1 p2 modrm rest, evexBody .effects .m32 raw p p1 p2 modrm rest =
      evexBody .effects .m32 raw q p1 p2 modrm rest := by
    intro p1 p2 modrm rest
    simp only [evexBody, evexInvalid, hreserved, checked_effects]
    rfl
  have hmode : prefixInMode .m32 p = prefixInMode .m32 q := by rw [prefixInMode, prefixInMode, htop]
  rcases l with _ | ⟨p1, _ | ⟨p2, _ | ⟨op, _ | ⟨modrm, rest⟩⟩⟩⟩ <;>
    simp only [decodeEvex, hmode, hmap, hbody]

end

/-- Setting V' leaves every other field of P2. -/
theorem or_vPrime_fields (p2 : Byte) :
    (p2 ||| 8).getLsbD 3 = true ∧ (p2 ||| 8).getLsbD 7 = p2.getLsbD 7 ∧
      (p2 ||| 8).getLsbD 4 = p2.getLsbD 4 ∧ field (p2 ||| 8) 5 2 = field p2 5 2 ∧
      field (p2 ||| 8) 0 3 = field p2 0 3 := by
  revert p2; decide

/-- V' stored 1 makes nothing invalid. -/
theorem evexInvalid_of_or_vPrime {m : Mode} {p0 p1 p2 modrm : Byte}
    (h : evexInvalid m p0 p1 (p2 ||| 8) modrm = true) : evexInvalid m p0 p1 p2 modrm = true := by
  obtain ⟨hv, hz, hb, hll, haaa⟩ := or_vPrime_fields p2
  rw [evexInvalid_iff, hv, hz, hb, hll, haaa] at h
  exact evexInvalid_iff.mpr
    (h.imp_right (.imp_right (.imp_left fun hrow => absurd hrow.1 Bool.true_eq_false_eq_False)))

/-- V' stored 0 reads as 1 or is invalid (R65 row c, R66; assumption log 2). -/
theorem evexBody_vPrime (m : Mode) (raw : List Byte) (p0 p1 p2 modrm : Byte) (rest : List Byte) :
    evexBody .effects m raw p0 p1 p2 modrm rest =
        evexBody .effects m raw p0 p1 (p2 ||| 8) modrm rest ∨
      evexBody .effects m raw p0 p1 p2 modrm rest = .invalid := by
  obtain ⟨hv, hz, hb, hll, haaa⟩ := or_vPrime_fields p2
  unfold evexBody
  simp only [checked_effects, hz, hb, hll, haaa]
  cases readOperandEvex (addrSize m (raw.filterMap legacyOf)) (extBit m p0 6) (extBit m p0 5) modrm
      rest with
  | none => exact .inl rfl
  | some src =>
    cases hbad : evexInvalid m p0 p1 p2 modrm with
    | false =>
      have hbad' := Bool.eq_false_iff.mpr fun h =>
        Bool.false_ne_true (hbad.symm.trans (evexInvalid_of_or_vPrime h))
      exact .inl (by rw [hbad'])
    | true =>
      by_cases hlen : maxLength < raw.length + evexLen [] src
      · exact .inl ((if_pos hlen).trans (if_pos hlen).symm)
      · exact .inr (if_neg hlen)

theorem decodeEvex_vPrime (m : Mode) (raw : List Byte) (p0 p1 p2 : Byte) (rest : List Byte) :
    decodeEvex .effects m raw (p0 :: p1 :: p2 :: rest) =
        decodeEvex .effects m raw (p0 :: p1 :: (p2 ||| 8) :: rest) ∨
      decodeEvex .effects m raw (p0 :: p1 :: p2 :: rest) = .invalid := by
  rcases rest with _ | ⟨op, _ | ⟨modrm, rest⟩⟩
  · exact .inl rfl
  · exact .inl rfl
  · simp only [decodeEvex]
    split_ifs
    · exact .inl rfl
    · exact .inl rfl
    · exact .inl rfl
    · exact evexBody_vPrime m raw p0 p1 p2 modrm rest

/-- Settles O56: M32 reads neither B nor R', and V' makes a difference for row c of R65 only. -/
theorem ignoredBitsInM32 : Obligations.IgnoredBitsInM32 := by
  unfold Obligations.IgnoredBitsInM32
  intro pre p p1 p2 rest
  simp only [decode_vex (isPrefixByte_of_mem_map _), decode_evex (isPrefixByte_of_mem_map _)]
  have hB : ∀ p : Byte, field p 6 2 = field (p ||| 0x20) 6 2 ∧
      field p 0 5 = field (p ||| 0x20) 0 5 := by decide
  have hBR' : ∀ p : Byte, field p 6 2 = field (p ||| 0x30) 6 2 ∧
      field p 0 2 = field (p ||| 0x30) 0 2 ∧ field p 2 2 = field (p ||| 0x30) 2 2 := by decide
  obtain ⟨htop, hmap, hreserved⟩ := hBR' p
  exact ⟨fun _ => decodeVex_m32_congr (hB p).1 (hB p).2 rest,
    fun _ => decodeEvex_m32_congr htop hmap hreserved rest,
    decodeEvex_vPrime .m32 _ p p1 p2 rest⟩

end Sys2Proof.Proofs
end

section
/-!
PROOFS. From instructions to bytes (30_encoding.md). A decoded instruction is well-formed (R12, R60, R65) and
stands at the front of the bytes: its legacy prefixes, then a body about which, behind any other bytes split
off in front that give the same address size, the last checks alone decide. So follow forbidden prefixes (R63),
the refusals of D3, and more than 15 bytes (R50), and from them the faults of the step (R107).
-/

namespace Sys2Proof.Proofs

open Sys2Proof.Machine

/-! ### Operand 2 is well-formed (R12, R60) -/

theorem regNamed_extend3 {m : Mode} {hi : Bool} (h : m = .m32 → hi = false) (low : BitVec 3) :
    regNamed m (extend3 hi low) = true := by
  cases m with
  | m64 => rfl
  | m32 =>
    rw [h rfl]
    revert low
    decide

theorem regNamed_ofBool_extend3 {m : Mode} {x hi : Bool} (h : m = .m32 → x = false ∧ hi = false)
    (low : BitVec 3) : regNamed m (BitVec.ofBool x ++ extend3 hi low) = true := by
  cases m with
  | m64 => rfl
  | m32 =>
    obtain ⟨rfl, rfl⟩ := h rfl
    revert low
    decide

theorem low3_extend3 (hi : Bool) (low : BitVec 3) : low3 (extend3 hi low) = low := by
  revert hi low; decide

theorem extBit_m32 {m : Mode} (p : Byte) (n : Nat) (h : m = .m32) : extBit m p n = false := by
  subst h; rfl

theorem indexWf_readIndex {m : Mode} {x : Bool} (h : m = .m32 → x = false) (sib : Byte) :
    indexWf m (readIndex x sib) = true := by
  unfold readIndex
  split_ifs with h4
  · rfl
  · rw [indexWf, bne_iff_ne.mpr h4, regNamed_extend3 h]
    rfl

/-- No displacement is read only where mod = 00b, so a base field that stands for something else there is
excluded. -/
theorem readDisp_not_bare {md : BitVec 2} {l : List Byte} {d : Disp} {r n : BitVec 3}
    (hread : readDisp md l = some d) (h : ¬(md = 0 ∧ r = n)) : (!(d == .none && r == n)) = true := by
  have hmod : d = .none → md = 0 := by
    rintro rfl
    by_contra h0
    unfold readDisp at hread
    split_ifs at hread <;> simp at hread
  simpa [imp_iff_not_or] using fun hd hr => h ⟨hmod hd, hr⟩

theorem readDisp16_not_bare {md : BitVec 2} {l : List Byte} {d : Disp16} {r n : BitVec 3}
    (hread : readDisp16 md l = some d) (h : ¬(md = 0 ∧ r = n)) :
    (!(d == .none && r == n)) = true := by
  have hmod : d = .none → md = 0 := by
    rintro rfl
    by_contra h0
    unfold readDisp16 at hread
    split_ifs at hread <;> simp at hread
  simpa [imp_iff_not_or] using fun hd hr => h ⟨hmod hd, hr⟩

section
variable {m : Mode} {a : AddrSize} {x b : Bool} {md : BitVec 2} {rm : BitVec 3} {l : List Byte}
  {o : MemOp}

theorem readSib_wf {sib : Byte} (ha : a ≠ .a16) (hx : m = .m32 → x = false)
    (hb : m = .m32 → b = false) (h : readSib x b md sib l = some o) : o.wf m a = true := by
  unfold readSib at h
  split_ifs at h with hbare
  · obtain ⟨d, _, rfl⟩ := Option.map_eq_some_iff.mp h
    simp [MemOp.wf, ha, indexWf_readIndex hx]
  · obtain ⟨d, hd, rfl⟩ := Option.map_eq_some_iff.mp h
    rw [MemOp.wf, low3_extend3, readDisp_not_bare hd hbare, regNamed_extend3 hb,
      indexWf_readIndex hx, bne_iff_ne.mpr ha]
    rfl

theorem readMem_wf (hx : m = .m32 → x = false) (hb : m = .m32 → b = false)
    (h : readMem a x b md rm l = some o) : o.wf m a = true := by
  by_cases ha : a = .a16
  · subst ha
    simp only [readMem] at h
    split_ifs at h with hbare
    · obtain ⟨d, _, rfl⟩ := Option.map_eq_some_iff.mp h
      rfl
    · obtain ⟨d, hd, rfl⟩ := Option.map_eq_some_iff.mp h
      rw [MemOp.wf, readDisp16_not_bare hd hbare]
      rfl
  · rw [readMem_wide ha] at h
    simp only [readMem] at h
    split_ifs at h with h4 hbare
    · match l, h with
      | sib :: bs, h => exact readSib_wf ha hx hb h
    · obtain ⟨d, _, rfl⟩ := Option.map_eq_some_iff.mp h
      exact bne_iff_ne.mpr ha
    · obtain ⟨d, hd, rfl⟩ := Option.map_eq_some_iff.mp h
      rw [MemOp.wf, low3_extend3, readDisp_not_bare hd hbare, regNamed_extend3 hb,
        bne_iff_ne.mpr ha, bne_iff_ne.mpr h4]
      rfl

theorem readOperandVex_wf {modrm : Byte} {src : Operand 4} (hx : m = .m32 → x = false)
    (hb : m = .m32 → b = false) (h : readOperandVex a x b modrm l = some src) :
    src.wf m a = true := by
  unfold readOperandVex at h
  split_ifs at h
  · obtain rfl := Option.some.inj h
    exact regNamed_extend3 hb _
  · obtain ⟨o, ho, rfl⟩ := Option.map_eq_some_iff.mp h
    exact readMem_wf hx hb ho

theorem readOperandEvex_wf {modrm : Byte} {src : Operand 5} (hx : m = .m32 → x = false)
    (hb : m = .m32 → b = false) (h : readOperandEvex a x b modrm l = some src) :
    src.wf m a = true := by
  unfold readOperandEvex at h
  split_ifs at h
  · obtain rfl := Option.some.inj h
    exact regNamed_ofBool_extend3 (fun hm => ⟨hx hm, hb hm⟩) _
  · obtain ⟨o, ho, rfl⟩ := Option.map_eq_some_iff.mp h
    exact readMem_wf hx hb ho

end

/-! ### Operand 2 is read from its own bytes (R55 to R62) -/

theorem readD32_take {l : List Byte} {d : BitVec 32} (h : readD32 l = some d) :
    readD32 (l.take 4) = some d := by
  match l, h with
  | b0 :: b1 :: b2 :: b3 :: t, h => exact h

theorem readD16_take {l : List Byte} {d : BitVec 16} (h : readD16 l = some d) :
    readD16 (l.take 2) = some d := by
  match l, h with
  | b0 :: b1 :: t, h => exact h

/-- A reader's answer under a constructor is read from as many bytes as the reader's own answer. -/
theorem map_take {α β : Type} {read : List Byte → Option α} {f : α → β} (size : β → Nat)
    {l : List Byte} {y : β} (hread : ∀ {a}, read l = some a → read (l.take (size (f a))) = some a)
    (h : (read l).map f = some y) : (read (l.take (size y))).map f = some y := by
  obtain ⟨a, ha, rfl⟩ := Option.map_eq_some_iff.mp h
  rw [hread ha, Option.map_some]

theorem readDisp_take {md : BitVec 2} {l : List Byte} {d : Disp} (h : readDisp md l = some d) :
    readDisp md (l.take d.bytes.length) = some d := by
  unfold readDisp at h ⊢
  split_ifs at h ⊢
  · exact h
  · exact map_take (·.bytes.length) (fun ha => by simp [Disp.bytes, List.head?_take, ha]) h
  · exact map_take (·.bytes.length) readD32_take h

theorem readDisp16_take {md : BitVec 2} {l : List Byte} {d : Disp16}
    (h : readDisp16 md l = some d) : readDisp16 md (l.take d.bytes.length) = some d := by
  unfold readDisp16 at h ⊢
  split_ifs at h ⊢
  · exact h
  · exact map_take (·.bytes.length) (fun ha => by simp [Disp16.bytes, List.head?_take, ha]) h
  · exact map_take (·.bytes.length) readD16_take h

/-- The operand's bytes are the SIB byte and those read here. -/
theorem readSib_take {x b : Bool} {md : BitVec 2} {sib : Byte} {l : List Byte} {o : MemOp}
    (h : readSib x b md sib l = some o) :
    ∃ n, o.tail.rest.length = n + 1 ∧ readSib x b md sib (l.take n) = some o := by
  unfold readSib at h ⊢
  split_ifs at h ⊢
  · obtain ⟨d, hd, rfl⟩ := Option.map_eq_some_iff.mp h
    exact ⟨4, rfl, by rw [readD32_take hd, Option.map_some]⟩
  · obtain ⟨d, hd, rfl⟩ := Option.map_eq_some_iff.mp h
    exact ⟨d.bytes.length, rfl, by rw [readDisp_take hd, Option.map_some]⟩

theorem readMem_take {a : AddrSize} {x b : Bool} {md : BitVec 2} {rm : BitVec 3} {l : List Byte}
    {o : MemOp} (h : readMem a x b md rm l = some o) :
    readMem a x b md rm (l.take o.tail.rest.length) = some o := by
  by_cases ha : a = .a16
  · subst ha
    simp only [readMem] at h ⊢
    split_ifs at h ⊢
    · exact map_take (·.tail.rest.length) readD16_take h
    · exact map_take (·.tail.rest.length) readDisp16_take h
  · rw [readMem_wide ha] at h ⊢
    simp only [readMem] at h ⊢
    split_ifs at h ⊢
    · match l, h with
      | sib :: bs, h =>
        obtain ⟨n, hn, hread⟩ := readSib_take h
        rw [hn]
        exact hread
    · exact map_take (·.tail.rest.length) readD32_take h
    · exact map_take (·.tail.rest.length) readDisp_take h

theorem readOperandVex_take {a : AddrSize} {x b : Bool} {modrm : Byte} {l : List Byte}
    {src : Operand 4} (h : readOperandVex a x b modrm l = some src) :
    readOperandVex a x b modrm (l.take src.tail.rest.length) = some src := by
  unfold readOperandVex at h ⊢
  split_ifs at h ⊢
  · exact h
  · exact map_take (·.tail.rest.length) readMem_take h

theorem readOperandEvex_take {a : AddrSize} {x b : Bool} {modrm : Byte} {l : List Byte}
    {src : Operand 5} (h : readOperandEvex a x b modrm l = some src) :
    readOperandEvex a x b modrm (l.take src.tail.rest.length) = some src := by
  unfold readOperandEvex at h ⊢
  split_ifs at h ⊢
  · exact h
  · exact map_take (·.tail.rest.length) readMem_take h

/-! ### What a decoded instruction is decoded from (R50, R64) -/

/-- The instruction with other legacy prefixes. -/
def withPfx (pfx : List LegacyPrefix) : Instr → Instr
  | .vcvtph2psVex128 _ dst src => .vcvtph2psVex128 pfx dst src
  | .vcvtph2psVex256 _ dst src => .vcvtph2psVex256 pfx dst src
  | .vcvtph2psEvex128 _ dst src mask => .vcvtph2psEvex128 pfx dst src mask
  | .vcvtph2psEvex256 _ dst src mask => .vcvtph2psEvex256 pfx dst src mask
  | .vcvtph2psEvex512 _ dst src mask => .vcvtph2psEvex512 pfx dst src mask
  | .vcvtph2psEvex512Sae _ dst src mask => .vcvtph2psEvex512Sae pfx dst src mask

theorem withPfx_self (i : Instr) : withPfx i.pfx i = i := by cases i <;> rfl

@[simp] theorem pfx_withPfx (pfx : List LegacyPrefix) (i : Instr) : (withPfx pfx i).pfx = pfx := by
  cases i <;> rfl

@[simp] theorem withPfx_withPfx (p q : List LegacyPrefix) (i : Instr) :
    withPfx p (withPfx q i) = withPfx p i := by
  cases i <;> rfl

/-- These bytes, from C4h or 62h on, are those of `i` after its legacy prefixes: behind any bytes split
off in front that give the same address size the last checks decide, and no row a to g of R65 holds. -/
def BodyOf (m : Mode) (body : List Byte) (i : Instr) : Prop :=
  i.len = i.pfx.length + body.length ∧
    ∃ ext, ∀ (po : Policy) (raw rest : List Byte), (∀ y ∈ raw, isPrefixByte m y = true) →
      addrSize m (raw.filterMap legacyOf) = addrSize m i.pfx →
      decode po m (raw ++ body ++ rest) =
        checked po m raw body.length ext false (withPfx (raw.filterMap legacyOf) i)

/-- `i` is decoded behind `raw`, split off in front, from a body at the front of `l`. -/
def DecodedFrom (po : Policy) (m : Mode) (raw l : List Byte) (i : Instr) : Prop :=
  i.pfx = raw.filterMap legacyOf ∧ i.operandsWf m = true ∧ raw.any (isBadPrefix m) = false ∧
    PrefixesAdmitted po m i.pfx ∧
    ∃ body rest, l = body ++ rest ∧ raw.length + body.length ≤ maxLength ∧ BodyOf m body i

section
variable {po : Policy} {m : Mode} {raw l : List Byte} {i : Instr}

/-- An instruction is answered only where a refusing test fails. -/
theorem not_and_eq_instr_of_ite_refused {c : Prop} [Decidable c] {q : DecodeRefusal} {e : Decoded}
    (h : (if c then .refused q else e) = .instr i) : ¬c ∧ e = .instr i := by
  split_ifs at h with hc
  exact ⟨hc, h⟩

/-- An instruction is answered after C4h only for map 0F38, pp = 01b and opcode 13h. -/
theorem decodeVex_eq_instr (h : decodeVex po m raw l = .instr i) : ∃ p1 p2 modrm rest,
    l = p1 :: p2 :: opcodeByte :: modrm :: rest ∧ (m = .m32 → field p1 6 2 = 3) ∧
      field p1 0 5 = 2 ∧ field p2 0 2 = 1 ∧ vexBody po m raw p1 p2 modrm rest = .instr i := by
  rcases l with _ | ⟨p1, l⟩
  · simp [decodeVex] at h
  obtain ⟨hmap, h⟩ := not_and_eq_instr_of_ite_refused h
  rcases l with _ | ⟨p2, l⟩
  · simp at h
  obtain ⟨hpp, h⟩ := not_and_eq_instr_of_ite_refused h
  rcases l with _ | ⟨op, l⟩
  · simp at h
  obtain ⟨hop, h⟩ := not_and_eq_instr_of_ite_refused h
  rcases l with _ | ⟨modrm, rest⟩
  · simp at h
  simp only [Bool.or_eq_true, Bool.not_eq_true', bne_iff_ne, not_or, not_not,
    Bool.not_eq_false] at hmap hpp hop
  subst hop
  exact ⟨p1, p2, modrm, rest, rfl, prefixInMode_iff.mp hmap.1, hmap.2, hpp, h⟩

/-- An instruction is answered after 62h only for map 0F38, pp = 01b and opcode 13h. -/
theorem decodeEvex_eq_instr (h : decodeEvex po m raw l = .instr i) : ∃ p0 p1 p2 modrm rest,
    l = p0 :: p1 :: p2 :: opcodeByte :: modrm :: rest ∧ (m = .m32 → field p0 6 2 = 3) ∧
      field p0 0 2 = 2 ∧ field p1 0 2 = 1 ∧ evexBody po m raw p0 p1 p2 modrm rest = .instr i := by
  rcases l with _ | ⟨p0, l⟩
  · simp [decodeEvex] at h
  obtain ⟨hmap, h⟩ := not_and_eq_instr_of_ite_refused h
  rcases l with _ | ⟨p1, l⟩
  · simp at h
  obtain ⟨hpp, h⟩ := not_and_eq_instr_of_ite_refused h
  rcases l with _ | ⟨p2, _ | ⟨op, l⟩⟩
  · simp at h
  · simp at h
  obtain ⟨hop, h⟩ := not_and_eq_instr_of_ite_refused h
  rcases l with _ | ⟨modrm, rest⟩
  · simp at h
  simp only [Bool.or_eq_true, Bool.not_eq_true', bne_iff_ne, not_or, not_not,
    Bool.not_eq_false] at hmap hpp hop
  subst hop
  exact ⟨p0, p1, p2, modrm, rest, rfl, prefixInMode_iff.mp hmap.1, hmap.2, hpp, h⟩

theorem decodedFrom_of_decodeVex (h : decodeVex po m raw l = .instr i) :
    DecodedFrom po m raw (0xC4 :: l) i := by
  obtain ⟨p1, p2, modrm, rest, rfl, hmode, hmap, hpp, hbody⟩ := decodeVex_eq_instr h
  cases hread : readOperandVex (addrSize m (raw.filterMap legacyOf)) (extBit m p1 6) (extBit m p1 5)
      modrm rest with
  | none => simp [vexBody, hread] at hbody
  | some src =>
    rw [vexBody_of_read hread] at hbody
    obtain ⟨hlen, hbad, hany, hpfx⟩ := checks_of_checked_eq_instr hbody
    have hi := checked_eq_instr hbody
    have hown := readOperandVex_take hread
    have hsrc := readOperandVex_wf (extBit_m32 p1 6) (extBit_m32 p1 5) hread
    have hdst := regNamed_extend3 (extBit_m32 (m := m) p1 7) (field modrm 3 3)
    have hsize : (0xC4 :: p1 :: p2 :: opcodeByte :: modrm :: rest.take src.tail.rest.length).length =
        vexLen [] src := by
      rw [vexLen, ← List.length_take_of_le (readOperandVex_within hread).1]
      simp only [List.length_cons, List.length_nil, List.length_take]
      omega
    have hpfx_i : i.pfx = raw.filterMap legacyOf := by
      rw [hi]
      split_ifs <;> rfl
    have hwf : i.operandsWf m = true := by
      rw [hi]
      split_ifs <;> exact Bool.and_eq_true_iff.mpr ⟨hdst, hsrc⟩
    refine ⟨hpfx_i, hwf, hany, hpfx_i ▸ hpfx, _, rest.drop src.tail.rest.length, ?_,
      hsize ▸ hlen, ?_, !p1.getLsbD 5, fun po' raw' rest' hraw' ha => ?_⟩
    · simp
    · rw [hsize, hpfx_i, hi]
      split_ifs <;> simp [Instr.len, vexLen, Nat.add_assoc]
    · have hread' := (readOperandVex_within hown).2 rest'
      rw [← hpfx_i, ← ha] at hread'
      rw [hsize, List.append_assoc]
      refine (decode_vex hraw' _).trans ((decodeVex_of_pattern _ _ hmode hmap hpp).trans
        ((vexBody_of_read hread').trans ?_))
      rw [hbad, hi]
      split_ifs <;> rfl

theorem operandsWf_evexInstr {pfx : List LegacyPrefix} {dst : BitVec 5} {src : Operand 5} {mask : Mask}
    (b : Bool) (ll : BitVec 2) (hdst : regNamed m dst = true)
    (hsrc : src.wf m (addrSize m pfx) = true) (hmask : mask.wf = true) :
    (evexInstr pfx dst src mask b ll).operandsWf m = true := by
  have hwf := Bool.and_eq_true_iff.mpr ⟨Bool.and_eq_true_iff.mpr ⟨hdst, hsrc⟩, hmask⟩
  unfold evexInstr
  split
  · exact hwf
  · split_ifs <;> exact hwf

theorem withPfx_evexInstr (p q : List LegacyPrefix) (dst : BitVec 5) (src : Operand 5) (mask : Mask)
    (b : Bool) (ll : BitVec 2) :
    withPfx p (evexInstr q dst src mask b ll) = evexInstr p dst src mask b ll := by
  unfold evexInstr
  split
  · rfl
  · split_ifs <;> rfl

theorem decodedFrom_of_decodeEvex (h : decodeEvex po m raw l = .instr i) :
    DecodedFrom po m raw (0x62 :: l) i := by
  obtain ⟨p0, p1, p2, modrm, rest, rfl, hmode, hmap, hpp, hbody⟩ := decodeEvex_eq_instr h
  cases hread : readOperandEvex (addrSize m (raw.filterMap legacyOf)) (extBit m p0 6)
      (extBit m p0 5) modrm rest with
  | none => simp [evexBody, hread] at hbody
  | some src =>
    rw [evexBody_of_read hread] at hbody
    obtain ⟨hlen, hbad, hany, hpfx⟩ := checks_of_checked_eq_instr hbody
    have hi := checked_eq_instr hbody
    have hown := readOperandEvex_take hread
    have hsrc := readOperandEvex_wf (extBit_m32 p0 6) (extBit_m32 p0 5) hread
    have hdst := regNamed_ofBool_extend3
      (fun hm : m = .m32 => ⟨extBit_m32 p0 4 hm, extBit_m32 p0 7 hm⟩) (field modrm 3 3)
    have hmask : Mask.wf ⟨field p2 0 3, p2.getLsbD 7⟩ = true := by
      rw [← Bool.not_eq_true, evexInvalid_iff] at hbad
      simp only [not_or] at hbad
      obtain ⟨_, _, _, _, _, hzero, _⟩ := hbad
      simpa [Mask.wf, imp_iff_not_or] using hzero
    have hsize : (0x62 :: p0 :: p1 :: p2 :: opcodeByte :: modrm ::
        rest.take src.tail.rest.length).length = evexLen [] src := by
      rw [evexLen, ← List.length_take_of_le (readOperandEvex_within hread).1]
      simp only [List.length_cons, List.length_nil, List.length_take]
      omega
    have hpfx_i : i.pfx = raw.filterMap legacyOf := by
      rw [hi, ← withPfx_evexInstr _ [], pfx_withPfx]
    have hwf : i.operandsWf m = true := hi ▸ operandsWf_evexInstr _ _ hdst hsrc hmask
    refine ⟨hpfx_i, hwf, hany, hpfx_i ▸ hpfx, _, rest.drop src.tail.rest.length, ?_,
      hsize ▸ hlen, ?_, (!p0.getLsbD 5 || !p0.getLsbD 4 || !p2.getLsbD 3),
      fun po' raw' rest' hraw' ha => ?_⟩
    · simp
    · rw [hsize, hpfx_i, hi, evexInstr_len]
      simp [evexLen, Nat.add_assoc]
    · have hread' := (readOperandEvex_within hown).2 rest'
      rw [← hpfx_i, ← ha] at hread'
      rw [hsize, List.append_assoc]
      refine (decode_evex hraw' _).trans ((decodeEvex_of_pattern _ _ _ hmode hmap hpp).trans
        ((evexBody_of_read hread').trans ?_))
      rw [hbad, hi, withPfx_evexInstr]

theorem splitPrefixes_eq_append (m : Mode) (l : List Byte) :
    l = (splitPrefixes m l).1 ++ (splitPrefixes m l).2 ∧
      ∀ y ∈ (splitPrefixes m l).1, isPrefixByte m y = true := by
  induction l with
  | nil => exact ⟨rfl, by simp [splitPrefixes]⟩
  | cons b bs ih =>
    rw [splitPrefixes]
    split_ifs with hb
    · exact ⟨congrArg (b :: ·) ih.1, List.forall_mem_cons.mpr ⟨hb, ih.2⟩⟩
    · exact ⟨rfl, by simp⟩

/-- Prefix bytes none of which is forbidden are legacy prefixes. -/
theorem eq_map_of_no_bad (hraw : ∀ y ∈ raw, isPrefixByte m y = true)
    (hany : raw.any (isBadPrefix m) = false) :
    raw = (raw.filterMap legacyOf).map LegacyPrefix.byte := by
  induction raw with
  | nil => rfl
  | cons y ys ih =>
    obtain ⟨hy, hys⟩ := List.forall_mem_cons.mp hraw
    obtain ⟨hbad, hbads⟩ := Bool.or_eq_false_iff.mp (List.any_cons ▸ hany)
    rw [isPrefixByte, hbad, Bool.or_false] at hy
    obtain ⟨p, hp⟩ := Option.isSome_iff_exists.mp hy
    rw [List.filterMap_cons_some hp, List.map_cons, legacyOf_eq_some hp, ← ih hys hbads]

/-- A decoded instruction is well-formed and stands at the front of the bytes: its legacy prefixes, then
its body. -/
theorem decode_eq_instr (h : decode po m l = .instr i) :
    i.wf po m = true ∧ ∃ body rest, l = i.pfx.map LegacyPrefix.byte ++ body ++ rest ∧
      BodyOf m body i := by
  obtain ⟨hsplit, hraw⟩ := splitPrefixes_eq_append m l
  have hfrom : DecodedFrom po m (splitPrefixes m l).1 (splitPrefixes m l).2 i := by
    unfold decode at h
    cases hl : (splitPrefixes m l).2 with
    | nil => simp [hl] at h
    | cons b t =>
      simp only [hl] at h
      split_ifs at h with hvex hevex
      · exact hvex ▸ decodedFrom_of_decodeVex h
      · exact hevex ▸ decodedFrom_of_decodeEvex h
  obtain ⟨hpfx, hops, hany, hadm, body, rest, hl, hlen, hbody⟩ := hfrom
  have hmap := eq_map_of_no_bad hraw hany
  rw [← hpfx] at hmap
  refine ⟨wf_iff.mpr ⟨hops, ?_, hadm⟩, body, rest, ?_, hbody⟩
  · rwa [hmap, List.length_map, ← hbody.1] at hlen
  · rwa [hl, hmap, ← List.append_assoc] at hsplit

end

/-- Settles O2: the bytes are the legacy prefixes, the body and a rest that no check looks at. -/
theorem decodedIsWellFormed : Obligations.DecodedIsWellFormed := by
  unfold Obligations.DecodedIsWellFormed
  intro po m bytes i h
  obtain ⟨hwf, body, rest, hbytes, hlen, ext, hbody⟩ := decode_eq_instr h
  have hown : (i.pfx.map LegacyPrefix.byte ++ body).length = i.len := by
    rw [List.length_append, List.length_map, hlen]
  have hsame := fun r => hbody po (i.pfx.map LegacyPrefix.byte) r (isPrefixByte_of_mem_map m)
    (by rw [filterMap_legacyOf])
  refine ⟨hwf, decode_len h, fun r => ?_⟩
  rw [hbytes, ← hown, List.take_left, hsame r, ← hsame rest, ← hbytes, h]

/-- Settles O1: an encoding is decoded as its instruction, by `decode_encode`. -/
theorem decodeOfEncode : Obligations.DecodeOfEncode := by
  unfold Obligations.DecodeOfEncode
  exact fun po m i rest h => decode_encode h rest

/-! ### The body of an encoding -/

/-- What an encoding holds after its legacy prefixes does not depend on them. -/
theorem exists_encode_withPfx (i : Instr) :
    ∃ body, ∀ pfx, encode (withPfx pfx i) = pfx.map LegacyPrefix.byte ++ body := by
  cases i <;> exact ⟨_, fun pfx => List.append_assoc ..⟩

theorem operandsWf_withPfx {m : Mode} {i : Instr} {pfx : List LegacyPrefix}
    (h : addrSize m pfx = addrSize m i.pfx) : (withPfx pfx i).operandsWf m = i.operandsWf m := by
  cases i <;> simp only [Instr.pfx] at h <;> simp only [withPfx, Instr.operandsWf, h]

/-- No prefixes or one 67h are enough for an address size. -/
theorem exists_short_prefixes (m : Mode) (pfx : List LegacyPrefix) :
    ∃ short : List LegacyPrefix, short.length ≤ 1 ∧ addrSize m short = addrSize m pfx := by
  by_cases h : .addrSize ∈ pfx
  · exact ⟨[.addrSize], le_rfl, by simp [addrSize, h]⟩
  · exact ⟨[], zero_le_one, by simp [addrSize, h]⟩

/-- Of the encoding of an instruction with well-formed operands, of any length, what follows the legacy
prefixes is its body: with fewer of them it is well-formed, and read back. -/
theorem exists_bodyOf_encode {m : Mode} {i : Instr} (h : i.operandsWf m = true) :
    ∃ body, encode i = i.pfx.map LegacyPrefix.byte ++ body ∧ BodyOf m body i := by
  obtain ⟨body, hbody⟩ := exists_encode_withPfx i
  obtain ⟨short, hshort, ha⟩ := exists_short_prefixes m i.pfx
  have henc : encode i = i.pfx.map LegacyPrefix.byte ++ body := by
    rw [← hbody, withPfx_self]
  have hlen : body.length ≤ 11 := by
    obtain ⟨x, t, hsplit, _, ht⟩ := encode_split i
    rw [List.append_cancel_left (henc.symm.trans hsplit), List.length_cons]
    omega
  have hwf : (withPfx short i).wf .effects m = true := by
    refine wf_iff.mpr ⟨(operandsWf_withPfx ha).trans h, ?_, nofun⟩
    rw [← encode_length, hbody, List.length_append, List.length_map, maxLength]
    omega
  have hdec := decode_encode hwf []
  obtain ⟨_, own, rest, hown, hlen', ext, hchecks⟩ := decode_eq_instr hdec
  rw [hbody, List.append_nil, pfx_withPfx, List.append_assoc] at hown
  rw [← encode_length, hbody, pfx_withPfx, List.length_append, List.length_map] at hlen'
  have hbody_own : body = own := by
    have hcat := List.append_cancel_left hown
    have hnil : rest = [] := List.eq_nil_of_length_eq_zero (by
      have := congrArg List.length hcat
      rw [List.length_append] at this
      omega)
    rw [hcat, hnil, List.append_nil]
  subst hbody_own
  refine ⟨body, henc, ?_, ext, fun po raw rest' hraw haddr => ?_⟩
  · rw [← encode_length, henc, List.length_append, List.length_map]
  · rw [hchecks po raw rest' hraw (by rw [haddr, pfx_withPfx, ha]), withPfx_withPfx]

/-- The last checks decide about the encoding of an instruction with well-formed operands. -/
theorem decode_encode_eq_checked {m : Mode} {i : Instr} (h : i.operandsWf m = true) (po : Policy)
    (rest : List Byte) : ∃ len ext, i.len = i.pfx.length + len ∧
      decode po m (encode i ++ rest) =
        checked po m (i.pfx.map LegacyPrefix.byte) len ext false i := by
  obtain ⟨body, henc, hlen, ext, hchecks⟩ := exists_bodyOf_encode h
  have hdec := hchecks po _ rest (isPrefixByte_of_mem_map m) (by rw [filterMap_legacyOf])
  rw [filterMap_legacyOf, withPfx_self, ← henc] at hdec
  exact ⟨body.length, ext, hlen, hdec⟩

/-! ### Forbidden prefixes (R63, R65 row h) -/

/-- LOCK, 66h, F2h, F3h and in M64 the bytes 40h to 4Fh are no legacy prefixes, and forbidden. -/
theorem isBadPrefix_of_forbidden {m : Mode} {b : Byte}
    (h : b = 0xF0 ∨ b = 0x66 ∨ b = 0xF2 ∨ b = 0xF3 ∨ (m = .m64 ∧ 0x40 ≤ b.toNat ∧ b.toNat ≤ 0x4F)) :
    isBadPrefix m b = true ∧ legacyOf b = none := by
  have hrex : ∀ c : Byte, 0x40 ≤ c.toNat ∧ c.toNat ≤ 0x4F →
      isBadPrefix .m64 c = true ∧ legacyOf c = none := by decide
  rcases h with rfl | rfl | rfl | rfl | ⟨rfl, h⟩
  · exact ⟨rfl, rfl⟩
  · exact ⟨rfl, rfl⟩
  · exact ⟨rfl, rfl⟩
  · exact ⟨rfl, rfl⟩
  · exact hrex b h

/-- A forbidden byte among the legacy prefixes makes an instruction of at most 15 bytes with it
invalid. -/
theorem BodyOf.invalid_of_forbidden {m : Mode} {body : List Byte} {i : Instr} {b : Byte}
    {pre post : List LegacyPrefix} (h : BodyOf m body i) (hpfx : i.pfx = pre ++ post)
    (hbad : isBadPrefix m b = true) (hnone : legacyOf b = none) (hlen : 1 + i.len ≤ maxLength)
    (rest : List Byte) :
    decode .effects m (pre.map LegacyPrefix.byte ++ b :: post.map LegacyPrefix.byte ++ body ++ rest)
      = .invalid := by
  obtain ⟨hi, ext, hchecks⟩ := h
  have hlegacy : (pre.map LegacyPrefix.byte ++ b :: post.map LegacyPrefix.byte).filterMap legacyOf =
      i.pfx := by
    rw [List.filterMap_append, List.filterMap_cons_none hnone, filterMap_legacyOf,
      filterMap_legacyOf, hpfx]
  have hraw : ∀ y ∈ pre.map LegacyPrefix.byte ++ b :: post.map LegacyPrefix.byte,
      isPrefixByte m y = true := by
    refine List.forall_mem_append.mpr ⟨isPrefixByte_of_mem_map m,
      List.forall_mem_cons.mpr ⟨?_, isPrefixByte_of_mem_map m⟩⟩
    rw [isPrefixByte, hbad, Bool.or_true]
  rw [hchecks .effects _ rest hraw (by rw [hlegacy])]
  apply checked_of_invalid
  · rw [hpfx, List.length_append] at hi
    simp only [List.length_append, List.length_cons, List.length_map]
    omega
  · simp [hbad]

/-- Settles O8: the forbidden byte cuts the legacy prefixes in two and leaves the body as it is. -/
theorem forbiddenPrefixInvalid : Obligations.ForbiddenPrefixInvalid := by
  unfold Obligations.ForbiddenPrefixInvalid
  intro m i n b rest hwf hn hlen hb
  obtain ⟨hbad, hnone⟩ := isBadPrefix_of_forbidden hb
  obtain ⟨body, henc, hbody⟩ := exists_bodyOf_encode (wf_iff.mp hwf).1
  have hn' : n ≤ (i.pfx.map LegacyPrefix.byte).length := by rwa [List.length_map]
  rw [henc, List.take_append_of_le_length hn', List.drop_append_of_le_length hn', ← List.map_take,
    ← List.map_drop]
  have hinvalid := hbody.invalid_of_forbidden (List.take_append_drop n i.pfx).symm hbad hnone hlen rest
  rwa [List.append_assoc _ (b :: _), List.cons_append] at hinvalid

/-! ### Refusals under `Policy.decisions` (R62, R63, R66) -/

/-- In M32 a cleared extension bit is refused, where the legacy prefixes are not. -/
theorem checked_of_extBit {pre : List LegacyPrefix} {len : Nat} {ext bad : Bool} {i : Instr}
    (hrep : repeatedPrefix pre = false) (h16 : .addrSize ∉ pre) (hext : ext = true) :
    checked .decisions .m32 (pre.map LegacyPrefix.byte) len ext bad i =
      .refused .m32ExtensionBit := by
  have ha : addrSize .m32 pre = .a32 := by simp [addrSize, h16]
  rw [checked, filterMap_legacyOf, hrep, ha, hext]
  rfl

/-- Settles O11: the refusals of D3 are the first of the last checks, in this order. -/
theorem decisionsRefuse : Obligations.DecisionsRefuse := by
  unfold Obligations.DecisionsRefuse
  refine ⟨fun m i rest hwf => ?_, fun pre p0 p1 p2 modrm rest hrep h16 hrest => ⟨?_, ?_⟩⟩
  · obtain ⟨len, ext, _, hdec⟩ := decode_encode_eq_checked (wf_iff.mp hwf).1 .decisions rest
    rw [hdec, checked, filterMap_legacyOf]
    refine ⟨fun hrep => if_pos ⟨rfl, hrep⟩, fun hrep hm h16 => ?_⟩
    have ha : addrSize m i.pfx = .a16 := by simp [addrSize, hm, h16]
    rw [hrep, ha]
    rfl
  · intro htop hmap hpp hB
    obtain ⟨len, i, _, hbody⟩ := vexBody_of_five_bytes p1 p2 hrest
    rw [decode_vex (isPrefixByte_of_mem_map _), ← opcodeByte,
      decodeVex_of_pattern _ _ (fun _ => htop) hmap hpp, hbody,
      checked_of_extBit hrep h16 (by rw [hB]; rfl)]
  · intro htop hmap hpp hext
    obtain ⟨len, i, _, hbody⟩ := evexBody_of_five_bytes p0 p1 p2 hrest
    rw [decode_evex (isPrefixByte_of_mem_map _), ← opcodeByte,
      decodeEvex_of_pattern _ _ _ (fun _ => htop) hmap hpp, hbody, checked_of_extBit hrep h16]
    simpa [or_assoc] using hext

/-! ### Words of the spec (R57, R59, R61, R67) -/

/-- Settles O12: six words, each decoded. -/
theorem wordsOfTheSpecDecode : Obligations.WordsOfTheSpecDecode := by
  unfold Obligations.WordsOfTheSpecDecode
  decide

/-! ### The step on decoded bytes (R50, R64, R65, R107, R108) -/

/-- Settles O13: neither `breakFirst` nor `debugTrap` changes the execution. -/
theorem stepRunsDecoded : Obligations.StepRunsDecoded := by
  unfold Obligations.StepRunsDecoded
  exact fun s i => step_of_decodeAt

/-- Settles O16: `#UD` records nothing. -/
theorem invalidEncodingStepFaults : Obligations.InvalidEncodingStepFaults := by
  unfold Obligations.InvalidEncodingStepFaults
  intro s hinvalid hbreak
  rw [step, hinvalid]
  exact breakFirst_of_not hbreak _

/-- More than 15 bytes are too long, before any other check under `Policy.effects`. -/
theorem decode_encode_tooLong {m : Mode} {i : Instr} (h : i.operandsWf m = true) (hlen : 15 < i.len)
    (rest : List Byte) : decode .effects m (encode i ++ rest) = .tooLong := by
  obtain ⟨len, ext, hi, hdec⟩ := decode_encode_eq_checked h .effects rest
  rw [hdec, checked_effects, List.length_map, ← hi]
  exact if_pos hlen

/-- Settles O15: the fetch gives the whole encoding, which is too long; `#GP(0)` records nothing. -/
theorem tooLongStepFaults : Obligations.TooLongStepFaults := by
  unfold Obligations.TooLongStepFaults
  intro s i hpo hops hlong hlen hholds hbreak
  obtain ⟨rest, hfetch⟩ := fetchBytes_of_holds hholds hlen
  have hdec : decodeAt s = .tooLong := by
    rw [decodeAt, hfetch, hpo, decode_encode_tooLong hops hlong]
  rw [step, hdec]
  exact breakFirst_of_not hbreak _

end Sys2Proof.Proofs
end

section
/-!
PROOFS. Effective addresses (30_encoding.md R57, R60, R62): every part of an address sum is the word of an
integer, so the address is the sum of the integers modulo 2^A; and the segment that overrides select (R63).
-/

namespace Sys2Proof.Proofs

open Sys2Proof.Machine

/-! ### Address sums as integers (R57, R60, R62) -/

theorem gpr_eq_ofInt (s : State) (r : GReg) : s.gpr r = BitVec.ofInt 64 (s.gpr r).toNat := by
  rw [BitVec.ofInt_natCast, BitVec.ofNat_toNat, BitVec.setWidth_eq]

theorem signExtend_eq_ofInt {w : Nat} (d : BitVec w) :
    d.signExtend 64 = BitVec.ofInt 64 d.toInt := rfl

/-- The effective address is the integer sum modulo 2^A. -/
theorem ea_eq_emod {i : Instr} {s : State} {o : MemOp} {z : Int}
    (h : addressSum s i.len (disp8Scale i.form) o = BitVec.ofInt 64 z) :
    ((refOf i o s).ea : Int) = z % 2 ^ addrBits (addrSize s.mode i.pfx) := by
  have hea : (refOf i o s).ea =
      (BitVec.ofInt 64 z).toNat % 2 ^ addrBits (addrSize s.mode i.pfx) := by
    rw [← h]
    rfl
  have hdvd : (2 ^ addrBits (addrSize s.mode i.pfx) : Int) ∣ 2 ^ 64 :=
    pow_dvd_pow 2 (by cases addrSize s.mode i.pfx <;> decide)
  have hz : ((BitVec.ofInt 64 z).toNat : Int) = z % 2 ^ 64 := by
    rw [BitVec.toNat_ofInt]
    exact Int.toNat_of_nonneg (Int.emod_nonneg z (by decide))
  rw [hea, Int.natCast_emod, hz, Nat.cast_pow, Nat.cast_ofNat, Int.emod_emod_of_dvd z hdvd]

/-- A displacement as an integer, a disp8 scaled by `n` (R57). -/
def dispInt (n : Int) : Disp → Int
  | .none => 0
  | .d8 d => d.toInt * n
  | .d32 d => d.toInt

theorem dispValue_eq_ofInt (n : Nat) (d : Disp) :
    dispValue n d = BitVec.ofInt 64 (dispInt n d) := by
  cases d with
  | none => rfl
  | d8 d => rw [dispInt, BitVec.ofInt_mul, BitVec.ofInt_natCast, ← signExtend_eq_ofInt, dispValue]
  | d32 d => rfl

/-- A displacement of address size 16 as an integer, a disp8 scaled by `n` (R62). -/
def disp16Int (n : Int) : Disp16 → Int
  | .none => 0
  | .d8 d => d.toInt * n
  | .d16 d => d.toInt

theorem dispValue16_eq_ofInt (n : Nat) (d : Disp16) :
    dispValue16 n d = BitVec.ofInt 64 (disp16Int (disp8Scale16 n) d) := by
  cases d with
  | none => rfl
  | d8 d =>
    rw [disp16Int, BitVec.ofInt_mul, BitVec.ofInt_natCast, ← signExtend_eq_ofInt, dispValue16]
  | d16 d => rfl

/-- A scaled index as an integer (R56). -/
def indexInt (s : State) : Option Index → Int
  | none => 0
  | some ix => (s.gpr ix.reg).toNat * 2 ^ ix.scale.toNat

theorem indexValue_eq_ofInt (s : State) (ix : Option Index) :
    indexValue s ix = BitVec.ofInt 64 (indexInt s ix) := by
  cases ix with
  | none => rfl
  | some ix =>
    have hcast : indexInt s (some ix) =
        (((s.gpr ix.reg).toNat <<< ix.scale.toNat : Nat) : Int) := by
      rw [indexInt, Nat.shiftLeft_eq, Nat.cast_mul, Nat.cast_pow, Nat.cast_ofNat]
    rw [hcast, BitVec.ofInt_natCast]
    rfl

/-- N of R57 for each form. -/
theorem disp8Scale_eq (f : Form) : (disp8Scale f : Int) =
    match f with
    | .vex128 => 1 | .vex256 => 1 | .evex128 => 8 | .evex256 => 16 | .evex512 => 32 := by
  cases f <;> rfl

/-- Settles O41: base, index and displacement are words of their integers. -/
theorem effectiveAddressAtWideSizes : Obligations.EffectiveAddressAtWideSizes := by
  unfold Obligations.EffectiveAddressAtWideSizes
  intro i s o hsrc hsize n a disp index
  have hn : n = disp8Scale i.form := (disp8Scale_eq i.form).symm
  have hdisp : ∀ d, disp d = dispInt (disp8Scale i.form) d := by
    intro d
    rw [← hn]
    cases d <;> rfl
  have hindex : ∀ ix, index ix = indexInt s ix := by
    intro ix
    cases ix <;> rfl
  have ha : a = addrBits (addrSize s.mode i.pfx) := by
    cases hm : s.mode with
    | m64 => by_cases h : .addrSize ∈ i.pfx <;> simp [a, hm, addrSize, addrBits, h]
    | m32 => simp [a, hm, addrSize, addrBits, hsize hm]
  rw [ha]
  refine ⟨?_, ?_, ?_⟩
  · rintro b d rfl
    rw [hdisp]
    apply ea_eq_emod
    rw [BitVec.ofInt_add, ← gpr_eq_ofInt, ← dispValue_eq_ofInt, addressSum]
  · rintro b ix d rfl
    rw [hdisp, hindex]
    apply ea_eq_emod
    rw [BitVec.ofInt_add, BitVec.ofInt_add, ← gpr_eq_ofInt, ← dispValue_eq_ofInt,
      ← indexValue_eq_ofInt, addressSum]
  · rintro ix d rfl
    rw [hindex]
    apply ea_eq_emod
    rw [BitVec.ofInt_add, ← signExtend_eq_ofInt, ← indexValue_eq_ofInt, addressSum]

/-- Settles O42: in M64 `pc`, length and disp32 are summed, in M32 the disp32 stands alone. -/
theorem effectiveAddressOfDisp32 : Obligations.EffectiveAddressOfDisp32 := by
  unfold Obligations.EffectiveAddressOfDisp32
  intro i s d hsrc
  constructor
  · intro hm
    have ha : addrBits (addrSize s.mode i.pfx) = if .addrSize ∈ i.pfx then 32 else 64 := by
      by_cases h : .addrSize ∈ i.pfx <;> simp [hm, addrSize, addrBits, h]
    rw [← ha]
    apply ea_eq_emod
    rw [addressSum, hm, BitVec.ofInt_add, BitVec.ofInt_add, BitVec.ofInt_natCast,
      BitVec.ofInt_natCast, BitVec.ofNat_toNat, BitVec.setWidth_eq, signExtend_eq_ofInt]
  · intro hm h67
    have ha : addrBits (addrSize s.mode i.pfx) = 32 := by
      simp [hm, addrSize, addrBits, h67]
    refine (ea_eq_emod ?_).trans (by rw [ha])
    rw [addressSum, hm, signExtend_eq_ofInt]

/-- The register combination of R62 as an integer sum. -/
def base16Int (s : State) (rm : BitVec 3) : Int :=
  match rm.toNat with
  | 0 => (s.gpr 3).toNat + (s.gpr 6).toNat
  | 1 => (s.gpr 3).toNat + (s.gpr 7).toNat
  | 2 => (s.gpr 5).toNat + (s.gpr 6).toNat
  | 3 => (s.gpr 5).toNat + (s.gpr 7).toNat
  | 4 => (s.gpr 6).toNat
  | 5 => (s.gpr 7).toNat
  | 6 => (s.gpr 5).toNat
  | _ => (s.gpr 3).toNat

theorem gpr_add_eq_ofInt (s : State) (r q : GReg) :
    s.gpr r + s.gpr q = BitVec.ofInt 64 ((s.gpr r).toNat + (s.gpr q).toNat) := by
  rw [BitVec.ofInt_add, ← gpr_eq_ofInt, ← gpr_eq_ofInt]

theorem base16_eq_ofInt (s : State) (rm : BitVec 3) :
    base16 s rm = BitVec.ofInt 64 (base16Int s rm) := by
  have hrm : rm.toNat < 8 := rm.isLt
  unfold base16 base16Int
  generalize rm.toNat = n at hrm
  match n, hrm with
  | 0, _ => exact gpr_add_eq_ofInt s 3 6
  | 1, _ => exact gpr_add_eq_ofInt s 3 7
  | 2, _ => exact gpr_add_eq_ofInt s 5 6
  | 3, _ => exact gpr_add_eq_ofInt s 5 7
  | 4, _ => exact gpr_eq_ofInt s 6
  | 5, _ => exact gpr_eq_ofInt s 7
  | 6, _ => exact gpr_eq_ofInt s 5
  | 7, _ => exact gpr_eq_ofInt s 3

/-- Settles O53: the scale of a disp8 is the one that the open constant selects (assumption log 3). -/
theorem effectiveAddressAtSize16 : Obligations.EffectiveAddressAtSize16 := by
  unfold Obligations.EffectiveAddressAtSize16
  intro i s o hsrc hm h67
  have ha : addrBits (addrSize s.mode i.pfx) = 16 := by simp [hm, addrSize, addrBits, h67]
  constructor
  · rintro d rfl
    refine (ea_eq_emod ?_).trans (by rw [ha])
    rw [addressSum, signExtend_eq_ofInt]
  · rintro rm d rfl
    refine ⟨disp8Scale16 (disp8Scale i.form), ?_, ?_⟩
    · rw [disp8Scale16]
      split_ifs
      · exact .inl rfl
      · exact .inr (disp8Scale_eq i.form)
      · exact .inl rfl
    · have hsum : addressSum s i.len (disp8Scale i.form) (.a16 rm d) = BitVec.ofInt 64
          (base16Int s rm + disp16Int (disp8Scale16 (disp8Scale i.form)) d) := by
        rw [addressSum, BitVec.ofInt_add, ← base16_eq_ofInt, ← dispValue16_eq_ofInt]
      have hea := ea_eq_emod hsum
      rw [ha] at hea
      cases d <;> exact hea

/-! ### Segment overrides (R63) -/

theorem overrideOf_eq_some {m : Mode} {g : Seg} (h : m = .m64 → g = .fs ∨ g = .gs) :
    overrideOf m (.seg g) = some g :=
  if_neg fun ⟨hm, hfs, hgs⟩ => (h hm).elim hfs hgs

theorem filterMap_overrideOf_eq_nil {m : Mode} {pfx : List LegacyPrefix}
    (h : ∀ g, .seg g ∈ pfx → m = .m64 ∧ g ≠ .fs ∧ g ≠ .gs) : pfx.filterMap (overrideOf m) = [] := by
  refine List.filterMap_eq_nil_iff.mpr fun p hp => ?_
  cases p with
  | addrSize => rfl
  | seg g => exact if_pos (h g hp)

/-- Settles O43: of the overrides that count this one is the last. -/
theorem lastOverrideWins : Obligations.LastOverrideWins := by
  unfold Obligations.LastOverrideWins
  intro i s pre post g o hpfx hg hpost
  have hseg : (refOf i o s).seg = operandSeg s.mode i.pfx o := rfl
  rw [hseg, operandSeg, hpfx, List.filterMap_append,
    List.filterMap_cons_some (overrideOf_eq_some hg), filterMap_overrideOf_eq_nil hpost,
    List.getLast?_concat]
  rfl

end Sys2Proof.Proofs
end

section
/-!
PROOFS. The execution of R86: when an instruction completes and what its destination then holds (R87
to R95), what a fault changes (R95, R104, R105), and what is not read (R84, R112).
-/

namespace Sys2Proof.Proofs

open Sys2Proof.Machine

/-! ### Completion (R86) -/

/-- A ready operand is read (R35, R41). -/
theorem readSource_of_ready {i : Instr} {s : State} (h : OperandReady i s) :
    ∃ bits, readSource i.form i.len i.pfx i.source i.mask s = .next bits := by
  unfold OperandReady at h
  cases hsrc : i.source with
  | reg n => exact ⟨_, rfl⟩
  | mem o =>
    rw [hsrc] at h
    obtain ⟨hfits, hchecks⟩ := h
    rw [← hsrc, readSource_mem s hsrc]
    exact ⟨_, memRead_eq_next.mpr ⟨wraps_eq_false_iff.mpr hfits, hchecks, rfl⟩⟩

/-- An Invalid takes effect where it is signalled and not suppressed (R105). -/
theorem invalid_iff {i : Instr} {s : State} {bits : Packed}
    (hb : readSource i.form i.len i.pfx i.source i.mask s = .next bits) :
    (anyInvalid i.form i.mask bits s && !i.sae) = true ↔ Signals i s ∧ i.sae = false := by
  rw [Bool.and_eq_true, anyInvalid_iff_signals hb, Bool.not_eq_true']

/-- Nothing that is read after operand 2 is marked unwritten (R121). -/
theorem resultRegs_written {i : Instr} {s : State} {bits : Packed} (hw : AllWritten i s)
    (hb : readSource i.form i.len i.pfx i.source i.mask s = .next bits) :
    ∀ r ∈ resultRegs i.form i.dest i.mask i.sae bits s, r ∉ s.unwritten := by
  obtain ⟨-, hmxcsr, hkept⟩ := hw
  have hold : ∀ r ∈ keptRegs i.form i.dest i.mask s, r ∉ s.unwritten := by
    intro r hr
    obtain ⟨hkeeps, rfl⟩ := mem_keptRegs_iff.mp hr
    exact hkept hkeeps
  unfold resultRegs
  split_ifs with hinv him
  · obtain ⟨hsig, hsae⟩ := (invalid_iff hb).mp hinv
    exact List.forall_mem_cons.mpr ⟨hmxcsr hsae hsig, hold⟩
  · obtain ⟨hsig, hsae⟩ := (invalid_iff hb).mp hinv
    exact List.forall_mem_cons.mpr ⟨hmxcsr hsae hsig, nofun⟩
  · exact hold

/-- An enabled instruction whose operand can be read completes, unless an unmasked Invalid stops it. -/
theorem exec_completes {i : Instr} {s : State} (hen : enabled i.form s = true) (hts : s.ts = false)
    (hready : OperandReady i s) (hw : AllWritten i s)
    (hinv : i.sae = true ∨ s.im = true ∨ ¬ Signals i s) : ∃ t, exec i s = .next t := by
  obtain ⟨bits, hb⟩ := readSource_of_ready hready
  rw [exec_eq_execForm, execForm_eq_convertLanes (recognised_eq_none.mpr ⟨hen, hts⟩) hw.1 hb
    (resultRegs_written hw hb)]
  unfold convertLanes
  split_ifs with hany him
  · exact ⟨_, rfl⟩
  · obtain ⟨hsig, hsae⟩ := (invalid_iff hb).mp hany
    rcases hinv with h | h | h
    · exact absurd (hsae.symm.trans h) (by decide)
    · exact absurd h him
    · exact absurd hsig h
  · exact ⟨_, rfl⟩

/-! ### The destination (R92 to R94) -/

theorem active_iff {s : State} {mask : Mask} {j : Nat} :
    active s mask j = true ↔ mask.aaa = 0 ∨ (s.opmask mask.aaa).getLsbD j = true := by
  rw [active, Bool.or_eq_true, beq_iff_eq]

/-- The lanes of the destination after a completion: converted, kept or zeroed (R93). -/
theorem exec_lane {i : Instr} {s t : State} (h : exec i s = .next t) {j : Nat} (hj : j < lanes i) :
    (t.vreg i.dest).extractLsb' (32 * j) 32 =
      if i.mask.aaa = 0 ∨ (s.opmask i.mask.aaa).getLsbD j = true then
        (vCvtH2s s.plat.nanConv (sourceHalf i s j)).1
      else if i.mask.z then 0 else (s.vreg i.dest).extractLsb' (32 * j) 32 := by
  rw [exec_eq_execForm] at h
  obtain ⟨-, -, bits, hb, -, hdone⟩ := execForm_eq_next h
  have hlane : fieldAt 32 (t.vreg i.dest) j = destLane i.mask bits (s.vreg i.dest) s j := by
    rcases hdone with ⟨-, -, rfl⟩ | ⟨-, rfl⟩
    · exact complete_lane s.setIE bits hj
    · exact complete_lane s bits hj
  refine hlane.trans ?_
  rw [destLane]
  by_cases hact : active s i.mask j = true
  · rw [if_pos hact, if_pos (active_iff.mp hact), srcLane_eq_sourceHalf hb hj hact]
  · rw [if_neg hact, if_neg (mt active_iff.mpr hact)]
    rfl

/-- Without a writemask every lane is converted. -/
theorem exec_lane_of_no_mask {i : Instr} {s t : State} (h : exec i s = .next t)
    (hmask : i.mask.aaa = 0) {j : Nat} (hj : j < lanes i) :
    (t.vreg i.dest).extractLsb' (32 * j) 32 = (vCvtH2s s.plat.nanConv (sourceHalf i s j)).1 := by
  rw [exec_lane h hj, if_pos (.inl hmask)]

theorem extractLsb'_eq_zero_of_lt {w a : Nat} (n : Nat) {v : BitVec w} (h : v.toNat < 2 ^ a) :
    v.extractLsb' a n = 0 := by
  apply BitVec.eq_of_toNat_eq
  simp [BitVec.extractLsb'_toNat, Nat.shiftRight_eq_div_pow, Nat.div_eq_of_lt h]

/-- Settles O20: the instruction completes, without a writemask, within the frame. -/
theorem vex128Result : Obligations.Vex128Result := by
  unfold Obligations.Vex128Result
  intro pfx dst src s i hen hts hready hw hinv
  obtain ⟨t, ht⟩ := exec_completes (i := i) hen hts hready hw (.inr hinv)
  have hlane : ∀ j < 4, (t.vreg i.dest).extractLsb' (32 * j) 32 =
      (vCvtH2s s.plat.nanConv (sourceHalf i s j)).1 := fun j hj => exec_lane_of_no_mask ht rfl hj
  exact ⟨t, ht, hlane 0 (by decide), hlane 1 (by decide), hlane 2 (by decide), hlane 3 (by decide),
    extractLsb'_eq_zero_of_lt _ (exec_dest_lt ht), exec_frame ht⟩

/-- Settles O21, as `vex128Result` with eight lanes. -/
theorem vex256Result : Obligations.Vex256Result := by
  unfold Obligations.Vex256Result
  intro pfx dst src s i hen hts hready hw hinv
  obtain ⟨t, ht⟩ := exec_completes (i := i) hen hts hready hw (.inr hinv)
  exact ⟨t, ht, fun j hj => exec_lane_of_no_mask ht rfl hj,
    extractLsb'_eq_zero_of_lt _ (exec_dest_lt ht), exec_frame ht⟩

/-- Settles O22: the three forms differ in their number of lanes only. -/
theorem evexResults : Obligations.EvexResults := by
  unfold Obligations.EvexResults
  intro pfx dst src mask s i n hi hen hts hready hw hinv
  obtain ⟨t, ht⟩ := exec_completes hen hts hready hw (.inr hinv)
  obtain ⟨rfl, rfl, rfl⟩ : lanes i = n ∧ i.dest = dst ∧ i.mask = mask := by
    rcases hi with ⟨rfl, rfl⟩ | ⟨rfl, rfl⟩ | ⟨rfl, rfl⟩ <;> exact ⟨rfl, rfl, rfl⟩
  exact ⟨t, ht, fun j hj => exec_lane ht hj, exec_dest_lt ht, exec_frame ht⟩

/-- Settles O23: a register source is always ready, and under suppression nothing stops the
instruction. -/
theorem saeResult : Obligations.SaeResult := by
  unfold Obligations.SaeResult
  intro pfx dst src mask s i hen hts hw
  obtain ⟨t, ht⟩ := exec_completes (i := i) hen hts trivial hw (.inl rfl)
  obtain ⟨-, -, hquiet, -⟩ := exec_frame ht
  exact ⟨t, ht, fun j hj => exec_lane ht hj, hquiet (.inl rfl), exec_frame ht⟩

/-- Settles O24: the destination is below 2^VL. -/
theorem upperBitsZeroed : Obligations.UpperBitsZeroed := by
  unfold Obligations.UpperBitsZeroed
  intro i s t h n hn
  have hvl : vectorLength i.form ≤ n := by cases i <;> exact hn
  exact Nat.testBit_lt_two_pow ((exec_dest_lt h).trans_le (Nat.pow_le_pow_right (by decide) hvl))

/-! ### What a fault changes (R95, R104, R105) -/

/-- Settles O34: recognition changes nothing, a source read records CR2, and an unmasked Invalid sets
IE. -/
theorem faultWriteSet : Obligations.FaultWriteSet := by
  unfold Obligations.FaultWriteSet
  intro i s t x h
  rw [exec_eq_execForm] at h
  rcases execForm_eq_fault h with ⟨-, rfl⟩ | ⟨-, hread | ⟨bits, hb, hinv, -, rfl, rfl⟩⟩
  · exact .inl rfl
  · obtain ⟨-, -, -, rfl | ⟨code, addr, rfl, rfl⟩⟩ := readSource_eq_fault hread
    · by_cases hpf : ∃ code addr, x = .pf code addr
      · obtain ⟨code, addr, rfl⟩ := hpf
        exact .inr (.inr ⟨code, addr, rfl, .inl rfl⟩)
      · exact .inl (record_eq_self s fun code addr hx => hpf ⟨code, addr, hx⟩)
    · exact .inr (.inr ⟨code, addr, rfl, .inr rfl⟩)
  · refine .inr (.inl ⟨rfl, ?_, (invalid_iff hb).mp hinv⟩)
    unfold invalidException
    split_ifs
    · exact .inl rfl
    · exact .inr rfl

/-! ### What a register form does not read (R95, R112) -/

/-- The state with other general registers, segments, memory, privilege level and platform. -/
def withEnvironment (x : Vector Word 16) (segs : SegFile) (mem : Memory) (cpl : BitVec 2)
    (plat : Platform) (s : State) : State :=
  { s with x := x, segs := segs, mem := mem, cpl := cpl, plat := plat }

section
variable {i : Instr} {s : State} {n : BitVec 5} {x : Vector Word 16} {segs : SegFile} {mem : Memory}
  {cpl : BitVec 2} {plat : Platform}

theorem answersAlike_withEnvironment (hsrc : i.source = .reg n)
    (hp : plat.nanConv = s.plat.nanConv) :
    AnswersAlike i s (withEnvironment x segs mem cpl plat s) where
  lanesAlike := ⟨fun _ _ => rfl, hp⟩
  recognised_eq := rfl
  mode_eq := rfl
  unwritten_eq := rfl
  im_eq := rfl
  readSource_eq _ h := by rw [hsrc] at h ⊢; exact h

theorem complete_withEnvironment (bits : Packed) (hp : plat.nanConv = s.plat.nanConv) :
    complete i.form i.len i.dest i.mask bits (withEnvironment x segs mem cpl plat s) =
      withEnvironment x segs mem cpl plat (complete i.form i.len i.dest i.mask bits s) := by
  have hl : LanesAlike i.form i.mask s (withEnvironment x segs mem cpl plat s) :=
    ⟨fun _ _ => rfl, hp⟩
  rw [complete_eq, complete_eq, destValue_congr hl]
  rfl

end

/-- Settles O46: with a register source the other environment answers alike, and a completion keeps
it. -/
theorem registerFormReadsNoMemory : Obligations.RegisterFormReadsNoMemory := by
  unfold Obligations.RegisterFormReadsNoMemory
  intro i s t n x segs mem cpl plat hsrc hp ht
  obtain ⟨bits, ⟨rfl, hexec⟩ | ⟨rfl, hexec⟩⟩ := exec_of_answersAlike
    (answersAlike_withEnvironment (x := x) (segs := segs) (mem := mem) (cpl := cpl) hsrc hp) ht
  · exact hexec.trans (congrArg _ (complete_withEnvironment (s := s.setIE) bits hp))
  · exact hexec.trans (congrArg _ (complete_withEnvironment bits hp))

/-! ### What of MXCSR is not consulted (R84) -/

/-- An outcome with its state, kept or faulted, mapped by `g`, and its value by `v`. -/
def mapOutcome {α : Type} (g : State → State) (v : α → α) :
    Host.Outcome α Fault Refusal → Host.Outcome α Fault Refusal
  | .next a => .next (v a)
  | .fault (.exception x t) => .fault (.exception x (g t))
  | .fault (.unwritten r t) => .fault (.unwritten r (g t))
  | .refused q => .refused q

/-- The state with another MXCSR, made from its own. -/
def mapMxcsr (φ : BitVec 32 → BitVec 32) (s : State) : State := { s with mxcsr := φ s.mxcsr }

/-- Parts that commute with a map commute in sequence. -/
theorem andThen_mapOutcome {α β : Type} {g : State → State} {v : α → α} {w : β → β}
    {f f' : α → Host.Outcome β Fault Refusal} (o : Host.Outcome α Fault Refusal)
    (hf : ∀ a, f' (v a) = mapOutcome g w (f a)) :
    andThen (mapOutcome g v o) f' = mapOutcome g w (andThen o f) := by
  cases o with
  | next a => exact hf a
  | fault q => cases q <;> rfl
  | refused q => rfl

section
variable (φ : BitVec 32 → BitVec 32) (s : State)

theorem raise_mapMxcsr {α : Type} (v : α → α) (x : Exception) :
    raise x (mapMxcsr φ s) = mapOutcome (mapMxcsr φ) v (raise x s) := by
  cases x <;> rfl

theorem requireWritten_mapMxcsr (rs : List Reg) :
    requireWritten rs (mapMxcsr φ s) = mapOutcome (mapMxcsr φ) id (requireWritten rs s) := by
  have hu : (mapMxcsr φ s).unwritten = s.unwritten := rfl
  rw [requireWritten, requireWritten, hu]
  cases rs.find? s.unwritten.contains <;> rfl

theorem report_mapMxcsr (cs : List Check) :
    report cs (mapMxcsr φ s) = mapOutcome (mapMxcsr φ) id (report cs s) := by
  rw [report, report]
  cases cs.find? (· != .ok) with
  | none => rfl
  | some c =>
    cases c with
    | ok => rfl
    | refuse => rfl
    | exc x =>
      cases x with
      | pf code addr =>
        simp only [raisePageFault]
        split_ifs <;> rfl
      | db | ud | nm | ss | gp | ac | xm => rfl

theorem readSource_mapMxcsr (f : Form) (len : Nat) (pfx : List LegacyPrefix) (src : Operand 5)
    (mask : Mask) :
    readSource f len pfx src mask (mapMxcsr φ s) =
      mapOutcome (mapMxcsr φ) id (readSource f len pfx src mask s) := by
  cases src with
  | reg n => rfl
  | mem o =>
    have hread (r : MemRef) (n : Nat) (act : Nat → Bool) :
        memRead r n act (mapMxcsr φ s) = mapOutcome (mapMxcsr φ) id (memRead r n act s) := by
      rw [memRead, memRead]
      split_ifs
      · rfl
      · exact (congrArg (andThen · _) (report_mapMxcsr φ s _)).trans
          (andThen_mapOutcome _ fun _ => rfl)
    exact hread _ _ _

variable {φ} (hie : ∀ m, φ (m ||| 1) = φ m ||| 1) (him : ∀ m, (φ m).getLsbD 7 = m.getLsbD 7)
include hie him

theorem convertLanes_mapMxcsr (f : Form) (len : Nat) (dst : BitVec 5) (mask : Mask) (sae : Bool)
    (bits : Packed) :
    convertLanes f len dst mask sae bits (mapMxcsr φ s) =
      mapOutcome (mapMxcsr φ) (mapMxcsr φ) (convertLanes f len dst mask sae bits s) := by
  have hinv : anyInvalid f mask bits (mapMxcsr φ s) = anyInvalid f mask bits s := rfl
  have hmasked : (mapMxcsr φ s).im = s.im := him s.mxcsr
  have hset : (mapMxcsr φ s).setIE = mapMxcsr φ s.setIE :=
    congrArg (fun m => { s with mxcsr := m }) (hie s.mxcsr).symm
  rw [convertLanes, convertLanes, hinv, hmasked, hset]
  split_ifs
  · rfl
  · exact raise_mapMxcsr φ s.setIE _ _
  · rfl

/-- An execution commutes with a change of MXCSR that neither the setting of IE nor the reading of IM
sees. -/
theorem exec_mapMxcsr (i : Instr) :
    exec i (mapMxcsr φ s) = mapOutcome (mapMxcsr φ) (mapMxcsr φ) (exec i s) := by
  have halike : AnswersAlike i s (mapMxcsr φ s) := answersAlike_mxcsr i (him s.mxcsr)
  rw [exec_eq_execForm, exec_eq_execForm, execForm, execForm, halike.recognised_eq]
  cases recognised i.form s with
  | some x => exact raise_mapMxcsr φ s _ x
  | none =>
    simp only [halike.mode_eq, requireWritten_mapMxcsr, readSource_mapMxcsr,
      resultRegs_congr halike.lanesAlike halike.im_eq, convertLanes_mapMxcsr s hie him]
    exact andThen_mapOutcome _ fun _ => andThen_mapOutcome _ fun _ =>
      andThen_mapOutcome _ fun _ => rfl

end

theorem or_one_xor {m : BitVec 32} (hm : m.getLsbD 0 = false) (v : BitVec 32) :
    (v ||| 1) ^^^ m = (v ^^^ m) ||| 1 := by
  apply BitVec.eq_of_getLsbD_eq
  intro i hi
  rw [BitVec.getLsbD_xor, BitVec.getLsbD_or, BitVec.getLsbD_or, BitVec.getLsbD_xor]
  by_cases hzero : i = 0
  · rw [hzero, hm, Bool.xor_false, Bool.xor_false]
  · simp [hzero]

/-- Flipping bits of MXCSR other than IE and IM commutes with every execution. -/
theorem exec_xor_mxcsr (i : Instr) (s : State) {m : BitVec 32} (hie : m.getLsbD 0 = false)
    (him : m.getLsbD 7 = false) :
    exec i (mapMxcsr (· ^^^ m) s) =
      mapOutcome (mapMxcsr (· ^^^ m)) (mapMxcsr (· ^^^ m)) (exec i s) :=
  exec_mapMxcsr s (or_one_xor hie) (fun v => by rw [BitVec.getLsbD_xor, him, Bool.xor_false]) i

/-- No execution changes MXCSR.DE. -/
theorem exec_keeps_de {i : Instr} {s t : State} {x : Exception}
    (h : exec i s = .next t ∨ exec i s = .fault (.exception x t)) :
    t.mxcsr.getLsbD 1 = s.mxcsr.getLsbD 1 := by
  have hset : (s.mxcsr ||| 1).getLsbD 1 = s.mxcsr.getLsbD 1 := by simp
  rcases h with h | h
  · rcases mxcsr_of_frame (exec_frame h) with hm | ⟨hm, -⟩
    · rw [hm]
    · rw [hm, hset]
  · rcases faultWriteSet i s t x h with rfl | ⟨rfl, -⟩ | ⟨code, addr, -, rfl | rfl⟩
    · rfl
    · exact hset
    · rfl
    · rfl

end Sys2Proof.Proofs
end

section
/-!
PROOFS. The conversion of one lane (40_vcvtph2ps.md R80 to R85): the fields of what R82 makes of each
class of input, its exactness, its inverse on inputs that are not NaNs, and NaNs.
-/

namespace Sys2Proof.Proofs

open Sys2Proof.Machine

/-! ### The fields of the two formats (R80, R81) -/

theorem half_eq_append (h : Half) : h = halfSign h ++ halfExp h ++ halfFrac h := by
  apply BitVec.eq_of_getLsbD_eq
  intro i hi
  simp only [halfSign, halfExp, halfFrac, BitVec.getLsbD_append, BitVec.getLsbD_extractLsb']
  by_cases hfrac : i < 10
  · simp [hfrac]
  · by_cases hexp : i - 10 < 5
    · simp [hfrac, hexp, show 10 + (i - 10) = i by omega]
    · simp [show i = 15 by omega]

theorem half_ext {g h : Half} (hs : halfSign g = halfSign h) (he : halfExp g = halfExp h)
    (hf : halfFrac g = halfFrac h) : g = h := by
  rw [half_eq_append g, half_eq_append h, hs, he, hf]

section
variable (s : BitVec 1) (e : BitVec 8) (f : BitVec 23)

theorem single_bit (i : Nat) : (single s e f).getLsbD i =
    if i < 23 then f.getLsbD i else if i - 23 < 8 then e.getLsbD (i - 23) else s.getLsbD (i - 31) := by
  refine BitVec.getLsbD_append.trans ?_
  rw [BitVec.getLsbD_append, Nat.sub_sub]

@[simp] theorem singleExp_single : singleExp (single s e f) = e := by
  apply BitVec.eq_of_getLsbD_eq
  intro i hi
  rw [singleExp, BitVec.getLsbD_extractLsb', single_bit]
  simp [hi]

@[simp] theorem singleFrac_single : singleFrac (single s e f) = f := by
  apply BitVec.eq_of_getLsbD_eq
  intro i hi
  rw [singleFrac, BitVec.getLsbD_extractLsb', single_bit]
  simp [hi]

@[simp] theorem single_sign : (single s e f).getLsbD 31 = s.getLsbD 0 := single_bit s e f 31

@[simp] theorem single_quietBit : (single s e f).getLsbD 22 = f.getLsbD 22 := single_bit s e f 22

end

theorem halfSign_bit (h : Half) : (halfSign h).getLsbD 0 = h.getLsbD 15 := by
  simp [halfSign]

theorem halfFrac_bit (h : Half) {i : Nat} (hi : i < 10) : (halfFrac h).getLsbD i = h.getLsbD i := by
  simp [halfFrac, hi]

theorem single_inj {s s' : BitVec 1} {e e' : BitVec 8} {f f' : BitVec 23}
    (h : single s e f = single s' e' f') : s = s' ∧ e = e' ∧ f = f' := by
  refine ⟨?_, ?_, ?_⟩
  · apply BitVec.eq_of_getLsbD_eq
    intro i hi
    obtain rfl : i = 0 := by omega
    rw [← single_sign s e f, h, single_sign]
  · rw [← singleExp_single s e f, h, singleExp_single]
  · rw [← singleFrac_single s e f, h, singleFrac_single]

theorem widenFrac_toNat (f : BitVec 10) : (widenFrac f).toNat = f.toNat * 2 ^ 13 := by
  refine (BitVec.toNat_append ..).trans ?_
  rw [Nat.shiftLeft_eq]
  exact Nat.or_zero _

theorem widenFrac_bit (f : BitVec 10) (i : Nat) :
    (widenFrac f).getLsbD i = if i < 13 then false else f.getLsbD (i - 13) := by
  refine BitVec.getLsbD_append.trans ?_
  rw [show (0 : BitVec 13).getLsbD i = false from BitVec.getLsbD_zero]

/-! ### The classes of an input (R80) and what becomes of each (R82) -/

/-- The classes of an input: zero, denormal, normal, infinity and NaN. -/
theorem half_cases (h : Half) :
    (halfExp h = 0 ∧ halfFrac h = 0) ∨ (halfExp h = 0 ∧ halfFrac h ≠ 0) ∨
      (halfExp h ≠ 0 ∧ halfExp h ≠ 31) ∨ (halfExp h = 31 ∧ halfFrac h = 0) ∨ isNaN16 h = true := by
  simp only [isNaN16, Bool.and_eq_true, beq_iff_eq, bne_iff_ne]
  tauto

theorem isNaN16_iff {h : Half} : isNaN16 h = true ↔ halfExp h = 31 ∧ halfFrac h ≠ 0 := by
  simp [isNaN16]

theorem isDenormal16_iff {h : Half} : isDenormal16 h = true ↔ halfExp h = 0 ∧ halfFrac h ≠ 0 := by
  simp [isDenormal16]

section
variable {nan : Half → Single} {h : Half}

theorem convertWith_zero (he : halfExp h = 0) (hf : halfFrac h = 0) :
    convertWith nan h = single (halfSign h) 0 0 := by
  rw [convertWith, if_pos he, if_pos hf]

theorem convertWith_denormal (he : halfExp h = 0) (hf : halfFrac h ≠ 0) :
    convertWith nan h = convertDenormal (halfSign h) (halfFrac h) := by
  rw [convertWith, if_pos he, if_neg hf]

theorem convertWith_normal (he : halfExp h ≠ 0) (he' : halfExp h ≠ 31) :
    convertWith nan h = convertNormal (halfSign h) (halfExp h) (halfFrac h) := by
  rw [convertWith, if_neg he, if_pos he']

theorem convertWith_infinity (he : halfExp h = 31) (hf : halfFrac h = 0) :
    convertWith nan h = single (halfSign h) 255 0 := by
  rw [convertWith, if_neg (by rw [he]; decide), if_neg (not_not.mpr he), if_pos hf]

theorem convertWith_nan (hn : isNaN16 h = true) : convertWith nan h = nan h := by
  obtain ⟨he, hf⟩ := isNaN16_iff.mp hn
  rw [convertWith, if_neg (by rw [he]; decide), if_neg (not_not.mpr he), if_neg hf]

end

/-- The treatment of NaNs matters for NaNs only. -/
theorem convertWith_congr_nan {nan nan' : Half → Single} {h : Half} (hn : isNaN16 h = false) :
    convertWith nan h = convertWith nan' h := by
  rcases half_cases h with ⟨he, hf⟩ | ⟨he, hf⟩ | ⟨he, he'⟩ | ⟨he, hf⟩ | hnan
  · rw [convertWith_zero he hf, convertWith_zero he hf]
  · rw [convertWith_denormal he hf, convertWith_denormal he hf]
  · rw [convertWith_normal he he', convertWith_normal he he']
  · rw [convertWith_infinity he hf, convertWith_infinity he hf]
  · exact absurd (hnan.symm.trans hn) (by decide)

/-- The highest set bit of a fraction that is not 0 bounds the fraction from both sides. -/
theorem highBit_bounds {f : BitVec 10} (hf : f ≠ 0) :
    highBit f ≤ 9 ∧ 2 ^ highBit f ≤ f.toNat ∧ f.toNat < 2 ^ (highBit f + 1) := by
  have hpos : f.toNat ≠ 0 := fun h0 => hf (BitVec.eq_of_toNat_eq h0)
  refine ⟨?_, Nat.log2_self_le hpos, Nat.lt_log2_self⟩
  exact Nat.lt_succ_iff.mp ((Nat.log2_lt hpos).mpr f.isLt)

theorem denormalExp_toNat {f : BitVec 10} (hf : f ≠ 0) :
    (BitVec.ofNat 8 (103 + highBit f)).toNat = 103 + highBit f := by
  obtain ⟨hp, -, -⟩ := highBit_bounds hf
  rw [BitVec.toNat_ofNat]
  omega

/-- A denormal's leading one moves to bit 23 and out of the fraction field. -/
theorem denormalFrac_toNat {f : BitVec 10} (hf : f ≠ 0) :
    2 ^ 23 + (f.setWidth 23 <<< (23 - highBit f)).toNat = f.toNat * 2 ^ (23 - highBit f) := by
  obtain ⟨hp, hlow, hhigh⟩ := highBit_bounds hf
  have hone : 2 ^ highBit f * 2 ^ (23 - highBit f) = 2 ^ 23 := by
    rw [← pow_add, show highBit f + (23 - highBit f) = 23 by omega]
  have hlow' : 2 ^ 23 ≤ f.toNat * 2 ^ (23 - highBit f) :=
    hone ▸ Nat.mul_le_mul_right _ hlow
  have hhigh' : f.toNat * 2 ^ (23 - highBit f) < 2 * 2 ^ 23 := by
    calc f.toNat * 2 ^ (23 - highBit f)
        < 2 ^ (highBit f + 1) * 2 ^ (23 - highBit f) :=
          Nat.mul_lt_mul_of_pos_right hhigh (Nat.two_pow_pos _)
      _ = 2 * 2 ^ 23 := by rw [pow_succ, ← hone]; ring
  have hwide : (f.setWidth 23).toNat = f.toNat := by
    rw [BitVec.toNat_setWidth, Nat.mod_eq_of_lt (by omega)]
  rw [BitVec.toNat_shiftLeft, hwide, Nat.shiftLeft_eq]
  omega

/-- Re-biasing a normal exponent does not wrap. -/
theorem normalExp_toNat (e : BitVec 5) :
    (e.setWidth 8 + 112).toNat = e.toNat + 112 := by
  have hlt := e.isLt
  have h112 : (112 : BitVec 8).toNat = 112 := rfl
  rw [BitVec.toNat_add, BitVec.toNat_setWidth, h112]
  omega

/-! ### Exactness (R82, R84) -/

/-- The value of a finite single times 2^149, without its sign. -/
def magnitude (e : BitVec 8) (f : BitVec 23) : Int :=
  if e = 0 then (f.toNat : Int) else (2 ^ 23 + f.toNat : Int) * 2 ^ (e.toNat - 1)

theorem singleValue_single (s : BitVec 1) (e : BitVec 8) (f : BitVec 23) :
    singleValue (single s e f) = (if s.getLsbD 0 then -1 else 1) * magnitude e f := by
  rw [singleValue, singleExp_single, singleFrac_single, single_sign, magnitude]

/-- The leading one of a denormal stands for what its exponent field says. -/
theorem magnitude_denormal {f : BitVec 10} (hf : f ≠ 0) :
    magnitude (BitVec.ofNat 8 (103 + highBit f)) (f.setWidth 23 <<< (23 - highBit f)) =
      f.toNat * 2 ^ 125 := by
  obtain ⟨hp, -, -⟩ := highBit_bounds hf
  have hexp := denormalExp_toNat hf
  have hne : BitVec.ofNat 8 (103 + highBit f) ≠ 0 := by
    rw [ne_eq, ← BitVec.toNat_inj, hexp]
    change 103 + highBit f ≠ 0
    omega
  have hfrac : (2 ^ 23 + (f.setWidth 23 <<< (23 - highBit f)).toNat : Int) =
      f.toNat * 2 ^ (23 - highBit f) := mod_cast denormalFrac_toNat hf
  rw [magnitude, if_neg hne, hexp, hfrac, mul_assoc, ← pow_add,
    show 23 - highBit f + (103 + highBit f - 1) = 125 by omega]

theorem magnitude_normal {e : BitVec 5} (he : e ≠ 0) (f : BitVec 10) :
    magnitude (e.setWidth 8 + 112) (widenFrac f) =
      (1024 + f.toNat) * 2 ^ (e.toNat - 1) * 2 ^ 125 := by
  have hpos : e.toNat ≠ 0 := fun h0 => he (BitVec.eq_of_toNat_eq h0)
  have hexp := normalExp_toNat e
  have hne : e.setWidth 8 + 112 ≠ 0 := by
    rw [ne_eq, ← BitVec.toNat_inj, hexp]
    exact Nat.succ_ne_zero _
  rw [magnitude, if_neg hne, hexp, widenFrac_toNat,
    show e.toNat + 112 - 1 = (e.toNat - 1) + 112 by omega, pow_add]
  push_cast
  ring

/-- A finite input becomes a single of its sign and of its value (R82). -/
theorem singleValue_convertWith {nan : Half → Single} {h : Half} (hfin : halfExp h ≠ 31) :
    singleValue (convertWith nan h) = halfValue h * 2 ^ 125 := by
  rcases half_cases h with ⟨he, hf⟩ | ⟨he, hf⟩ | ⟨he, he'⟩ | ⟨he, hf⟩ | hnan
  · rw [convertWith_zero he hf, singleValue_single, halfValue, if_pos he, hf]
    simp [magnitude]
  · rw [convertWith_denormal he hf, convertDenormal, singleValue_single, magnitude_denormal hf,
      halfValue, if_pos he, halfSign_bit, mul_assoc]
  · rw [convertWith_normal he he', convertNormal, singleValue_single, magnitude_normal he,
      halfValue, if_neg he, halfSign_bit, mul_assoc, mul_assoc, mul_assoc]
  · exact absurd he hfin
  · exact absurd (isNaN16_iff.mp hnan).1 hfin

/-- An input that is no NaN keeps its sign. -/
theorem convertWith_sign {nan : Half → Single} {h : Half} (hn : isNaN16 h = false) :
    (convertWith nan h).getLsbD 31 = h.getLsbD 15 := by
  rw [← halfSign_bit]
  rcases half_cases h with ⟨he, hf⟩ | ⟨he, hf⟩ | ⟨he, he'⟩ | ⟨he, hf⟩ | hnan
  · rw [convertWith_zero he hf, single_sign]
  · rw [convertWith_denormal he hf, convertDenormal, single_sign]
  · rw [convertWith_normal he he', convertNormal, single_sign]
  · rw [convertWith_infinity he hf, single_sign]
  · exact absurd (hnan.symm.trans hn) (by decide)

theorem not_nan_of_finite {h : Half} (hfin : halfExp h ≠ 31) : isNaN16 h = false :=
  Bool.eq_false_iff.mpr fun hn => hfin (isNaN16_iff.mp hn).1

theorem isSNaN16_of_not_nan {h : Half} (hn : isNaN16 h = false) : isSNaN16 h = false := by
  rw [isSNaN16, hn, Bool.false_and]

theorem single_infinity (s : BitVec 1) :
    single s 255 0 = if s.getLsbD 0 then 0xFF800000 else 0x7F800000 := by
  revert s; decide

/-- Settles O25: value, sign and infinities class by class; an input that is no NaN meets no treatment
of NaNs. -/
theorem conversionExact : Obligations.ConversionExact := by
  unfold Obligations.ConversionExact
  intro nan c h
  refine ⟨fun hfin => ⟨singleValue_convertWith hfin, convertWith_sign (not_nan_of_finite hfin)⟩,
    fun he hf => ?_, fun hn => ?_⟩
  · rw [convertWith_infinity he hf, single_infinity, halfSign_bit]
  · rw [vCvtH2s, convertWith_congr_nan (nan' := nan) hn, isSNaN16_of_not_nan hn]

/-- A denormal input becomes a normal single, with exponent field 103 to 112. -/
theorem convertWith_denormal_exp {nan : Half → Single} {h : Half} (hd : isDenormal16 h = true) :
    103 ≤ (singleExp (convertWith nan h)).toNat ∧ (singleExp (convertWith nan h)).toNat ≤ 112 := by
  obtain ⟨he, hf⟩ := isDenormal16_iff.mp hd
  obtain ⟨hp, -, -⟩ := highBit_bounds hf
  rw [convertWith_denormal he hf, convertDenormal, singleExp_single, denormalExp_toNat hf]
  omega

/-- Settles O27: a denormal input is finite; DAZ and DM are neither IE nor IM. -/
theorem denormalInputs : Obligations.DenormalInputs := by
  unfold Obligations.DenormalInputs
  refine ⟨fun c h hd => ?_, fun i s t x m hm => ?_, fun i s t x h => exec_keeps_de h⟩
  · have hfin : halfExp h ≠ 31 := by
      rw [(isDenormal16_iff.mp hd).1]
      decide
    obtain ⟨hlow, hhigh⟩ := convertWith_denormal_exp (nan := nanConv c) hd
    exact ⟨hlow, hhigh, singleValue_convertWith hfin, isSNaN16_of_not_nan (not_nan_of_finite hfin)⟩
  · obtain ⟨hie, him⟩ : m.getLsbD 0 = false ∧ m.getLsbD 7 = false := by
      rcases hm with rfl | rfl <;> decide
    have hflip := exec_xor_mxcsr i s hie him
    constructor <;> intro h <;> rw [h] at hflip <;> exact hflip

/-! ### Injectivity (R85) -/

/-- The exponent field of the half that a single comes from, where that half is no NaN. -/
def narrowExp (e : BitVec 8) : BitVec 5 := BitVec.ofNat 5 (if e = 255 then 31 else e.toNat - 112)

/-- The fraction of that half: with exponent field 103 to 112 the half is denormal, and its leading one
comes back. -/
def narrowFrac (e : BitVec 8) (f : BitVec 23) : BitVec 10 :=
  BitVec.ofNat 10 (if 103 ≤ e.toNat ∧ e.toNat ≤ 112 then
    (2 ^ 23 + f.toNat) / 2 ^ (126 - e.toNat) else f.toNat / 2 ^ 13)

theorem narrow_denormal {f : BitVec 10} (hf : f ≠ 0) :
    narrowExp (BitVec.ofNat 8 (103 + highBit f)) = 0 ∧
      narrowFrac (BitVec.ofNat 8 (103 + highBit f)) (f.setWidth 23 <<< (23 - highBit f)) = f := by
  obtain ⟨hp, -, -⟩ := highBit_bounds hf
  have hexp := denormalExp_toNat hf
  have hne : BitVec.ofNat 8 (103 + highBit f) ≠ 255 := by
    rw [ne_eq, ← BitVec.toNat_inj, hexp]
    change 103 + highBit f ≠ 255
    omega
  constructor
  · rw [narrowExp, if_neg hne, hexp, show 103 + highBit f - 112 = 0 by omega]
    rfl
  · rw [narrowFrac, hexp, if_pos (by omega), denormalFrac_toNat hf,
      show 126 - (103 + highBit f) = 23 - highBit f by omega,
      Nat.mul_div_cancel _ (Nat.two_pow_pos _), BitVec.ofNat_toNat, BitVec.setWidth_eq]

theorem narrow_normal {e : BitVec 5} (he : e ≠ 0) (f : BitVec 10) :
    narrowExp (e.setWidth 8 + 112) = e ∧ narrowFrac (e.setWidth 8 + 112) (widenFrac f) = f := by
  have hpos : e.toNat ≠ 0 := fun h0 => he (BitVec.eq_of_toNat_eq h0)
  have hlt := e.isLt
  have hexp := normalExp_toNat e
  have hne : e.setWidth 8 + 112 ≠ 255 := by
    rw [ne_eq, ← BitVec.toNat_inj, hexp]
    change e.toNat + 112 ≠ 255
    omega
  constructor
  · rw [narrowExp, if_neg hne, hexp, Nat.add_sub_cancel, BitVec.ofNat_toNat, BitVec.setWidth_eq]
  · rw [narrowFrac, hexp, if_neg (by omega), widenFrac_toNat,
      Nat.mul_div_cancel _ (Nat.two_pow_pos _), BitVec.ofNat_toNat, BitVec.setWidth_eq]

/-- The exponent and the fraction of an input that is no NaN are read off its result. -/
theorem narrow_convertWith {nan : Half → Single} {h : Half} (hn : isNaN16 h = false) :
    narrowExp (singleExp (convertWith nan h)) = halfExp h ∧
      narrowFrac (singleExp (convertWith nan h)) (singleFrac (convertWith nan h)) = halfFrac h := by
  rcases half_cases h with ⟨he, hf⟩ | ⟨he, hf⟩ | ⟨he, he'⟩ | ⟨he, hf⟩ | hnan
  · rw [convertWith_zero he hf, singleExp_single, singleFrac_single, he, hf]
    decide
  · rw [convertWith_denormal he hf, convertDenormal, singleExp_single, singleFrac_single, he]
    exact narrow_denormal hf
  · rw [convertWith_normal he he', convertNormal, singleExp_single, singleFrac_single]
    exact narrow_normal he _
  · rw [convertWith_infinity he hf, singleExp_single, singleFrac_single, he, hf]
    decide
  · exact absurd (hnan.symm.trans hn) (by decide)

theorem halfSign_eq_of_bit {g h : Half} (hbit : g.getLsbD 15 = h.getLsbD 15) :
    halfSign g = halfSign h := by
  apply BitVec.eq_of_getLsbD_eq
  intro i hi
  obtain rfl : i = 0 := by omega
  rw [halfSign_bit, halfSign_bit, hbit]

/-- The three fields of an input that is no NaN are read off its result. -/
theorem convertWith_inj {nan : Half → Single} {g h : Half} (hg : isNaN16 g = false)
    (hh : isNaN16 h = false) (heq : convertWith nan g = convertWith nan h) : g = h := by
  obtain ⟨hexpg, hfracg⟩ := narrow_convertWith (nan := nan) hg
  obtain ⟨hexph, hfrach⟩ := narrow_convertWith (nan := nan) hh
  have hsign : g.getLsbD 15 = h.getLsbD 15 := by
    rw [← convertWith_sign (nan := nan) hg, heq, convertWith_sign hh]
  exact half_ext (halfSign_eq_of_bit hsign) (by rw [← hexpg, heq, hexph])
    (by rw [← hfracg, heq, hfrach])

/-! ### NaNs (R83) -/

/-- The fraction of a quieted NaN: the payload at the top, and the quiet bit. -/
theorem quietFrac_bit (f : BitVec 10) {i : Nat} (hi : i < 23) :
    (widenFrac f ||| 0x400000).getLsbD i =
      if i < 13 then false else (f.getLsbD (i - 13) || decide (i - 13 = 9)) := by
  rw [BitVec.getLsbD_or, widenFrac_bit,
    show (0x400000 : BitVec 23) = BitVec.twoPow 23 22 from rfl, BitVec.getLsbD_twoPow]
  split_ifs with hlow
  · simp [show 22 ≠ i by omega]
  · simp [show 22 = i ↔ i - 13 = 9 by omega]

/-- Two payloads that agree but for the quiet bit are quieted alike. -/
theorem quietFrac_congr {f g : BitVec 10} (h : ∀ i < 10, i ≠ 9 → f.getLsbD i = g.getLsbD i) :
    widenFrac f ||| 0x400000 = widenFrac g ||| 0x400000 := by
  apply BitVec.eq_of_getLsbD_eq
  intro i hi
  rw [quietFrac_bit f hi, quietFrac_bit g hi]
  by_cases hq : i - 13 = 9
  · simp [hq]
  · rw [h (i - 13) (by omega) hq]

/-- A quiet payload is unchanged by quieting. -/
theorem quietFrac_of_quiet {f : BitVec 10} (h : f.getLsbD 9 = true) :
    widenFrac f ||| 0x400000 = widenFrac f := by
  apply BitVec.eq_of_getLsbD_eq
  intro i hi
  rw [quietFrac_bit f hi, widenFrac_bit]
  by_cases hq : i - 13 = 9
  · simp [hq, h]
  · simp [hq]

theorem isQNaN32_quietNaN (h : Half) : isQNaN32 (quietNaN h) = true := by
  rw [isQNaN32, quietNaN, singleExp_single, single_quietBit, quietFrac_bit _ (by decide)]
  simp

/-- Every configured NaN has the two properties of D12. -/
theorem nanConv_spec (c : List (Half × Single)) (h : Half) :
    isQNaN32 (nanConv c h) = true ∧ (nanConv c h).getLsbD 31 = h.getLsbD 15 := by
  unfold nanConv
  split
  · next p hp =>
    have hfound := List.find?_some hp
    simp only [Bool.and_eq_true, beq_iff_eq] at hfound
    obtain ⟨⟨-, hquiet⟩, hsign⟩ := hfound
    exact ⟨hquiet, hsign⟩
  · exact ⟨isQNaN32_quietNaN h, by rw [quietNaN, single_sign, halfSign_bit]⟩

/-- With nothing configured a NaN becomes what R83 says. -/
theorem vCvtH2s_nil {h : Half} (hn : isNaN16 h = true) :
    vCvtH2s [] h = (quietNaN h, !h.getLsbD 9) := by
  rw [vCvtH2s, convertWith_nan hn, isSNaN16, hn, Bool.true_and]
  rfl

/-- A payload that is empty but for the quiet bit, and not 0, is the quiet bit. -/
theorem eq_quietBit {f : BitVec 10} (hf : f ≠ 0) (hlow : ∀ i < 9, f.getLsbD i = false) :
    f = BitVec.twoPow 10 9 := by
  have htop : f.getLsbD 9 = true := by
    by_contra hoff
    refine hf (BitVec.eq_of_getLsbD_eq fun i hi => ?_)
    by_cases h9 : i = 9
    · simpa [h9] using hoff
    · simpa using hlow i (by omega)
  apply BitVec.eq_of_getLsbD_eq
  intro i hi
  rw [BitVec.getLsbD_twoPow]
  by_cases h9 : i = 9
  · simp [h9, htop]
  · simp [hlow i (by omega), Ne.symm h9]

/-- The default NaN comes from FE00h alone: no other payload is empty but for the quiet bit. -/
theorem quietNaN_eq_default {h : Half} (hn : isNaN16 h = true) (hq : quietNaN h = 0xFFC00000) :
    h = 0xFE00 := by
  obtain ⟨he, hf⟩ := isNaN16_iff.mp hn
  obtain ⟨hsign, -, hfrac⟩ :=
    single_inj (hq.trans (show _ = single 1 255 (widenFrac 0 ||| 0x400000) from rfl))
  have hlow : ∀ i < 9, (halfFrac h).getLsbD i = false := by
    intro i hi
    have hbit := congrArg (BitVec.getLsbD · (i + 13)) hfrac
    simp only [quietFrac_bit _ (show i + 13 < 23 by omega)] at hbit
    simpa [show i ≠ 9 by omega] using hbit
  exact half_ext hsign he (eq_quietBit hf hlow)

/-- Settles O26: the configured NaNs by `nanConv_spec`, R83's own by the bits of the quieted fraction; an
input that is no NaN does not become FFC00000h, whose fields `narrow_convertWith` would read back as
those of a NaN. -/
theorem nanInputs : Obligations.NanInputs := by
  unfold Obligations.NanInputs
  intro c h
  refine ⟨fun hn => ?_, fun hn hquiet => ?_, fun hn hsig => ?_, fun heq => ?_⟩
  · obtain ⟨hquiet, hsign⟩ := nanConv_spec c h
    rw [vCvtH2s, convertWith_nan hn, isSNaN16, hn]
    exact ⟨hquiet, hsign, rfl⟩
  · rw [vCvtH2s_nil hn, hquiet, quietNaN,
      quietFrac_of_quiet ((halfFrac_bit h (by decide)).trans hquiet)]
    rfl
  · rw [vCvtH2s_nil hn, hsig]
    rfl
  · cases hn : isNaN16 h with
    | true => exact quietNaN_eq_default hn ((congrArg Prod.fst (vCvtH2s_nil hn)).symm.trans heq)
    | false =>
      have heq : convertWith (nanConv []) h = single 1 255 0x400000 := heq
      obtain ⟨hexp, hfrac⟩ := narrow_convertWith (nan := nanConv []) hn
      rw [heq, singleExp_single] at hexp hfrac
      rw [singleFrac_single] at hfrac
      have hnan : isNaN16 h = true := isNaN16_iff.mpr ⟨hexp ▸ by decide, hfrac ▸ by decide⟩
      exact absurd (hnan.symm.trans hn) (by decide)

/-- Quieting overwrites the quiet bit. -/
theorem quietNaN_xor_quietBit (h : Half) : quietNaN (h ^^^ 0x200) = quietNaN h := by
  have hsign : halfSign (h ^^^ 0x200) = halfSign h :=
    halfSign_eq_of_bit (by simp)
  rw [quietNaN, quietNaN, hsign, quietFrac_congr fun i hi hne => ?_]
  rw [halfFrac_bit _ hi, halfFrac_bit _ hi, BitVec.getLsbD_xor,
    show (0x200 : Half) = BitVec.twoPow 16 9 from rfl, BitVec.getLsbD_twoPow]
  simp [hne.symm]

/-- Settles O28: an input that is no NaN is read off its result, and quieting overwrites the quiet
bit. -/
theorem conversionInjective : Obligations.ConversionInjective := by
  unfold Obligations.ConversionInjective
  refine ⟨fun c g h hg hh heq => convertWith_inj hg hh heq, fun h hn hn' => ?_⟩
  rw [vCvtH2s_nil hn, vCvtH2s_nil hn', quietNaN_xor_quietBit]

end Sys2Proof.Proofs
end

section
/-!
PROOFS. The exceptions of 60_exceptions.md: the order of `#UD`, `#NM`, the faults of an operand's bytes
and the unmasked Invalid (R102 to R105, R107), and the debug exceptions around an instruction (R116).
-/

namespace Sys2Proof.Proofs

open Sys2Proof.Machine

/-! ### Breakpoints (R116) -/

theorem breakAt_iff {s : State} {k : BpKind} {a : Word} :
    breakAt s k a = true ↔ ∃ d ∈ s.dr.toList, d.kind = k ∧ d.addr = a := by
  simp only [breakAt, List.any_eq_true, Bool.and_eq_true, beq_iff_eq]

theorem breaksBefore_iff {s : State} (hpo : s.plat.policy = .effects) :
    breaksBefore s = true ↔
      ∃ d ∈ s.dr.toList, d.kind = .exec ∧ d.addr = linear s .cs (fetchOffset s 0) := by
  rw [breaksBefore, hpo, ← breakAt_iff]
  rfl

/-- The bytes that an instruction reads are those of its source, whatever its row. -/
theorem dataAddrs_eq_readAddrs (s : State) (i : Instr) :
    dataAddrs s i = readAddrs i.form i.len i.pfx i.mask s i.source := by
  cases i with
  | vcvtph2psVex128 _ _ src | vcvtph2psVex256 _ _ src => cases src <;> rfl
  | vcvtph2psEvex128 | vcvtph2psEvex256 | vcvtph2psEvex512 | vcvtph2psEvex512Sae => rfl

/-- The addresses that a read/write breakpoint is compared with: the checked bytes' own (R41, R116). -/
theorem mem_dataAddrs_iff {s : State} {i : Instr} {a : Word} :
    a ∈ dataAddrs s i ↔ ∃ o b, i.source = .mem o ∧ b < 2 * lanes i ∧ byteActive i s b = true ∧
      a = linear s (refOf i o s).seg ((refOf i o s).ea + b) := by
  rw [dataAddrs_eq_readAddrs]
  cases hsrc : i.source with
  | reg n => simp [readAddrs]
  | mem o =>
    simp only [readAddrs, checkedBytes, List.mem_map, List.mem_filter, List.mem_range, and_assoc]
    constructor
    · rintro ⟨b, hb, hact, rfl⟩
      exact ⟨o, b, rfl, hb, hact, rfl⟩
    · rintro ⟨o', b, ho, hb, hact, rfl⟩
      cases ho
      exact ⟨b, hb, hact, rfl⟩

/-- A trap is due with single-step on, or with a breakpoint on a byte that the operand reads. -/
theorem trapsAfter_iff {s : State} {i : Instr} (hpo : s.plat.policy = .effects) :
    trapsAfter s i = true ↔ s.tf = true ∨
      ∃ d ∈ s.dr.toList, d.kind = .readWrite ∧ d.addr ∈ dataAddrs s i := by
  have hpolicy : (s.plat.policy == .effects) = true := by rw [hpo]; rfl
  simp only [trapsAfter, hpolicy, Bool.true_and, Bool.or_eq_true, List.any_eq_true, breakAt_iff]
  refine or_congr_right ⟨?_, ?_⟩
  · rintro ⟨_, hmem, d, hd, hk, rfl⟩
    exact ⟨d, hd, hk, hmem⟩
  · rintro ⟨d, hd, hk, hmem⟩
    exact ⟨_, hmem, d, hd, hk, rfl⟩

/-- A completion with a trap due ends in `#DB`, its effects kept. -/
theorem debugTrap_of_traps {s t : State} {i : Instr} (h : trapsAfter s i = true) :
    debugTrap s i (.next t) = .fault (.exception .db t) := by
  rw [debugTrap, if_pos h]
  rfl

/-- Settles O57: the breakpoint is found before the instruction runs. -/
theorem instructionBreakpointFaults : Obligations.InstructionBreakpointFaults := by
  unfold Obligations.InstructionBreakpointFaults
  intro s i hpo hi hbreak
  rw [step, hi]
  exact if_pos ((breaksBefore_iff hpo).mpr hbreak)

/-- Settles O18: with no breakpoint before it, the step is the execution under `debugTrap`, and a trap is
due exactly with single-step on or a watched byte read. -/
theorem debugTrapFollowsCompletion : Obligations.DebugTrapFollowsCompletion := by
  unfold Obligations.DebugTrapFollowsCompletion
  intro s i hpo hi hexec watched
  have hbefore : breaksBefore s = false := by
    rw [Bool.eq_false_iff, ne_eq, breaksBefore_iff hpo]
    rintro ⟨d, hd, hk, ha⟩
    exact hexec d hd hk ha
  have htraps : trapsAfter s i = true ↔ s.rflags.getLsbD 8 = true ∨ watched := by
    rw [trapsAfter_iff hpo]
    simp only [mem_dataAddrs_iff]
    rfl
  constructor
  · intro hdue t ht
    rw [step, hi]
    simp only [breakFirst_of_not hbefore, ht, debugTrap_of_traps (htraps.mpr hdue)]
  · intro htf hquiet
    refine step_of_decodeAt hi hbefore ?_
    rw [Bool.eq_false_iff, ne_eq, htraps, htf]
    rintro (h | h)
    · cases h
    · exact hquiet h

/-! ### `#NM` (R102) -/

theorem recognised_eq_nm {f : Form} {s : State} :
    recognised f s = some .nm ↔ enabled f s = true ∧ s.ts = true := by
  unfold recognised
  cases enabled f s <;> cases s.ts <;> simp

/-- The fetch of a byte gives `#SS`, `#GP` or `#PF` only (R38). -/
theorem fetchCheck_eq_exc {s : State} {b : Nat} {x : Exception} (h : fetchCheck s b = .exc x) :
    x = .ss ∨ x = .gp ∨ ∃ code addr, x = .pf code addr := by
  unfold fetchCheck at h
  split at h
  · exact checkByte_eq_exc h
  · cases h

theorem invalidException_cases (s : State) : invalidException s = .xm ∨ invalidException s = .ud := by
  unfold invalidException
  split_ifs
  · exact .inl rfl
  · exact .inr rfl

/-- Of all that an execution can do, recognition alone gives `#NM`. -/
theorem ts_of_exec_eq_nm {i : Instr} {s t : State} (h : exec i s = .fault (.exception .nm t)) :
    s.ts = true := by
  rcases exec_eq_fault h with hrec | ⟨_, _, _, _, _, hcheck⟩ | hinv
  · exact (recognised_eq_nm.mp hrec).2
  · rcases checkByte_eq_exc hcheck with hx | hx | ⟨_, _, hx⟩ <;> cases hx
  · rcases invalidException_cases s with hx | hx <;> cases hinv.trans hx

/-- A step raises `#NM` only in executing a decoded instruction. -/
theorem step_eq_nm {s t : State} (h : step s = .fault (.exception .nm t)) :
    ∃ i, decodeAt s = .instr i ∧ exec i s = .fault (.exception .nm t) := by
  rcases step_eq_fault h with hx | hexec | ⟨_, hx⟩ | ⟨_, hx⟩ | ⟨_, _, hcheck⟩
  · cases hx
  · exact hexec
  · cases hx
  · cases hx
  · rcases fetchCheck_eq_exc hcheck with hx | hx | ⟨_, _, hx⟩ <;> cases hx

/-- Settles O32: recognition comes before every read and asks for the enabling conditions first. -/
theorem deviceNotAvailable : Obligations.DeviceNotAvailable := by
  unfold Obligations.DeviceNotAvailable
  refine ⟨fun i s hen hts => ?_, fun i s => exec_of_not_enabled, fun s t hinvalid h => ?_,
    fun s t hts h => ?_⟩
  · rw [exec_eq_execForm, execForm, recognised_eq_nm.mpr ⟨hen, hts⟩]
    rfl
  · obtain ⟨i, hi, _⟩ := step_eq_nm h
    cases hinvalid.symm.trans hi
  · obtain ⟨i, _, hexec⟩ := step_eq_nm h
    cases hts.symm.trans (ts_of_exec_eq_nm hexec)

/-! ### The faults of an operand's bytes (R103, R104, R107) -/

section
variable {i : Instr} {s : State} {o : MemOp} {b : Nat}

/-- A fault in the report on the operand's bytes is the instruction's: the data is not looked at. -/
theorem exec_of_report_eq_fault {q : Fault} (hsrc : i.source = .mem o)
    (hen : enabled i.form s = true) (hts : s.ts = false) (hw : OperandWritten i s) (hfits : Fits i o s)
    (hreport : report (operandChecks (refOf i o s) (2 * lanes i) (laneActive i s) s) s = .fault q) :
    exec i s = .fault q := by
  rw [exec_eq_andThen_readSource hen hts hw, readSource_mem s hsrc, memRead,
    wraps_eq_false_iff.mpr hfits, hreport]
  rfl

/-- The first byte of an active lane that is not admitted decides what the report does. -/
theorem find?_byteCheck {x : Exception} (hb : b < 2 * lanes i) (hact : byteActive i s b = true)
    (hcheck : byteCheck i o s b = .exc x)
    (hbefore : ∀ c < b, byteActive i s c = true → byteCheck i o s c = .ok) :
    (operandChecks (refOf i o s) (2 * lanes i) (laneActive i s) s).find? (· != .ok) =
      some (.exc x) := by
  rw [find?_operandChecks hb hact (fun hok => Check.noConfusion (hcheck.symm.trans hok)) hbefore]
  exact congrArg some hcheck

theorem mem_operandChecks_iff {c : Check} :
    c ∈ operandChecks (refOf i o s) (2 * lanes i) (laneActive i s) s ↔
      ∃ d < 2 * lanes i, byteActive i s d = true ∧ byteCheck i o s d = c := by
  simp only [operandChecks, checkedBytes, List.mem_map, List.mem_filter, List.mem_range, and_assoc]
  rfl

end

/-- Settles O35: the report raises the exception of the first byte that is not admitted. -/
theorem lowestSegmentFaultReported : Obligations.LowestSegmentFaultReported := by
  unfold Obligations.LowestSegmentFaultReported
  intro i s o b x hsrc hen hts hw hfits hb hact hcheck hx hbefore
  apply exec_of_report_eq_fault hsrc hen hts hw hfits
  rw [report, find?_byteCheck hb hact hcheck hbefore]
  rcases hx with rfl | rfl <;> rfl

/-- Where all the page-faulting bytes share a page, the given one is reported (R104). -/
theorem raisePageFault_of_samePage {α : Type} {code : BitVec 32} {addr : Word}
    {all : List (BitVec 32 × Word)} {s : State} (h : ∀ p ∈ all, p.2 >>> 12 = addr >>> 12) :
    (raisePageFault code addr all s : Host.Outcome α Fault Refusal) =
      .fault (.exception (.pf code addr) { s with cr2 := addr }) :=
  if_pos (List.all_eq_true.mpr fun p hp => beq_iff_eq.mpr (h p hp))

/-- Whichever byte is reported, it is with a page fault (R104, D21). -/
theorem exists_raisePageFault_eq {α : Type} (code : BitVec 32) (addr : Word)
    (all : List (BitVec 32 × Word)) (s : State) : ∃ code' addr' t,
      (raisePageFault code addr all s : Host.Outcome α Fault Refusal) =
        .fault (.exception (.pf code' addr') t) := by
  unfold raisePageFault
  split_ifs
  · exact ⟨_, _, _, rfl⟩
  · exact ⟨_, _, _, rfl⟩

/-- Settles O36: the report raises a page fault, which by `report_eq_fault` is that of a checked byte and
records its address; it makes no draw where one page faults. -/
theorem pageFaultReported : Obligations.PageFaultReported := by
  unfold Obligations.PageFaultReported
  intro i s o b code addr hsrc hen hts hw hfits hb hact hcheck hbefore
  have hfault {q : Fault} := exec_of_report_eq_fault (q := q) hsrc hen hts hw hfits
  have hraise : report (operandChecks (refOf i o s) (2 * lanes i) (laneActive i s) s) s =
      raisePageFault code addr ((operandChecks (refOf i o s) (2 * lanes i) (laneActive i s) s).filterMap
        Check.pageFault) s := by
    rw [report, find?_byteCheck hb hact hcheck hbefore]
  constructor
  · obtain ⟨code', addr', t, ht⟩ := exists_raisePageFault_eq (α := Unit) code addr _ s
    have hreport := hraise.trans ht
    obtain ⟨hmem, hstate⟩ := report_eq_fault hreport
    obtain ⟨c, hc, hactc, hcheckc⟩ := mem_operandChecks_iff.mp hmem
    refine ⟨c, code', addr', t, hc, hactc, hcheckc, hfault hreport, ?_⟩
    rcases hstate with rfl | ⟨_, _, hx, rfl⟩
    · exact ⟨rfl, rfl, rfl, rfl⟩
    · cases hx
      exact ⟨rfl, rfl, rfl, rfl⟩
  · intro hpage
    refine hfault (hraise.trans (raisePageFault_of_samePage fun p hp => ?_))
    obtain ⟨c, hmem, hpf⟩ := List.mem_filterMap.mp hp
    obtain ⟨d, hd, hactd, hcheckd⟩ := mem_operandChecks_iff.mp hmem
    exact hpage d p.1 p.2 hd hactd (hcheckd.trans (Check.pageFault_eq_some hpf))

/-! ### An unmasked Invalid (R105) -/

/-- Settles O29: the operand is read, an Invalid is found in it, and IM = 0 raises before any write. -/
theorem unmaskedInvalidFaults : Obligations.UnmaskedInvalidFaults := by
  unfold Obligations.UnmaskedInvalidFaults
  intro i s hsae hen hts hready hw hmxcsr hsig him
  obtain ⟨bits, hb⟩ := readSource_of_ready hready
  have hinv := (invalid_iff hb).mpr ⟨hsig, hsae⟩
  have him' : ¬ s.im = true := Bool.eq_false_iff.mp him
  have hresult : ∀ r ∈ resultRegs i.form i.dest i.mask i.sae bits s, r ∉ s.unwritten := by
    rw [resultRegs, if_pos hinv, if_neg him']
    exact List.forall_mem_singleton.mpr hmxcsr
  rw [exec_eq_execForm, execForm_eq_convertLanes (recognised_eq_none.mpr ⟨hen, hts⟩) hw hb hresult,
    convertLanes, if_pos hinv, if_neg him', raise, record_invalidException]
  rfl

end Sys2Proof.Proofs
end

section
/-!
PROOFS. Launch and hazards (70_reset_and_hazards.md): a register marked unwritten stops the instruction
that reads it (R121, D14), and the bytes that a launch places are the instruction that the next step runs
(R121, R122).
-/

namespace Sys2Proof.Proofs

open Sys2Proof.Machine

/-! ### The check for marked registers, register by register (R121) -/

theorem requireWritten_cons_of_mem {r : Reg} {rs : List Reg} {s : State} (h : r ∈ s.unwritten) :
    requireWritten (r :: rs) s = .fault (.unwritten r s) := by
  rw [requireWritten, List.find?_cons_of_pos (by simpa using h)]

theorem requireWritten_cons_of_not_mem {r : Reg} {rs : List Reg} {s : State} (h : r ∉ s.unwritten) :
    requireWritten (r :: rs) s = requireWritten rs s := by
  rw [requireWritten, List.find?_cons_of_neg (by simpa using h)]
  rfl

/-! ### What is read before memory is (R59 to R63, R121) -/

/-- The opmask register of a writemask is read unless aaa = 000b (R59). -/
theorem mem_maskRegs {mask : Mask} (h : mask.aaa ≠ 0) : .opmask mask.aaa ∈ maskRegs mask := by
  rw [maskRegs, if_neg h]
  exact List.mem_singleton_self _

/-- BX, BP, SI and DI are read under the values of `rm` whose combination has them (R62). -/
theorem mem_addressRegs_a16 {r : Reg} {rm : BitVec 3} {d : Disp16}
    (h : r = .gpr 3 ∧ (rm = 0 ∨ rm = 1 ∨ rm = 7) ∨ r = .gpr 5 ∧ (rm = 2 ∨ rm = 3 ∨ rm = 6) ∨
      r = .gpr 6 ∧ (rm = 0 ∨ rm = 2 ∨ rm = 4) ∨ r = .gpr 7 ∧ (rm = 1 ∨ rm = 3 ∨ rm = 5)) :
    r ∈ addressRegs (.a16 rm d) := by
  rcases h with ⟨rfl, rfl | rfl | rfl⟩ | ⟨rfl, rfl | rfl | rfl⟩ | ⟨rfl, rfl | rfl | rfl⟩ |
    ⟨rfl, rfl | rfl | rfl⟩ <;> simp [addressRegs]

/-- In M32 every segment has a base, in M64 FS and GS have (R20). -/
theorem mem_segBaseRegs {m : Mode} {g : Seg} (h : m = .m32 ∨ g = .fs ∨ g = .gs) :
    .segBase g ∈ segBaseRegs m g := by
  have hbase : ¬ (m = .m64 ∧ g ≠ .fs ∧ g ≠ .gs) := by
    rintro ⟨rfl, hfs, hgs⟩
    rcases h with h | h | h
    · cases h
    · exact hfs h
    · exact hgs h
  rw [segBaseRegs, if_neg hbase]
  exact List.mem_singleton_self _

/-- The general registers of an address are among what operand 2 reads. -/
theorem mem_sourceRegs_of_addressRegs {i : Instr} {o : MemOp} {r : Reg} (m : Mode)
    (hsrc : i.source = .mem o) (h : r ∈ addressRegs o) : r ∈ sourceRegs m i.pfx i.source := by
  rw [hsrc]
  exact List.mem_append_left _ h

/-- A marked register among those of the writemask and of operand 2 stops an enabled form before memory is
read. -/
theorem exec_of_unwritten_operand {i : Instr} {s : State} {r : Reg} (hen : enabled i.form s = true)
    (hts : s.ts = false) (hr : r ∈ maskRegs i.mask ++ sourceRegs s.mode i.pfx i.source)
    (hu : r ∈ s.unwritten) : ∃ q ∈ s.unwritten, exec i s = .fault (.unwritten q s) := by
  obtain ⟨q, hq, hstop⟩ := requireWritten_of_mem hr hu
  refine ⟨q, hq, ?_⟩
  rw [exec_eq_execForm, execForm, recognised_eq_none.mpr ⟨hen, hts⟩]
  simp only [hstop]
  rfl

/-! ### What is read after operand 2 (R86, R93, R105, R121) -/

/-- A kept lane reads the old destination, and nothing else. -/
theorem keptRegs_of_keeps {i : Instr} {s : State} (h : Keeps i s) :
    keptRegs i.form i.dest i.mask s = [.vec i.dest] := by
  have hmem := mem_keptRegs_iff.mpr ⟨h, rfl⟩
  unfold keptRegs at hmem ⊢
  split_ifs at hmem ⊢
  · rfl
  · cases hmem

/-- Once operand 2 is read, a model fault of the second check is that of the instruction. -/
theorem exec_of_unwritten_result {i : Instr} {s : State} {bits : Packed} {q : Fault}
    (hen : enabled i.form s = true) (hts : s.ts = false) (hw : OperandWritten i s)
    (hb : readSource i.form i.len i.pfx i.source i.mask s = .next bits)
    (hstop : requireWritten (resultRegs i.form i.dest i.mask i.sae bits s) s = .fault q) :
    exec i s = .fault q := by
  rw [exec_eq_andThen_readSource hen hts hw, hb]
  simp only [andThen_next, hstop]
  rfl

/-- A signalled Invalid reads MXCSR before the old destination is read. -/
theorem exec_of_unwritten_mxcsr {i : Instr} {s : State} (hen : enabled i.form s = true)
    (hts : s.ts = false) (hready : OperandReady i s) (hw : OperandWritten i s) (hsae : i.sae = false)
    (hsig : Signals i s) (hu : .mxcsr ∈ s.unwritten) : exec i s = .fault (.unwritten .mxcsr s) := by
  obtain ⟨bits, hb⟩ := readSource_of_ready hready
  refine exec_of_unwritten_result hen hts hw hb ?_
  rw [resultRegs, if_pos ((invalid_iff hb).mpr ⟨hsig, hsae⟩)]
  exact requireWritten_cons_of_mem hu

/-- Where no Invalid stops it before, the old destination is read for a kept lane. -/
theorem exec_of_unwritten_dest {i : Instr} {s : State} (hen : enabled i.form s = true)
    (hts : s.ts = false) (hready : OperandReady i s) (hw : OperandWritten i s)
    (hgoes : i.sae = true ∨ ¬ Signals i s ∨ (.mxcsr ∉ s.unwritten ∧ s.im = true)) (hkeeps : Keeps i s)
    (hu : .vec i.dest ∈ s.unwritten) : exec i s = .fault (.unwritten (.vec i.dest) s) := by
  obtain ⟨bits, hb⟩ := readSource_of_ready hready
  refine exec_of_unwritten_result hen hts hw hb ?_
  by_cases hinv : Signals i s ∧ i.sae = false
  · obtain ⟨hsig, hsae⟩ := hinv
    obtain ⟨hmxcsr, him⟩ :=
      (hgoes.resolve_left (Bool.eq_false_iff.mp hsae)).resolve_left (not_not_intro hsig)
    rw [resultRegs, if_pos ((invalid_iff hb).mpr ⟨hsig, hsae⟩), if_pos him,
      requireWritten_cons_of_not_mem hmxcsr, keptRegs_of_keeps hkeeps]
    exact requireWritten_cons_of_mem hu
  · rw [resultRegs, if_neg (mt (invalid_iff hb).mp hinv), keptRegs_of_keeps hkeeps]
    exact requireWritten_cons_of_mem hu

/-- Settles O59: each register is in the list that one of the two checks of R86's order asks about, and
both checks fault only for a marked register. -/
theorem unwrittenReadFaults : Obligations.UnwrittenReadFaults := by
  unfold Obligations.UnwrittenReadFaults
  refine ⟨?_, ?_, ?_⟩
  · intro i s r hen hts hu hread
    refine exec_of_unwritten_operand hen hts (List.mem_append.mpr ?_) hu
    have address {o : MemOp} := mem_sourceRegs_of_addressRegs (i := i) (o := o) (r := r) s.mode
    rcases hread with ⟨n, hsrc, rfl⟩ | ⟨haaa, rfl⟩ | ⟨b, d, hsrc, rfl⟩ | ⟨b, ix, d, hsrc, hreg⟩ |
      ⟨x, d, hsrc, rfl⟩ | ⟨rm, d, hsrc, hreg⟩ | ⟨o, g, hsrc, rfl, rfl, hbase⟩
    · rw [hsrc]
      exact .inr (List.mem_singleton_self _)
    · exact .inl (mem_maskRegs haaa)
    · exact .inr (address hsrc (List.mem_singleton_self _))
    · refine .inr (address hsrc ?_)
      rcases hreg with rfl | ⟨x, rfl, rfl⟩
      · exact List.mem_cons_self
      · exact List.mem_cons_of_mem _ (List.mem_singleton_self _)
    · exact .inr (address hsrc (List.mem_singleton_self _))
    · exact .inr (address hsrc (mem_addressRegs_a16 hreg))
    · rw [hsrc]
      exact .inr (List.mem_append_right _ (mem_segBaseRegs hbase))
  · intro i s hen hts hready hw
    exact ⟨exec_of_unwritten_mxcsr hen hts hready hw, exec_of_unwritten_dest hen hts hready hw⟩
  · intro i s t r h
    rw [exec_eq_execForm] at h
    exact execForm_eq_unwritten h

/-! ### Stored bytes that decode (R21, R64) -/

/-- The byte after the prefixes split off is none itself. -/
theorem not_isPrefixByte_of_splitPrefixes {m : Mode} {l t : List Byte} {x : Byte}
    (h : (splitPrefixes m l).2 = x :: t) : isPrefixByte m x = false := by
  induction l with
  | nil => cases h
  | cons b bs ih =>
    rw [splitPrefixes] at h
    split_ifs at h with hb
    · exact ih h
    · cases h
      exact Bool.eq_false_iff.mpr hb

/-- The legacy prefixes of a decoded instruction are those split off in front. -/
theorem pfx_of_decode {po : Policy} {m : Mode} {l : List Byte} {i : Instr}
    (h : decode po m l = .instr i) :
    i.pfx = (splitPrefixes m l).1.filterMap legacyOf ∧ ∃ x t, (splitPrefixes m l).2 = x :: t := by
  unfold decode at h
  cases hl : (splitPrefixes m l).2 with
  | nil => simp [hl] at h
  | cons x t =>
    simp only [hl] at h
    refine ⟨?_, x, t, rfl⟩
    split_ifs at h
    · exact (decodedFrom_of_decodeVex h).1
    · exact (decodedFrom_of_decodeEvex h).1

/-- At most `maxBody` bytes of an instruction follow its legacy prefixes (R50). -/
theorem len_le_pfx_add_maxBody (i : Instr) : i.len ≤ i.pfx.length + maxBody := by
  obtain ⟨x, body, henc, -, hbody⟩ := encode_split i
  rw [← encode_length, henc, List.length_append, List.length_map, List.length_cons, maxBody]
  omega

/-- Bytes that stand at `pc` and decode to an instruction, with more after it or not, are that instruction
to the step: its own bytes are fetched. -/
theorem decodeAt_of_stored {s : State} {l : List Byte} {i : Instr} (hst : Stored s 0 l)
    (h : decode s.plat.policy s.mode l = .instr i) : decodeAt s = .instr i := by
  obtain ⟨hwf, hle, hown⟩ := decodedIsWellFormed s.plat.policy s.mode l i h
  obtain ⟨-, hmax, -⟩ := wf_iff.mp hwf
  obtain ⟨hpfx, x, t, hx⟩ := pfx_of_decode (List.append_nil (l.take i.len) ▸ hown [])
  obtain ⟨hsplit, hpre⟩ := splitPrefixes_eq_append s.mode (l.take i.len)
  rw [hx] at hsplit
  have hstored : Stored s 0 (l.take i.len) := by
    rw [← List.take_append_drop i.len l] at hst
    exact hst.append.1
  have hlen := congrArg List.length hsplit
  rw [List.length_take, Nat.min_eq_left hle, List.length_append] at hlen
  have hbody := len_le_pfx_add_maxBody i
  have hcount := List.length_filterMap_le legacyOf (splitPrefixes s.mode (l.take i.len)).1
  rw [← hpfx] at hcount
  have hfetch := fetchBytes_of_stored (hsplit ▸ hstored) hpre (not_isPrefixByte_of_splitPrefixes hx)
    (by rw [maxLength] at hmax; rw [offsetCount]; omega) (by omega)
  rw [decodeAt, hfetch, ← hsplit, hown]

/-! ### The bytes that a launch places (R121, R122) -/

theorem read_writeAll_of_forall_ne {bs : List Byte} {j : Nat} : ∀ {m : Memory} {a : Word},
    (∀ c < bs.length, j ≠ (a + BitVec.ofNat 64 c).toNat) → (m.writeAll a bs).read j = m.read j := by
  induction bs with
  | nil => intro m a _; rfl
  | cons b bs ih =>
    intro m a h
    have hfirst : j ≠ a.toNat := by simpa using h 0 (Nat.succ_pos _)
    rw [Memory.writeAll, ih fun c hc => ?_, Memory.read_write_ne _ _ hfirst]
    have hlater := h (c + 1) (Nat.succ_lt_succ hc)
    rwa [BitVec.ofNat_add, BitVec.add_comm (BitVec.ofNat 64 c), ← BitVec.add_assoc] at hlater

/-- Bytes stored at rising addresses are read back, where they do not go around the address space. -/
theorem read_writeAll {bs : List Byte} : ∀ {m : Memory} {a : Word} {c : Nat}, m.wf = true →
    bs.length ≤ 2 ^ 64 → c < bs.length →
    bs[c]? = some ((m.writeAll a bs).read (a + BitVec.ofNat 64 c).toNat) := by
  induction bs with
  | nil => intro m a c _ _ hc; cases hc
  | cons b bs ih =>
    intro m a c hm hlen hc
    rw [List.length_cons] at hlen hc
    cases c with
    | zero =>
      rw [Memory.writeAll, read_writeAll_of_forall_ne fun d hd => ?_]
      · simp [Memory.read_write_self m a.toNat b hm]
      · bv_omega
    | succ c =>
      have hnext : a + BitVec.ofNat 64 (c + 1) = a + 1 + BitVec.ofNat 64 c := by
        rw [Nat.add_comm, BitVec.ofNat_add, ← BitVec.add_assoc]
        rfl
      rw [Memory.writeAll, hnext, List.getElem?_cons_succ]
      exact ih (Memory.wf_write m _ b a.isLt hm) (by omega) (by omega)

/-- In M64 the bytes at `pc` lie at `pc` and the addresses after it: CS has no base (R20). -/
theorem linear_fetchOffset_m64 {s : State} (h : s.mode = .m64) (b : Nat) :
    linear s .cs (fetchOffset s b) = s.pc + BitVec.ofNat 64 b := by
  have hbase : segBase s .cs = 0 := by simp [segBase, h]
  simp only [linear, fetchOffset, h, hbase, BitVec.ofNat_toNat, BitVec.setWidth_eq]
  exact BitVec.zero_add _

/-- Bytes placed at the fetch address of M64 stand there, as far as they can be fetched. -/
theorem stored_placeAtFetch {s : State} {bs : List Byte} (hmode : s.mode = .m64)
    (hmem : s.mem.wf = true) (hlen : bs.length ≤ 2 ^ 64)
    (hfetch : ∀ b < bs.length, fetchCheck (placeAtFetch s bs) b = .ok) :
    Stored (placeAtFetch s bs) 0 bs := by
  intro c hc
  rw [Nat.zero_add]
  refine ⟨hfetch c hc, ?_⟩
  have hplaced : (placeAtFetch s bs).mem = s.mem.writeAll s.pc bs := by
    rw [placeAtFetch, linear_fetchOffset_m64 hmode, BitVec.add_zero]
  rw [fetchByte, linear_fetchOffset_m64 (s := placeAtFetch s bs) hmode, placeAtFetch_pc, hplaced]
  exact read_writeAll hmem hlen hc

/-- Every breakpoint of a launched state is off. -/
theorem breakAt_launch (s : State) (bs : List Byte) {k : BpKind} (h : k ≠ .off) (a : Word) :
    breakAt (placeAtFetch (launch s) bs) k a = false := by
  rw [Bool.eq_false_iff, ne_eq, breakAt_iff]
  rintro ⟨d, hd, hk, -⟩
  have hoff : d = ⟨.off, 0⟩ := List.eq_of_mem_replicate hd
  exact h (by rw [← hk, hoff])

theorem launch_not_breaksBefore (s : State) (bs : List Byte) :
    breaksBefore (placeAtFetch (launch s) bs) = false := by
  rw [breaksBefore, breakAt_launch s bs (by decide), Bool.and_false]

/-- A launched state single-steps no instruction and watches no byte (R122). -/
theorem launch_not_trapsAfter (s : State) (bs : List Byte) (i : Instr) :
    trapsAfter (placeAtFetch (launch s) bs) i = false := by
  have htf : (placeAtFetch (launch s) bs).tf = false := by
    simp [State.tf, placeAtFetch, launch]
  have hdata : (dataAddrs (placeAtFetch (launch s) bs) i).any
      (breakAt (placeAtFetch (launch s) bs) .readWrite) = false :=
    List.any_eq_false.mpr fun a _ => Bool.eq_false_iff.mp (breakAt_launch s bs (by decide) a)
  rw [trapsAfter, htf, hdata, Bool.or_false, Bool.and_false]

theorem lowFirst_length (n : Nat) : ∀ w, (lowFirst n w).length = n := by
  induction n with
  | zero => intro w; rfl
  | succ n ih => intro w; rw [lowFirst, List.length_cons, ih]

theorem padded_length {bs : List Byte} (h : bs.length ≤ maxLength) : (padded bs).length = maxLength := by
  rw [padded, List.length_append, List.length_replicate]
  omega

/-- A table word of at most 15 bytes is placed as 15 bytes, in either numbering. -/
theorem tableBytes_length {nbits w : Nat} (h : nbits ≤ 120) :
    (tableBytes nbits w).length = maxLength := by
  have hlen : (lowFirst (nbits / 8) w).length ≤ maxLength := by
    rw [lowFirst_length, maxLength]
    omega
  unfold tableBytes
  split
  · exact padded_length hlen
  · exact padded_length (by rwa [List.length_reverse])

theorem decode_of_decodeTableWord {nbits w : Nat} {i : Instr} (h : decodeTableWord nbits w = some i) :
    decode .effects .m64 (tableBytes nbits w) = .instr i := by
  unfold decodeTableWord at h
  split at h
  · next j hj => rw [hj, Option.some.inj h]
  · cases h

/-- The longest instruction can be fetched at the reset value of `pc` in M64, whatever is placed there. -/
theorem fetchCheck_launch_reset (bs : List Byte) :
    ∀ b < maxLength, fetchCheck (placeAtFetch (launch State.reset) bs) b = .ok :=
  show ∀ b < maxLength, fetchCheck (launch State.reset) b = .ok by decide +kernel

/-- Settles O19: the word's bytes stand where the launched state fetches, they decode to the instruction,
and no debug exception is due. -/
theorem launchedWordRuns : Obligations.LaunchedWordRuns := by
  unfold Obligations.LaunchedWordRuns
  intro nbits w i hbits hword
  have hlen := tableBytes_length (w := w) hbits
  have hstored : Stored (State.reset.withFetchWord nbits w) 0 (tableBytes nbits w) :=
    stored_placeAtFetch rfl reset_mem_wf (by rw [hlen]; decide)
      (fun b hb => fetchCheck_launch_reset _ b (hlen ▸ hb))
  exact step_of_decodeAt (decodeAt_of_stored hstored (decode_of_decodeTableWord hword))
    (launch_not_breaksBefore _ _) (launch_not_trapsAfter _ _ i)

end Sys2Proof.Proofs
end
